-- ==== Sys2Proof/Word.lean ====
section
/-! DEFINITION. The word types of LEGv8: 00_scope.md R2 and R6, 30_encoding.md R80 and R84. -/

namespace Sys2Proof

/-- A 64-bit register, address or program counter value (R2). -/
abbrev Word := BitVec 64

/-- One byte of memory (20_memory.md R50). -/
abbrev Byte := BitVec 8

/-- One 32-bit instruction word (R80). -/
abbrev IWord := BitVec 32

/-- A 5-bit register field, naming one of 32 registers (R84). -/
abbrev RegNum := BitVec 5

end Sys2Proof
end

