-- ==== Sys2Proof/Syntax.lean ====
section
/-! DEFINITION. The 55 instructions, one constructor per row of spec/opcode_table.json, with the operand fields that
the instruction uses (30_encoding.md R82 to R88, R98). -/

namespace Sys2Proof

/-- The suffixes of B.cond (41_core_branch.md R161), in the order of their default encodings 0000 to 1101. -/
inductive Cond where
  | eq | ne | hs | lo | mi | pl | vs | vc | hi | ls | ge | lt | gt | le
deriving DecidableEq, Repr

/-- An instruction. `rd`, `rt`, `rn`, `rm` are register numbers (R84); whether a number selects an integer or a
floating-point register is the instruction's. -/
inductive Instr where
  -- Core arithmetic, logic, shift and move (40_core_arith_logic.md).
  | add (rd rn rm : RegNum)
  | addi (rd rn : RegNum) (imm : BitVec 12)
  | addis (rd rn : RegNum) (imm : BitVec 12)
  | adds (rd rn rm : RegNum)
  | and (rd rn rm : RegNum)
  | andi (rd rn : RegNum) (imm : BitVec 12)
  | andis (rd rn : RegNum) (imm : BitVec 12)
  | ands (rd rn rm : RegNum)
  | eor (rd rn rm : RegNum)
  | eori (rd rn : RegNum) (imm : BitVec 12)
  | lsl (rd rn : RegNum) (shamt : BitVec 6)
  | lsr (rd rn : RegNum) (shamt : BitVec 6)
  | movk (rd : RegNum) (hw : BitVec 2) (imm : BitVec 16)
  | movz (rd : RegNum) (hw : BitVec 2) (imm : BitVec 16)
  | orr (rd rn rm : RegNum)
  | orri (rd rn : RegNum) (imm : BitVec 12)
  | sub (rd rn rm : RegNum)
  | subi (rd rn : RegNum) (imm : BitVec 12)
  | subis (rd rn : RegNum) (imm : BitVec 12)
  | subs (rd rn rm : RegNum)
  -- Control transfer (41_core_branch.md).
  | b (addr : BitVec 26)
  | bCond (cond : BitVec 4) (addr : BitVec 19)
  | bl (addr : BitVec 26)
  | br (rt : RegNum)
  | cbnz (rt : RegNum) (addr : BitVec 19)
  | cbz (rt : RegNum) (addr : BitVec 19)
  -- Core loads and stores (42_core_load_store.md).
  | ldur (rt rn : RegNum) (dt : BitVec 9)
  | ldurb (rt rn : RegNum) (dt : BitVec 9)
  | ldurh (rt rn : RegNum) (dt : BitVec 9)
  | ldursw (rt rn : RegNum) (dt : BitVec 9)
  | ldxr (rt rn : RegNum) (dt : BitVec 9)
  | stur (rt rn : RegNum) (dt : BitVec 9)
  | sturb (rt rn : RegNum) (dt : BitVec 9)
  | sturh (rt rn : RegNum) (dt : BitVec 9)
  | sturw (rt rn : RegNum) (dt : BitVec 9)
  /-- `dt` is bits 20:12, whose upper five bits are also the status register's number (R190). -/
  | stxr (rt rn : RegNum) (dt : BitVec 9)
  -- Integer multiply and divide (43_arith_mul_div.md).
  | mul (rd rn rm : RegNum)
  | sdiv (rd rn rm : RegNum)
  | smulh (rd rn rm : RegNum)
  | udiv (rd rn rm : RegNum)
  | umulh (rd rn rm : RegNum)
  -- Floating point (44_arith_float.md).
  | fadds (rd rn rm : RegNum)
  | faddd (rd rn rm : RegNum)
  | fcmps (rn rm : RegNum)
  | fcmpd (rn rm : RegNum)
  | fdivs (rd rn rm : RegNum)
  | fdivd (rd rn rm : RegNum)
  | fmuls (rd rn rm : RegNum)
  | fmuld (rd rn rm : RegNum)
  | fsubs (rd rn rm : RegNum)
  | fsubd (rd rn rm : RegNum)
  | ldurs (rt rn : RegNum) (dt : BitVec 9)
  | ldurd (rt rn : RegNum) (dt : BitVec 9)
  | sturs (rt rn : RegNum) (dt : BitVec 9)
  | sturd (rt rn : RegNum) (dt : BitVec 9)
deriving DecidableEq, Repr

/-! The names of 10_state.md R21 that stand for another number. -/

/-- IP0 is X16 (R21). -/
def RegNum.ip0 : RegNum := 16
/-- IP1 is X17 (R21). -/
def RegNum.ip1 : RegNum := 17
/-- SP is X28, an ordinary register (R21, R23). -/
def RegNum.sp : RegNum := 28
/-- FP is X29 (R21). -/
def RegNum.fp : RegNum := 29
/-- LR is X30, the register BL writes (R21, R163). -/
def RegNum.lr : RegNum := 30
/-- XZR is register 31, the constant value 0 (R21, R22). -/
def RegNum.xzr : RegNum := 31

end Sys2Proof
end

