-- ==== Sys2Proof/Machine/Conditions.lean ====
section
/-! DEFINITION. `COND_TABLE`, the parameter that says what the 4-bit condition of B.cond means (41_core_branch.md R161,
00_scope.md R3, D11), as plain data, with R161's table as the default. -/

namespace Sys2Proof

/-- The meaning of a condition. A condition is a predicate of four flags, so a truth table of 16 bits is any of them. -/
inductive CondMeaning where
  /-- One of the fourteen meanings of R161, by its suffix. -/
  | suffix (c : Cond)
  /-- Any other predicate: it holds where bit `8 N + 4 Z + 2 C + V` of `bits` is set. -/
  | truth (bits : BitVec 16)
deriving DecidableEq, Repr

/-- `COND_TABLE`: for each value of bits 3:0 its meaning, or none where the value is unassigned. -/
abbrev CondTable := Vector (Option CondMeaning) 16

/-- The table of R161; 1110 and 1111 are unassigned. -/
def defaultCondTable : CondTable :=
  #v[some (.suffix .eq), some (.suffix .ne), some (.suffix .hs), some (.suffix .lo),
    some (.suffix .mi), some (.suffix .pl), some (.suffix .vs), some (.suffix .vc),
    some (.suffix .hi), some (.suffix .ls), some (.suffix .ge), some (.suffix .lt),
    some (.suffix .gt), some (.suffix .le), none, none]

/-- `COND_TABLE[bits[3:0]]` (41_core_branch.md R165). -/
def condEntry (t : CondTable) (c : BitVec 4) : Option CondMeaning := t[c.toNat]

/-- Whether the table gives the condition a meaning. -/
def condAssigned (t : CondTable) (c : BitVec 4) : Bool := (condEntry t c).isSome

end Sys2Proof
end

