-- ==== Sys2Proof/Config.lean ====
section
/-! DEFINITION. What the spec leaves to the machine: the named parameters of 00_scope.md R3 as plain data with the
defaults the spec takes, and the free values, constants without a body, of everything the spec calls "any value",
"a draw" or "no value". COND_TABLE's type and default are in Machine/Conditions.lean; LAUNCH and HALT_PC are in
Machine/Launch.lean and in State. -/

namespace Sys2Proof

/-- `ENDIAN` (R2, 20_memory.md R53, R56). It has the one value that the source fixes, and no control switches it; every
access of more than one byte and every fetch go by it. -/
inductive Endian where
  /-- The byte at the lowest address is the most significant. -/
  | big
deriving DecidableEq, Repr

/-- `MISALIGNED_DATA` (R3, 20_memory.md R60, D2). -/
inductive MisalignedData where
  /-- A misaligned data access raises Data Abort (the default). -/
  | fault
  /-- A misaligned data access is performed byte by byte. -/
  | bytewise
deriving DecidableEq, Repr

/-- `UNUSED_FIELD_POLICY` (R3, 30_encoding.md R101, D5). -/
inductive UnusedFieldPolicy where
  /-- A non-zero unused field makes the word unallocated (the default). -/
  | strict
  /-- Unused fields are not looked at. -/
  | ignore
deriving DecidableEq, Repr

/-- `BR_TARGET_FIELD` (R3, 30_encoding.md R103, D6). -/
inductive BrTargetField where
  /-- BR's register is in bits 4:0 (the default). -/
  | bits4to0
  /-- BR's register is in bits 9:5. -/
  | bits9to5
deriving DecidableEq, Repr

/-- `STXR_OFFSET` (R3, 42_core_load_store.md R190, D7). -/
inductive StxrOffset where
  /-- Only words with bits 20:12 all zero have a meaning (the default). -/
  | agreeOnly
  /-- The offset is the sign-extended `DT_address`. -/
  | dtaddr
  /-- Bits 20:16 are only a register number, bits 15:12 are zero and the offset is 0. -/
  | zero
deriving DecidableEq, Repr

/-- `MONITOR.granule` (R3, R191, D8). -/
inductive Granule where
  /-- A reservation is for one address (the default). -/
  | address
  /-- A reservation is for the aligned block of `2 ^ log2` bytes that holds the address. -/
  | block (log2 : Nat)
deriving DecidableEq, Repr

/-- `FLAGS_LITERAL_ORDER` (R3, 10_state.md R32, D12): the flag each bit of a 4-bit literal is, leftmost first. -/
inductive FlagsLiteralOrder where
  /-- `{N, Z, C, V}` (the default). -/
  | nzcv
  /-- `{N, Z, V, C}`. -/
  | nzvc
deriving DecidableEq, Repr

/-- A setting that is either a stated value or "any value" (93_implementation_defined.md, "safer" column). -/
inductive Setting (α : Type) where
  /-- The value `v`. -/
  | fixed (v : α)
  /-- Any value: a free value is drawn. -/
  | drawn
deriving DecidableEq, Repr

/-- The value a setting gives, where `free` is the free value that stands for "any value". -/
def Setting.value {α : Type} (c : Setting α) (free : α) : α :=
  match c with
  | .fixed v => v
  | .drawn => free

/-- Whether a setting draws a free value. -/
def Setting.isDrawn {α : Type} (c : Setting α) : Bool :=
  match c with
  | .fixed _ => false
  | .drawn => true

/-- The four floating-point operations of the numerics record `FP` (44_arith_float.md R235). -/
inductive FpOp where
  | add | sub | mul | div
deriving DecidableEq, Repr

/-- One result of a numerics record: what an operation gives on two patterns of `w` bits. -/
structure FpCase (w : Nat) where
  /-- The operation. -/
  op : FpOp
  /-- The first operand. -/
  a : BitVec w
  /-- The second operand. -/
  b : BitVec w
  /-- What the record gives. -/
  result : BitVec w
deriving DecidableEq, Repr

/-- The numerics record `FP` (R3, 44_arith_float.md R235, D15): where it differs from the default instance, the first
case that matches counting. There are finitely many patterns, so every record of total functions is one of these
(Laws/Float.lean; log 34). -/
structure FpSetting where
  /-- The cases of `FP.add32`, `FP.sub32`, `FP.mul32`, `FP.div32`. -/
  single : List (FpCase 32) := []
  /-- The cases of `FP.add64`, `FP.sub64`, `FP.mul64`, `FP.div64`. -/
  double : List (FpCase 64) := []
deriving DecidableEq, Repr

/-- The parameters of R3, each with this spec's default, and R2's `ENDIAN`. They are fixed for a machine: no step writes them (log 11). -/
structure Params where
  /-- `ENDIAN` (R53, D1). -/
  endian : Endian := .big
  /-- `MISALIGNED_DATA` (D2). -/
  misalignedData : MisalignedData := .fault
  /-- `UNUSED_FIELD_POLICY` (D5). -/
  unusedFieldPolicy : UnusedFieldPolicy := .strict
  /-- `BR_TARGET_FIELD` (D6). -/
  brTargetField : BrTargetField := .bits4to0
  /-- `STXR_OFFSET` (D7). -/
  stxrOffset : StxrOffset := .agreeOnly
  /-- `MONITOR.granule` (D8). -/
  monitorGranule : Granule := .address
  /-- `LOGICAL_FLAGS_CV`, C then V (D10). -/
  logicalFlagsCV : Setting (Bool × Bool) := .fixed (false, false)
  /-- `COND_TABLE` (D11). -/
  condTable : CondTable := defaultCondTable
  /-- `FLAGS_LITERAL_ORDER` (D12). -/
  flagsLiteralOrder : FlagsLiteralOrder := .nzcv
  /-- `FCMP_UNORDERED_FLAGS`, a 4-bit literal (D13). -/
  fcmpUnorderedFlags : Setting (BitVec 4) := .fixed 0b0011
  /-- `DIV_ZERO` (D14). -/
  divZero : Setting Word := .fixed 0
  /-- `FP` (D15). -/
  fp : FpSetting := {}
  /-- `S_WRITE_UPPER`, bits 63:32 of `D[i]` after a write of `S[i]` (D16). -/
  sWriteUpper : Setting (BitVec 32) := .fixed 0
deriving DecidableEq, Repr

/-- The defaults of R3. -/
def Params.default : Params := {}

/-- `draw_success` of the n-th draw: whether an STXR whose reservation holds succeeds (R190, U15). Free value, log 12. -/
opaque Config.drawSuccess : Nat → Bool

/-- ESR.ISS after the n-th draw, an exception entry (60_exceptions.md R292, U20). Free value, log 13. -/
opaque Config.freeIss : Nat → BitVec 25

/-- C and V after ANDS and ANDIS where `LOGICAL_FLAGS_CV` is any value (R123, U14). Free value, log 16. -/
opaque Config.freeLogicalCV : Nat → Bool × Bool

/-- The flags literal after an unordered compare where `FCMP_UNORDERED_FLAGS` is any value (R238, U13). Free value,
log 17. -/
opaque Config.freeUnorderedFlags : Nat → BitVec 4

/-- Bits 63:32 of `D[i]` after a write of `S[i]` where `S_WRITE_UPPER` is any value (R37, U9). Free value, log 18. -/
opaque Config.freeUpperHalf : Nat → BitVec 32

/-- The quotient of a division by zero where `DIV_ZERO` is any value, by the instruction (true for SDIV) and its
dividend (R216, U10). Free value, log 15. -/
opaque Config.freeQuotient : Bool → Word → Word

/-- The sign and fraction of a single-precision NaN result, by the operation and its operands (R235, U12). Free value,
log 14. -/
opaque Config.freeNaN32 : FpOp → BitVec 32 → BitVec 32 → Bool × Nat

/-- The sign and fraction of a double-precision NaN result, by the operation and its operands (R235, U12). Free value,
log 14. -/
opaque Config.freeNaN64 : FpOp → BitVec 64 → BitVec 64 → Bool × Nat

/-- The launch value of an integer register that `LAUNCH.regs` does not give (R312, U8). Free value, log 26. -/
opaque Config.launchX : Nat → Word

/-- The launch value of `D[i]` where `LAUNCH.fregs` does not give it (R312, U8). Free value, log 26. -/
opaque Config.launchD : Nat → Word

/-- The launch value of N, Z, C, V where `LAUNCH.flags` is absent (R312, U8). Free value, log 26. -/
opaque Config.launchFlags : BitVec 4

/-- The launch value of ESR, which holds no value before the first exception (R41, U20). Free value, log 26. -/
opaque Config.launchEsr : BitVec 32

end Sys2Proof
end

