-- ==== Sys2Proof/Machine/State.lean ====
section
/-! DEFINITION. Everything the spec gives the machine, as plain data (10_state.md, 20_memory.md R50, R51, R66), the
reasons a step stops, and the state after reset. -/

namespace Sys2Proof.Machine

/-- FLAGS, the four one-bit condition codes (10_state.md R30). -/
structure Flags where
  /-- Negative. -/
  n : Bool
  /-- Zero. -/
  z : Bool
  /-- Carry. -/
  c : Bool
  /-- oVerflow. -/
  v : Bool
deriving DecidableEq, Repr

/-- The ten exception classes (60_exceptions.md R281). The first, `instructionAbort`, `misalignedPC` and `dataAbort`
are the four that are raised; nothing raises the others (R288). -/
inductive ExceptionClass where
  /-- 0, "Unknown": an unallocated word (R283). -/
  | unknown
  /-- 7, "SIMD/FP registers disabled". -/
  | simdFpDisabled
  /-- 14, "Illegal Execution State". -/
  | illegalExecutionState
  /-- 17, "Supervisor Call Exception". -/
  | supervisorCall
  /-- 32, "Instruction Abort": a fetch that is not admitted (R285). -/
  | instructionAbort
  /-- 34, "Misaligned PC exception" (R284). -/
  | misalignedPC
  /-- 36, "Data Abort": a data access that is misaligned or not admitted (R286). -/
  | dataAbort
  /-- 40, "Floating-point exception". -/
  | floatingPoint
  /-- 52, "Data Breakpoint exception". -/
  | dataBreakpoint
  /-- 56, "SW Breakpoint Exception". -/
  | swBreakpoint
deriving DecidableEq, Repr

/-- The record an exception leaves (10_state.md R46). -/
structure FaultRecord where
  /-- The exception class. -/
  cls : ExceptionClass
  /-- The address of the faulting instruction (for Misaligned PC, the misaligned value). -/
  pc : Word
  /-- The offending word or address (R283 to R286). -/
  info : Word
deriving DecidableEq, Repr

/-- A range of byte addresses, `base` up to but not including `base + size` (20_memory.md R51). -/
structure MemRange where
  /-- The lowest address. -/
  base : Nat
  /-- How many bytes. -/
  size : Nat
deriving DecidableEq, Repr

/-- Memory: (address, byte) cells, addresses strictly rising, no cell holding 0, which is what an unlisted address
reads as (Machine/Ops.lean, log 9). -/
abbrev Memory := List Host.Cell

/-- The machine's state. -/
structure State where
  /-- X0 to X30 (R20); register 31 is not stored (R22). -/
  xregs : Vector Word 31
  /-- The program counter (R26). -/
  pc : Word
  /-- N, Z, C, V (R30). -/
  flags : Flags
  /-- D0 to D31, whose low halves are S0 to S31 (R36, R37). -/
  dregs : Vector Word 32
  /-- The Exception Syndrome Register (R40). -/
  esr : BitVec 32
  /-- The exclusive monitor (R44). -/
  monitor : Option Word
  /-- The contents of memory (20_memory.md R50). -/
  mem : Memory
  /-- The admitted ranges, LAUNCH.mem (R51). -/
  ranges : List MemRange
  /-- The program text, LAUNCH.text (R66). -/
  text : MemRange
  /-- HALT_PC, where a run ends (70_reset_and_hazards.md R314); none: no address ends the run (log 10). -/
  haltPc : Option Word
  /-- The fault record (R46). -/
  fault : Option FaultRecord
  /-- The parameters of 00_scope.md R3, fixed for the machine (log 11). -/
  params : Params
  /-- The model's own: how many free values have been drawn (log 12). -/
  draws : Nat
deriving DecidableEq, Repr

/-- Why the machine has stopped and has no next step, after an exception. -/
inductive Fault where
  /-- An exception was taken on an earlier step, and an exception is terminal (60_exceptions.md R290). Raised by
  `step` alone, at a state whose fault record is set. Safe: the spec gives the machine no further step. -/
  | exceptionTaken (r : FaultRecord)
deriving DecidableEq, Repr

/-- Why the model gives a step no next state, without an exception of the machine (60_exceptions.md R307). -/
inductive Refusal where
  /-- The instruction has no meaning in this model yet. Raised by no instruction. Safe. -/
  | notModelled (mnemonic : String)
  /-- The run has ended: pc is HALT_PC at the start of a step (R5, R314), and the state is the final state. Raised by
  `step` alone. Safe: no step is made. -/
  | runEnded
  /-- A store touches the program text, at the effective address given (20_memory.md R66). Raised by the stores and by
  a successful STXR. Safe: the spec refuses the run. -/
  | storeIntoText (ea : Word)
  /-- An STXR word that `STXR_OFFSET` does not admit, with its bits 20:12 (42_core_load_store.md R190). Raised by STXR.
  Safe: the spec refuses it under that setting. -/
  | stxrNotAdmitted (dt : BitVec 9)
deriving DecidableEq, Repr

/-- The machine before any launch record is applied: what the spec states (monitor and fault none, 10_state.md R48)
and, for what only a launch record gives (70_reset_and_hazards.md R310, R312), the values of logs 4 to 10, each a
DESIGN CHOICE: every register, flag and ESR 0; PC 0x1000, the entry of every program of 95_test_vectors.md; no
admitted memory; an empty text; no HALT_PC; the default parameters of R3. -/
def State.reset : State where
  xregs := Vector.replicate 31 0
  pc := 0x1000
  flags := ⟨false, false, false, false⟩
  dregs := Vector.replicate 32 0
  esr := 0
  monitor := none
  mem := []
  ranges := []
  text := ⟨0, 0⟩
  haltPc := none
  fault := none
  params := Params.default
  draws := 0

end Sys2Proof.Machine
end

