-- ==== Sys2Proof/Machine/Flags.lean ====
section
/-! DEFINITION. How the flags are computed and what the conditions of B.cond mean: 10_state.md R30 to R32,
40_core_arith_logic.md R121 to R123, 41_core_branch.md R161, 44_arith_float.md R238. -/

namespace Sys2Proof.Machine

/-- The flags of an addition `r = a + b` (R121): C is the carry out of bit 63, V signed overflow. -/
def addFlags (a b : Word) : Flags :=
  let r := a + b
  { n := r.msb
    z := r == 0
    c := decide (a.toNat + b.toNat ≥ 2 ^ 64)
    v := a.msb == b.msb && r.msb != a.msb }

/-- The flags of a subtraction `r = a - b` (R122): C = 1 means no borrow. -/
def subFlags (a b : Word) : Flags :=
  let r := a - b
  { n := r.msb
    z := r == 0
    c := decide (a.toNat ≥ b.toNat)
    v := a.msb != b.msb && r.msb != a.msb }

/-- The flags of a logical operation with result `r` (R123); C and V are what `LOGICAL_FLAGS_CV` says. -/
def logicalFlags (r : Word) (cv : Bool × Bool) : Flags :=
  { n := r.msb, z := r == 0, c := cv.1, v := cv.2 }

/-- The flags of a 4-bit literal, leftmost bit first, in the order `FLAGS_LITERAL_ORDER` says (R32). -/
def flagsOfLiteral (o : FlagsLiteralOrder) (l : BitVec 4) : Flags :=
  match o with
  | .nzcv => { n := l.getLsbD 3, z := l.getLsbD 2, c := l.getLsbD 1, v := l.getLsbD 0 }
  | .nzvc => { n := l.getLsbD 3, z := l.getLsbD 2, v := l.getLsbD 1, c := l.getLsbD 0 }

/-- How two floating-point operands compare (R238, Notes (10)). -/
inductive FpRelation where
  | equal | less | greater | unordered
deriving DecidableEq, Repr

/-- The flags literal of a comparison (R238); `unordered` is the literal for the unordered case. -/
def compareLiteral (r : FpRelation) (unordered : BitVec 4) : BitVec 4 :=
  match r with
  | .equal => 0b0110
  | .less => 0b1000
  | .greater => 0b0010
  | .unordered => unordered

/-- Whether the condition of a suffix holds (the table of R161). -/
def condHolds (c : Cond) (f : Flags) : Bool :=
  match c with
  | .eq => f.z
  | .ne => !f.z
  | .hs => f.c
  | .lo => !f.c
  | .mi => f.n
  | .pl => !f.n
  | .vs => f.v
  | .vc => !f.v
  | .hi => f.c && !f.z
  | .ls => !(f.c && !f.z)
  | .ge => f.n == f.v
  | .lt => f.n != f.v
  | .gt => !f.z && f.n == f.v
  | .le => !(!f.z && f.n == f.v)

/-- The number `8 N + 4 Z + 2 C + V`. -/
def Flags.index (f : Flags) : Nat := 8 * f.n.toNat + 4 * f.z.toNat + 2 * f.c.toNat + f.v.toNat

/-- `holds(m, N, Z, C, V)` of a meaning in `COND_TABLE` (R165). -/
def meaningHolds (m : CondMeaning) (f : Flags) : Bool :=
  match m with
  | .suffix c => condHolds c f
  | .truth bits => bits.getLsbD f.index

/-- `holds(COND_TABLE[c], N, Z, C, V)` (R165). An unassigned condition holds of no flags: no word decodes to one (R161), so
no step asks. -/
def branchHolds (t : CondTable) (c : BitVec 4) (f : Flags) : Bool :=
  match condEntry t c with
  | some m => meaningHolds m f
  | none => false

end Sys2Proof.Machine
end

