-- ==== Sys2Proof/Decode.lean ====
section
/-! DEFINITION. Decoding an instruction word and encoding an instruction, both from 30_encoding.md R82 to R104. The
decoder is total on any word and any list of bytes and rejects by name. -/

namespace Sys2Proof

/-- Why a word is unallocated (30_encoding.md R100, R104). Every one of them raises exception class 0 when executed
(60_exceptions.md R283). -/
inductive DecodeError where
  /-- The bytes are not the four bytes of one word (R80). -/
  | notOneWord
  /-- No row of R98 holds the 11-bit opcode (R100 step 1). -/
  | unlistedOpcode
  /-- The opcode is listed with other values of shamt (R100 steps 2 and 3). -/
  | unlistedShamt
  /-- A field without a role is not zero, under the strict policy (R100 step 4, R101). -/
  | unusedFieldNotZero
  /-- B.cond with a condition that `COND_TABLE` leaves unassigned, by default 1110 or 1111 (R100 step 5, R161). -/
  | unassignedCondition
deriving DecidableEq, Repr

/-! ### The fields of a word -/

/-- Bits 4:0, `Rd` or `Rt` (R84). -/
def fieldRd (w : IWord) : RegNum := w.extractLsb' 0 5
/-- Bits 9:5, `Rn` (R84). -/
def fieldRn (w : IWord) : RegNum := w.extractLsb' 5 5
/-- Bits 20:16, `Rm` (R84). -/
def fieldRm (w : IWord) : RegNum := w.extractLsb' 16 5
/-- Bits 15:10, `shamt` (R82, R95). -/
def fieldShamt (w : IWord) : BitVec 6 := w.extractLsb' 10 6
/-- Bits 21:10, `ALU_immediate` (R83). -/
def fieldAluImm (w : IWord) : BitVec 12 := w.extractLsb' 10 12
/-- Bits 20:12, `DT_address` (R85). -/
def fieldDt (w : IWord) : BitVec 9 := w.extractLsb' 12 9
/-- Bits 11:10, `op` of the D format (R85, R102). -/
def fieldOp (w : IWord) : BitVec 2 := w.extractLsb' 10 2
/-- Bits 25:0, `BR_address` (R86). -/
def fieldBrAddr (w : IWord) : BitVec 26 := w.extractLsb' 0 26
/-- Bits 23:5, `COND_BR_address` (R87). -/
def fieldCondBrAddr (w : IWord) : BitVec 19 := w.extractLsb' 5 19
/-- Bits 22:21, `hw` (R88). -/
def fieldHw (w : IWord) : BitVec 2 := w.extractLsb' 21 2
/-- Bits 20:5, `MOV_immediate` (R88). -/
def fieldMovImm (w : IWord) : BitVec 16 := w.extractLsb' 5 16
/-- Bits 3:0, the condition of B.cond (R96). -/
def fieldCond (w : IWord) : BitVec 4 := w.extractLsb' 0 4
/-- Bit 4, unused in B.cond (R96, R161). -/
def fieldBit4 (w : IWord) : BitVec 1 := w.extractLsb' 4 1
/-- The 6-bit opcode of the B format (R81). -/
def opcode6 (w : IWord) : BitVec 6 := w.extractLsb' 26 6
/-- The 8-bit opcode of the CB format (R81). -/
def opcode8 (w : IWord) : BitVec 8 := w.extractLsb' 24 8
/-- The 9-bit opcode of the IM format (R81, R88). -/
def opcode9 (w : IWord) : BitVec 9 := w.extractLsb' 23 9
/-- The 10-bit opcode of the I format (R81). -/
def opcode10 (w : IWord) : BitVec 10 := w.extractLsb' 22 10
/-- The 11-bit opcode of the R and D formats (R81, R97). -/
def opcode11 (w : IWord) : BitVec 11 := w.extractLsb' 21 11

/-! ### Decoding -/

/-- The instruction, unless an unused field is not zero and the policy is strict (R101). `zero` says that every unused
field of the instruction is zero in the word. -/
def checkUnused (p : Params) (zero : Bool) (i : Instr) : Except DecodeError Instr :=
  if p.unusedFieldPolicy = .strict ∧ zero = false then .error .unusedFieldNotZero else .ok i

/-- B.cond (R96, R161): bit 4 is an unused field (D5), bits 3:0 a condition that `COND_TABLE` assigns. -/
def decodeBCond (p : Params) (w : IWord) : Except DecodeError Instr :=
  if condAssigned p.condTable (fieldCond w) then checkUnused p (fieldBit4 w == 0) (.bCond (fieldCond w) (fieldCondBrAddr w))
  else .error .unassignedCondition

/-- An R-format instruction that does not use shamt (R101). -/
def decodeR (p : Params) (mk : RegNum → RegNum → RegNum → Instr) (w : IWord) : Except DecodeError Instr :=
  checkUnused p (fieldShamt w == 0) (mk (fieldRd w) (fieldRn w) (fieldRm w))

/-- LSL and LSR, which do not use Rm (R101). -/
def decodeShift (p : Params) (mk : RegNum → RegNum → BitVec 6 → Instr) (w : IWord) : Except DecodeError Instr :=
  checkUnused p (fieldRm w == 0) (mk (fieldRd w) (fieldRn w) (fieldShamt w))

/-- A D-format instruction, whose op field is unused (R102). -/
def decodeD (p : Params) (mk : RegNum → RegNum → BitVec 9 → Instr) (w : IWord) : Except DecodeError Instr :=
  checkUnused p (fieldOp w == 0) (mk (fieldRd w) (fieldRn w) (fieldDt w))

/-- BR, whose register is where `BR_TARGET_FIELD` says and whose other fields are unused (R101, R103). -/
def decodeBr (p : Params) (w : IWord) : Except DecodeError Instr :=
  match p.brTargetField with
  | .bits4to0 => checkUnused p (fieldRm w == 0 && fieldShamt w == 0 && fieldRn w == 0) (.br (fieldRd w))
  | .bits9to5 => checkUnused p (fieldRm w == 0 && fieldShamt w == 0 && fieldRd w == 0) (.br (fieldRn w))

/-- Opcode 0F1 (R98, R99): the single-precision operations, by shamt. FCMPS does not use Rd (R101). -/
def decodeFpSingle (p : Params) (w : IWord) : Except DecodeError Instr :=
  if fieldShamt w = 0x02 then .ok (.fmuls (fieldRd w) (fieldRn w) (fieldRm w))
  else if fieldShamt w = 0x06 then .ok (.fdivs (fieldRd w) (fieldRn w) (fieldRm w))
  else if fieldShamt w = 0x08 then checkUnused p (fieldRd w == 0) (.fcmps (fieldRn w) (fieldRm w))
  else if fieldShamt w = 0x0A then .ok (.fadds (fieldRd w) (fieldRn w) (fieldRm w))
  else if fieldShamt w = 0x0E then .ok (.fsubs (fieldRd w) (fieldRn w) (fieldRm w))
  else .error .unlistedShamt

/-- Opcode 0F3 (R98, R99): the double-precision operations, by shamt. FCMPD does not use Rd (R101). -/
def decodeFpDouble (p : Params) (w : IWord) : Except DecodeError Instr :=
  if fieldShamt w = 0x02 then .ok (.fmuld (fieldRd w) (fieldRn w) (fieldRm w))
  else if fieldShamt w = 0x06 then .ok (.fdivd (fieldRd w) (fieldRn w) (fieldRm w))
  else if fieldShamt w = 0x08 then checkUnused p (fieldRd w == 0) (.fcmpd (fieldRn w) (fieldRm w))
  else if fieldShamt w = 0x0A then .ok (.faddd (fieldRd w) (fieldRn w) (fieldRm w))
  else if fieldShamt w = 0x0E then .ok (.fsubd (fieldRd w) (fieldRn w) (fieldRm w))
  else .error .unlistedShamt

/-- Opcode 4D6 (R98, R99): the divides, by shamt. -/
def decodeDivide (w : IWord) : Except DecodeError Instr :=
  if fieldShamt w = 0x02 then .ok (.sdiv (fieldRd w) (fieldRn w) (fieldRm w))
  else if fieldShamt w = 0x03 then .ok (.udiv (fieldRd w) (fieldRn w) (fieldRm w))
  else .error .unlistedShamt

/-- MUL, whose shamt is 011111 (R99). -/
def decodeMultiply (w : IWord) : Except DecodeError Instr :=
  if fieldShamt w = 0x1F then .ok (.mul (fieldRd w) (fieldRn w) (fieldRm w)) else .error .unlistedShamt

/-- SMULH and UMULH, whose shamt is 011111 (R99); the policy `ignore` removes the requirement (D32, log 23). -/
def decodeMultiplyHigh (p : Params) (mk : RegNum → RegNum → RegNum → Instr) (w : IWord) : Except DecodeError Instr :=
  if p.unusedFieldPolicy = .strict ∧ fieldShamt w ≠ 0x1F then .error .unlistedShamt
  else .ok (mk (fieldRd w) (fieldRn w) (fieldRm w))

/-- The stores of R98, by the 11-bit opcode. -/
def decodeStore (p : Params) (w : IWord) : Except DecodeError Instr :=
  if opcode11 w = 0x1C0 then decodeD p .sturb w
  else if opcode11 w = 0x3C0 then decodeD p .sturh w
  else if opcode11 w = 0x5C0 then decodeD p .sturw w
  else if opcode11 w = 0x5E0 then decodeD p .sturs w
  else if opcode11 w = 0x640 then decodeD p .stxr w
  else if opcode11 w = 0x7C0 then decodeD p .stur w
  else if opcode11 w = 0x7E0 then decodeD p .sturd w
  else .error .unlistedOpcode

/-- The loads of R98, by the 11-bit opcode, and then the stores. -/
def decodeLoad (p : Params) (w : IWord) : Except DecodeError Instr :=
  if opcode11 w = 0x1C2 then decodeD p .ldurb w
  else if opcode11 w = 0x3C2 then decodeD p .ldurh w
  else if opcode11 w = 0x5C4 then decodeD p .ldursw w
  else if opcode11 w = 0x5E2 then decodeD p .ldurs w
  else if opcode11 w = 0x642 then decodeD p .ldxr w
  else if opcode11 w = 0x7C2 then decodeD p .ldur w
  else if opcode11 w = 0x7E2 then decodeD p .ldurd w
  else decodeStore p w

/-- The R-format rows of R98 whose opcode is alone on its row and needs no shamt, and then the D format. -/
def decodeRegister (p : Params) (w : IWord) : Except DecodeError Instr :=
  if opcode11 w = 0x450 then decodeR p .and w
  else if opcode11 w = 0x458 then decodeR p .add w
  else if opcode11 w = 0x550 then decodeR p .orr w
  else if opcode11 w = 0x558 then decodeR p .adds w
  else if opcode11 w = 0x650 then decodeR p .eor w
  else if opcode11 w = 0x658 then decodeR p .sub w
  else if opcode11 w = 0x69A then decodeShift p .lsr w
  else if opcode11 w = 0x69B then decodeShift p .lsl w
  else if opcode11 w = 0x6B0 then decodeBr p w
  else if opcode11 w = 0x750 then decodeR p .ands w
  else if opcode11 w = 0x758 then decodeR p .subs w
  else decodeLoad p w

/-- The R- and D-format rows of R98, by the 11-bit opcode: first the opcodes that also need a shamt (R99). -/
def decodeOp11 (p : Params) (w : IWord) : Except DecodeError Instr :=
  if opcode11 w = 0x0F1 then decodeFpSingle p w
  else if opcode11 w = 0x0F3 then decodeFpDouble p w
  else if opcode11 w = 0x4D6 then decodeDivide w
  else if opcode11 w = 0x4D8 then decodeMultiply w
  else if opcode11 w = 0x4DA then decodeMultiplyHigh p .smulh w
  else if opcode11 w = 0x4DE then decodeMultiplyHigh p .umulh w
  else decodeRegister p w

/-- The I-format instructions, by the 10-bit opcode (R83, R98), and then the R and D formats. -/
def decodeOp10 (p : Params) (w : IWord) : Except DecodeError Instr :=
  if opcode10 w = 0b1001000100 then .ok (.addi (fieldRd w) (fieldRn w) (fieldAluImm w))
  else if opcode10 w = 0b1001001000 then .ok (.andi (fieldRd w) (fieldRn w) (fieldAluImm w))
  else if opcode10 w = 0b1011000100 then .ok (.addis (fieldRd w) (fieldRn w) (fieldAluImm w))
  else if opcode10 w = 0b1011001000 then .ok (.orri (fieldRd w) (fieldRn w) (fieldAluImm w))
  else if opcode10 w = 0b1101000100 then .ok (.subi (fieldRd w) (fieldRn w) (fieldAluImm w))
  else if opcode10 w = 0b1101001000 then .ok (.eori (fieldRd w) (fieldRn w) (fieldAluImm w))
  else if opcode10 w = 0b1111000100 then .ok (.subis (fieldRd w) (fieldRn w) (fieldAluImm w))
  else if opcode10 w = 0b1111001000 then .ok (.andis (fieldRd w) (fieldRn w) (fieldAluImm w))
  else decodeOp11 p w

/-- Decoding a word (R100): the top 6 bits against B and BL, then the top 8 against the CB opcodes, the top 9 against
IM, the top 10 against I and the top 11 against R and D. -/
def decodeWord (p : Params) (w : IWord) : Except DecodeError Instr :=
  if opcode6 w = 0b000101 then .ok (.b (fieldBrAddr w))
  else if opcode6 w = 0b100101 then .ok (.bl (fieldBrAddr w))
  else if opcode8 w = 0b01010100 then decodeBCond p w
  else if opcode8 w = 0b10110100 then .ok (.cbz (fieldRd w) (fieldCondBrAddr w))
  else if opcode8 w = 0b10110101 then .ok (.cbnz (fieldRd w) (fieldCondBrAddr w))
  else if opcode9 w = 0b110100101 then .ok (.movz (fieldRd w) (fieldHw w) (fieldMovImm w))
  else if opcode9 w = 0b111100101 then .ok (.movk (fieldRd w) (fieldHw w) (fieldMovImm w))
  else decodeOp10 p w

/-- The word that four bytes hold, given in the order of their addresses (20_memory.md R56, D1). -/
def assembleWord (e : Endian) (b0 b1 b2 b3 : Byte) : IWord :=
  match e with
  | .big => b0 ++ b1 ++ b2 ++ b3

/-- The four bytes of a word, in the order of their addresses (R56). -/
def wordBytes (e : Endian) (w : IWord) : List Byte :=
  match e with
  | .big => [w.extractLsb' 24 8, w.extractLsb' 16 8, w.extractLsb' 8 8, w.extractLsb' 0 8]

/-- Decoding the bytes of one word, in the order of their addresses. -/
def decodeBytes (p : Params) (bs : List Byte) : Except DecodeError Instr :=
  match bs with
  | [b0, b1, b2, b3] => decodeWord p (assembleWord p.endian b0 b1 b2 b3)
  | _ => .error .notOneWord

/-- The instruction the decoder reads, under the default parameters, from the instruction whose bits are `w`, numbered
as spec/opcode_table.json numbers them: one 32-bit word, bit 0 the least significant. -/
def decodeTableWord (nbits w : Nat) : Option Instr :=
  (decodeBytes Params.default (wordBytes Params.default.endian (BitVec.ofNat 32 (w % 2 ^ nbits)))).toOption

/-! ### Encoding -/

/-- The R format (R82). -/
def encodeR (op : BitVec 11) (rm : RegNum) (shamt : BitVec 6) (rn rd : RegNum) : IWord := op ++ rm ++ shamt ++ rn ++ rd
/-- The I format (R83). -/
def encodeI (op : BitVec 10) (imm : BitVec 12) (rn rd : RegNum) : IWord := op ++ imm ++ rn ++ rd
/-- The D format, with op = 00 (R85, R102). -/
def encodeD (op : BitVec 11) (dt : BitVec 9) (rn rt : RegNum) : IWord := op ++ dt ++ (0 : BitVec 2) ++ rn ++ rt
/-- The B format (R86). -/
def encodeB (op : BitVec 6) (addr : BitVec 26) : IWord := op ++ addr
/-- The CB format (R87). -/
def encodeCB (op : BitVec 8) (addr : BitVec 19) (rt : RegNum) : IWord := op ++ addr ++ rt
/-- The IM format (R88). -/
def encodeIM (op : BitVec 9) (hw : BitVec 2) (imm : BitVec 16) (rd : RegNum) : IWord := op ++ hw ++ imm ++ rd

/-- The encoding of a condition (R161). -/
def encodeCond (c : Cond) : BitVec 4 :=
  match c with
  | .eq => 0b0000
  | .ne => 0b0001
  | .hs => 0b0010
  | .lo => 0b0011
  | .mi => 0b0100
  | .pl => 0b0101
  | .vs => 0b0110
  | .vc => 0b0111
  | .hi => 0b1000
  | .ls => 0b1001
  | .ge => 0b1010
  | .lt => 0b1011
  | .gt => 0b1100
  | .le => 0b1101

/-- BR with its register where `BR_TARGET_FIELD` says (R103, R164). -/
def encodeBr (p : Params) (rt : RegNum) : IWord :=
  match p.brTargetField with
  | .bits4to0 => encodeR 0x6B0 0 0 0 rt
  | .bits9to5 => encodeR 0x6B0 0 0 rt 0

/-- The word of an instruction, with zero in every unused field (R98, R101): what an assembler of this spec writes. -/
def encode (p : Params) (i : Instr) : IWord :=
  match i with
  | .add rd rn rm => encodeR 0x458 rm 0 rn rd
  | .addi rd rn imm => encodeI 0b1001000100 imm rn rd
  | .addis rd rn imm => encodeI 0b1011000100 imm rn rd
  | .adds rd rn rm => encodeR 0x558 rm 0 rn rd
  | .and rd rn rm => encodeR 0x450 rm 0 rn rd
  | .andi rd rn imm => encodeI 0b1001001000 imm rn rd
  | .andis rd rn imm => encodeI 0b1111001000 imm rn rd
  | .ands rd rn rm => encodeR 0x750 rm 0 rn rd
  | .eor rd rn rm => encodeR 0x650 rm 0 rn rd
  | .eori rd rn imm => encodeI 0b1101001000 imm rn rd
  | .lsl rd rn shamt => encodeR 0x69B 0 shamt rn rd
  | .lsr rd rn shamt => encodeR 0x69A 0 shamt rn rd
  | .movk rd hw imm => encodeIM 0b111100101 hw imm rd
  | .movz rd hw imm => encodeIM 0b110100101 hw imm rd
  | .orr rd rn rm => encodeR 0x550 rm 0 rn rd
  | .orri rd rn imm => encodeI 0b1011001000 imm rn rd
  | .sub rd rn rm => encodeR 0x658 rm 0 rn rd
  | .subi rd rn imm => encodeI 0b1101000100 imm rn rd
  | .subis rd rn imm => encodeI 0b1111000100 imm rn rd
  | .subs rd rn rm => encodeR 0x758 rm 0 rn rd
  | .b addr => encodeB 0b000101 addr
  | .bCond cond addr => encodeCB 0b01010100 addr ((0 : BitVec 1) ++ cond)
  | .bl addr => encodeB 0b100101 addr
  | .br rt => encodeBr p rt
  | .cbnz rt addr => encodeCB 0b10110101 addr rt
  | .cbz rt addr => encodeCB 0b10110100 addr rt
  | .ldur rt rn dt => encodeD 0x7C2 dt rn rt
  | .ldurb rt rn dt => encodeD 0x1C2 dt rn rt
  | .ldurh rt rn dt => encodeD 0x3C2 dt rn rt
  | .ldursw rt rn dt => encodeD 0x5C4 dt rn rt
  | .ldxr rt rn dt => encodeD 0x642 dt rn rt
  | .stur rt rn dt => encodeD 0x7C0 dt rn rt
  | .sturb rt rn dt => encodeD 0x1C0 dt rn rt
  | .sturh rt rn dt => encodeD 0x3C0 dt rn rt
  | .sturw rt rn dt => encodeD 0x5C0 dt rn rt
  | .stxr rt rn dt => encodeD 0x640 dt rn rt
  | .mul rd rn rm => encodeR 0x4D8 rm 0x1F rn rd
  | .sdiv rd rn rm => encodeR 0x4D6 rm 0x02 rn rd
  | .smulh rd rn rm => encodeR 0x4DA rm 0x1F rn rd
  | .udiv rd rn rm => encodeR 0x4D6 rm 0x03 rn rd
  | .umulh rd rn rm => encodeR 0x4DE rm 0x1F rn rd
  | .fadds rd rn rm => encodeR 0x0F1 rm 0x0A rn rd
  | .faddd rd rn rm => encodeR 0x0F3 rm 0x0A rn rd
  | .fcmps rn rm => encodeR 0x0F1 rm 0x08 rn 0
  | .fcmpd rn rm => encodeR 0x0F3 rm 0x08 rn 0
  | .fdivs rd rn rm => encodeR 0x0F1 rm 0x06 rn rd
  | .fdivd rd rn rm => encodeR 0x0F3 rm 0x06 rn rd
  | .fmuls rd rn rm => encodeR 0x0F1 rm 0x02 rn rd
  | .fmuld rd rn rm => encodeR 0x0F3 rm 0x02 rn rd
  | .fsubs rd rn rm => encodeR 0x0F1 rm 0x0E rn rd
  | .fsubd rd rn rm => encodeR 0x0F3 rm 0x0E rn rd
  | .ldurs rt rn dt => encodeD 0x5E2 dt rn rt
  | .ldurd rt rn dt => encodeD 0x7E2 dt rn rt
  | .sturs rt rn dt => encodeD 0x5E0 dt rn rt
  | .sturd rt rn dt => encodeD 0x7E0 dt rn rt

/-! ### The opcode table -/

/-- A row of the opcode map (30_encoding.md R98, spec/opcode_table.json): a word is the row's instruction when its bits
under the mask are the pattern. The rows are those of the strict policy and of `BR_TARGET_FIELD = bits[4:0]`. -/
structure OpcodeRow where
  /-- The mnemonic, as the table spells it. -/
  mnemonic : String
  /-- The bits under the mask. -/
  pattern : IWord
  /-- The fixed bits: opcode, required shamt, unused fields. -/
  mask : IWord
deriving DecidableEq, Repr

/-- Whether a word is a row's. -/
def OpcodeRow.covers (r : OpcodeRow) (w : IWord) : Bool := w &&& r.mask == r.pattern

/-- The rows of 40_core_arith_logic.md. -/
def coreArithRows : List OpcodeRow :=
  [ ⟨"ADD", 0x8B000000, 0xFFE0FC00⟩,
    ⟨"ADDI", 0x91000000, 0xFFC00000⟩,
    ⟨"ADDIS", 0xB1000000, 0xFFC00000⟩,
    ⟨"ADDS", 0xAB000000, 0xFFE0FC00⟩,
    ⟨"AND", 0x8A000000, 0xFFE0FC00⟩,
    ⟨"ANDI", 0x92000000, 0xFFC00000⟩,
    ⟨"ANDIS", 0xF2000000, 0xFFC00000⟩,
    ⟨"ANDS", 0xEA000000, 0xFFE0FC00⟩,
    ⟨"EOR", 0xCA000000, 0xFFE0FC00⟩,
    ⟨"EORI", 0xD2000000, 0xFFC00000⟩,
    ⟨"LSL", 0xD3600000, 0xFFFF0000⟩,
    ⟨"LSR", 0xD3400000, 0xFFFF0000⟩,
    ⟨"MOVK", 0xF2800000, 0xFF800000⟩,
    ⟨"MOVZ", 0xD2800000, 0xFF800000⟩,
    ⟨"ORR", 0xAA000000, 0xFFE0FC00⟩,
    ⟨"ORRI", 0xB2000000, 0xFFC00000⟩,
    ⟨"SUB", 0xCB000000, 0xFFE0FC00⟩,
    ⟨"SUBI", 0xD1000000, 0xFFC00000⟩,
    ⟨"SUBIS", 0xF1000000, 0xFFC00000⟩,
    ⟨"SUBS", 0xEB000000, 0xFFE0FC00⟩ ]

/-- The rows of 41_core_branch.md; B.cond also needs a condition below 1110 (R161). -/
def branchRows : List OpcodeRow :=
  [ ⟨"B", 0x14000000, 0xFC000000⟩,
    ⟨"B.cond", 0x54000000, 0xFF000010⟩,
    ⟨"BL", 0x94000000, 0xFC000000⟩,
    ⟨"BR", 0xD6000000, 0xFFFFFFE0⟩,
    ⟨"CBNZ", 0xB5000000, 0xFF000000⟩,
    ⟨"CBZ", 0xB4000000, 0xFF000000⟩ ]

/-- The rows of 42_core_load_store.md. -/
def loadStoreRows : List OpcodeRow :=
  [ ⟨"LDUR", 0xF8400000, 0xFFE00C00⟩,
    ⟨"LDURB", 0x38400000, 0xFFE00C00⟩,
    ⟨"LDURH", 0x78400000, 0xFFE00C00⟩,
    ⟨"LDURSW", 0xB8800000, 0xFFE00C00⟩,
    ⟨"LDXR", 0xC8400000, 0xFFE00C00⟩,
    ⟨"STUR", 0xF8000000, 0xFFE00C00⟩,
    ⟨"STURB", 0x38000000, 0xFFE00C00⟩,
    ⟨"STURH", 0x78000000, 0xFFE00C00⟩,
    ⟨"STURW", 0xB8000000, 0xFFE00C00⟩,
    ⟨"STXR", 0xC8000000, 0xFFE00C00⟩ ]

/-- The rows of 43_arith_mul_div.md. -/
def mulDivRows : List OpcodeRow :=
  [ ⟨"MUL", 0x9B007C00, 0xFFE0FC00⟩,
    ⟨"SDIV", 0x9AC00800, 0xFFE0FC00⟩,
    ⟨"SMULH", 0x9B407C00, 0xFFE0FC00⟩,
    ⟨"UDIV", 0x9AC00C00, 0xFFE0FC00⟩,
    ⟨"UMULH", 0x9BC07C00, 0xFFE0FC00⟩ ]

/-- The rows of 44_arith_float.md. -/
def floatRows : List OpcodeRow :=
  [ ⟨"FADDS", 0x1E202800, 0xFFE0FC00⟩,
    ⟨"FADDD", 0x1E602800, 0xFFE0FC00⟩,
    ⟨"FCMPS", 0x1E202000, 0xFFE0FC1F⟩,
    ⟨"FCMPD", 0x1E602000, 0xFFE0FC1F⟩,
    ⟨"FDIVS", 0x1E201800, 0xFFE0FC00⟩,
    ⟨"FDIVD", 0x1E601800, 0xFFE0FC00⟩,
    ⟨"FMULS", 0x1E200800, 0xFFE0FC00⟩,
    ⟨"FMULD", 0x1E600800, 0xFFE0FC00⟩,
    ⟨"FSUBS", 0x1E203800, 0xFFE0FC00⟩,
    ⟨"FSUBD", 0x1E603800, 0xFFE0FC00⟩,
    ⟨"LDURS", 0xBC400000, 0xFFE00C00⟩,
    ⟨"LDURD", 0xFC400000, 0xFFE00C00⟩,
    ⟨"STURS", 0xBC000000, 0xFFE00C00⟩,
    ⟨"STURD", 0xFC000000, 0xFFE00C00⟩ ]

/-- The 55 rows. -/
def opcodeTable : List OpcodeRow := coreArithRows ++ branchRows ++ loadStoreRows ++ mulDivRows ++ floatRows

/-- The mnemonic of an instruction, as the table spells it. -/
def mnemonicOf (i : Instr) : String :=
  match i with
  | .add .. => "ADD"
  | .addi .. => "ADDI"
  | .addis .. => "ADDIS"
  | .adds .. => "ADDS"
  | .and .. => "AND"
  | .andi .. => "ANDI"
  | .andis .. => "ANDIS"
  | .ands .. => "ANDS"
  | .eor .. => "EOR"
  | .eori .. => "EORI"
  | .lsl .. => "LSL"
  | .lsr .. => "LSR"
  | .movk .. => "MOVK"
  | .movz .. => "MOVZ"
  | .orr .. => "ORR"
  | .orri .. => "ORRI"
  | .sub .. => "SUB"
  | .subi .. => "SUBI"
  | .subis .. => "SUBIS"
  | .subs .. => "SUBS"
  | .b .. => "B"
  | .bCond .. => "B.cond"
  | .bl .. => "BL"
  | .br .. => "BR"
  | .cbnz .. => "CBNZ"
  | .cbz .. => "CBZ"
  | .ldur .. => "LDUR"
  | .ldurb .. => "LDURB"
  | .ldurh .. => "LDURH"
  | .ldursw .. => "LDURSW"
  | .ldxr .. => "LDXR"
  | .stur .. => "STUR"
  | .sturb .. => "STURB"
  | .sturh .. => "STURH"
  | .sturw .. => "STURW"
  | .stxr .. => "STXR"
  | .mul .. => "MUL"
  | .sdiv .. => "SDIV"
  | .smulh .. => "SMULH"
  | .udiv .. => "UDIV"
  | .umulh .. => "UMULH"
  | .fadds .. => "FADDS"
  | .faddd .. => "FADDD"
  | .fcmps .. => "FCMPS"
  | .fcmpd .. => "FCMPD"
  | .fdivs .. => "FDIVS"
  | .fdivd .. => "FDIVD"
  | .fmuls .. => "FMULS"
  | .fmuld .. => "FMULD"
  | .fsubs .. => "FSUBS"
  | .fsubd .. => "FSUBD"
  | .ldurs .. => "LDURS"
  | .ldurd .. => "LDURD"
  | .sturs .. => "STURS"
  | .sturd .. => "STURD"

end Sys2Proof
end

