-- ==== Sys2Proof/Machine/Operands.lean ====
section
/-! DEFINITION. The operand forms of 30_encoding.md R90 to R95: how a field of an instruction becomes a 64-bit value. -/

namespace Sys2Proof.Machine

/-- `ALUImm`: the 12 bits zero-extended (R90). -/
def aluImm (imm : BitVec 12) : Word := imm.setWidth 64

/-- `BranchAddr`: the 26 bits times 4, sign-extended from 28 bits (R91). -/
def branchAddr (addr : BitVec 26) : Word := (addr ++ (0 : BitVec 2)).signExtend 64

/-- `CondBranchAddr`: the 19 bits times 4, sign-extended from 21 bits (R92). -/
def condBranchAddr (addr : BitVec 19) : Word := (addr ++ (0 : BitVec 2)).signExtend 64

/-- `DTAddr`: the 9 bits sign-extended, unscaled (R93). -/
def dtAddr (dt : BitVec 9) : Word := dt.signExtend 64

/-- `MOVImm`: the 16 bits zero-extended (R94). -/
def movImm (imm : BitVec 16) : Word := imm.setWidth 64

/-- The bit position `16 * hw` at which MOVZ and MOVK place their immediate (R94). -/
def movShift (hw : BitVec 2) : Nat := 16 * hw.toNat

/-- The status register's number in STXR, bits 20:16, the upper five bits of `DT_address` (R103,
42_core_load_store.md R190). -/
def stxrStatusReg (dt : BitVec 9) : RegNum := dt.extractLsb' 4 5

/-- STXR's offset (R190): `DTAddr` under `dtaddr`, else 0. -/
def stxrOffset (p : Params) (dt : BitVec 9) : Word :=
  match p.stxrOffset with
  | .agreeOnly => 0
  | .dtaddr => dtAddr dt
  | .zero => 0

end Sys2Proof.Machine
end

