-- ==== Sys2Proof/WellFormed.lean ====
section
/-! DEFINITION. Which instructions have a meaning under given parameters. Field widths and register numbers are
checked by the types of Syntax.lean; what remains is the overlap of STXR's status register with its offset
(42_core_load_store.md R190) and the condition of B.cond (41_core_branch.md R161). -/

namespace Sys2Proof

/-- The STXR words that `STXR_OFFSET` admits, by their bits 20:12 (the table of R190): all zero under `agree_only`,
any under `dtaddr`, bits 15:12 zero under `zero`. -/
def stxrAdmitted (p : Params) (dt : BitVec 9) : Bool :=
  match p.stxrOffset with
  | .agreeOnly => dt == 0
  | .dtaddr => true
  | .zero => dt.extractLsb' 0 4 == 0

/-- Whether the instruction has a meaning under the parameters. -/
def Instr.wellFormed (p : Params) : Instr → Bool
  | .stxr _ _ dt => stxrAdmitted p dt
  | .bCond c _ => condAssigned p.condTable c
  | _ => true

end Sys2Proof
end

