-- ==== Sys2Proof/Machine/Ops.lean ====
section
/-! DEFINITION. The named operations over registers and memory that every meaning uses (the primitives of
00_scope.md R7), fetching, and taking an exception. -/

namespace Sys2Proof.Machine

/-! ### Integer registers -/

/-- `x[r]`: register 31 reads as 0 (10_state.md R22). -/
def State.readX (s : State) (r : RegNum) : Word :=
  if h : r.toNat < 31 then s.xregs[r.toNat] else 0

/-- The register file after a write of register `r`; a write of register 31 is discarded (R22). -/
def writeXregs (xs : Vector Word 31) (r : RegNum) (v : Word) : Vector Word 31 :=
  if h : r.toNat < 31 then xs.set r.toNat v else xs

/-- `x[r] <- v` (R22). -/
def State.writeX (s : State) (r : RegNum) (v : Word) : State :=
  { s with xregs := writeXregs s.xregs r v }

/-! ### Program counter and flags -/

/-- `pc <- t` (00_scope.md R7). -/
def State.setPc (s : State) (t : Word) : State := { s with pc := t }

/-- `pc <- pc + 4`, modulo 2^64 (10_state.md R28, R29). -/
def State.advance (s : State) : State := s.setPc (s.pc + 4)

/-- `flags <- (n, z, c, v)` (R30: the four are always written together). -/
def State.setFlags (s : State) (f : Flags) : State := { s with flags := f }

/-- One more free value has been drawn, where `b` holds (log 12). -/
def State.drawIf (s : State) (b : Bool) : State := { s with draws := if b then s.draws + 1 else s.draws }

/-! ### Floating-point registers -/

/-- `d[r]` (10_state.md R37). -/
def State.readD (s : State) (r : RegNum) : Word := s.dregs[r.toNat]

/-- `s[r]`, the low half of `d[r]` (R37). -/
def State.readS (s : State) (r : RegNum) : BitVec 32 := (s.readD r).extractLsb' 0 32

/-- `d[r] <- v` (R37). Register 31 is an ordinary register (R36). -/
def State.writeD (s : State) (r : RegNum) (v : Word) : State :=
  { s with dregs := s.dregs.set r.toNat v }

/-- `s[r] <- v`: the low half is `v`, the upper half what `S_WRITE_UPPER` says (R37). -/
def State.writeS (s : State) (r : RegNum) (v : BitVec 32) : State :=
  (s.writeD r (s.params.sWriteUpper.value (Config.freeUpperHalf s.draws) ++ v)).drawIf
    s.params.sWriteUpper.isDrawn

/-! ### Memory -/

/-- The byte at an address: 0 where no cell is listed (log 9). -/
def Memory.read (m : Memory) (a : Nat) : Byte :=
  match m with
  | [] => 0
  | (k, b) :: t => if k = a then b else Memory.read t a

/-- Memory with the byte `v` at address `a`, in the canonical form: writing 0 removes the cell. -/
def Memory.write (m : Memory) (a : Nat) (v : Byte) : Memory :=
  match m with
  | [] => if v = 0 then [] else [(a, v)]
  | (k, b) :: t =>
    if a < k then (if v = 0 then (k, b) :: t else (a, v) :: (k, b) :: t)
    else if a = k then (if v = 0 then t else (a, v) :: t)
    else (k, b) :: Memory.write t a v

/-- Every cell of a memory lies above address `a`. -/
def Memory.above (m : Memory) (a : Nat) : Bool := m.all (fun c => a < c.1)

/-- The canonical form: addresses strictly rising, no cell holding what an unlisted address reads as. -/
def Memory.wf (m : Memory) : Bool :=
  match m with
  | [] => true
  | (k, b) :: t => b != 0 && Memory.above t k && Memory.wf t

/-- The `n` bytes from address `a` as one number, the byte at the lowest address the most significant
(20_memory.md R53). -/
def Memory.readBE (m : Memory) (a n : Nat) : Nat :=
  match n with
  | 0 => 0
  | n + 1 => 256 * Memory.readBE m a n + (Memory.read m (a + n)).toNat

/-- Memory with the low `8 * n` bits of `v` at the `n` bytes from address `a`, the most significant byte at the lowest
address (R53). -/
def Memory.writeBE (m : Memory) (a n v : Nat) : Memory :=
  match n with
  | 0 => m
  | n + 1 => Memory.write (Memory.writeBE m a n (v / 256)) (a + n) (BitVec.ofNat 8 v)

/-- The `n` bytes from address `a` as one number, in the byte order `ENDIAN` (R53). -/
def Memory.readIn (e : Endian) (m : Memory) (a n : Nat) : Nat :=
  match e with
  | .big => Memory.readBE m a n

/-- Memory with the low `8 * n` bits of `v` at the `n` bytes from address `a`, in the byte order `ENDIAN` (R53). -/
def Memory.writeIn (e : Endian) (m : Memory) (a n v : Nat) : Memory :=
  match e with
  | .big => Memory.writeBE m a n v

/-- Whether a range holds a byte address. -/
def MemRange.contains (r : MemRange) (a : Nat) : Bool := r.base ≤ a && a < r.base + r.size

/-- The byte at an address (`M8` of R53). -/
def State.readByte (s : State) (a : Nat) : Byte := Memory.read s.mem a

/-- Memory contents replaced. -/
def State.setMem (s : State) (m : Memory) : State := { s with mem := m }

/-- The exclusive monitor replaced (10_state.md R44). -/
def State.setMonitor (s : State) (m : Option Word) : State := { s with monitor := m }

/-- Whether a byte address exists: some admitted range of LAUNCH.mem holds it (R51). -/
def State.admits (s : State) (a : Nat) : Bool := s.ranges.any (fun r => r.contains a)

/-- Whether every byte of the `n`-byte access at `a` is admitted; one that would run past address 2^64 - 1 never is
(R58 step 2). -/
def State.admitted (s : State) (a n : Nat) : Bool :=
  decide (a + n ≤ 2 ^ 64) && (List.range n).all (fun k => s.admits (a + k))

/-- Whether an `n`-byte access at `a` touches the program text (R58 step 3, R66). -/
def State.touchesText (s : State) (a n : Nat) : Bool :=
  (List.range n).any (fun k => s.text.contains (a + k))

/-- Whether the address of an `n`-byte data access is misaligned in a way that raises Data Abort (R58 step 1, R60):
never under `bytewise`, but for the exclusive pair. -/
def State.misaligned (s : State) (exclusive : Bool) (ea : Word) (n : Nat) : Bool :=
  decide (ea.toNat % n ≠ 0) && (exclusive || s.params.misalignedData == .fault)

/-- Whether an `n`-byte data access at `ea` raises Data Abort (R58 steps 1 and 2, R286). -/
def State.aborts (s : State) (exclusive : Bool) (ea : Word) (n : Nat) : Bool :=
  s.misaligned exclusive ea n || !s.admitted ea.toNat n

/-- `MemRead(a, n)` where it raises nothing (R53, R58 step 4). -/
def State.memRead (s : State) (ea : Word) (n : Nat) : Nat :=
  Memory.readIn s.params.endian s.mem ea.toNat n

/-- `MemWrite(a, n, v)` where it raises nothing (R53, R58 step 4). -/
def State.memWrite (s : State) (ea : Word) (n v : Nat) : State :=
  s.setMem (Memory.writeIn s.params.endian s.mem ea.toNat n v)

/-- The effective address, `x[Rn] + DTAddr` modulo 2^64 (42_core_load_store.md R180). -/
def State.effAddr (s : State) (rn : RegNum) (dt : BitVec 9) : Word := s.readX rn + dtAddr dt

/-! ### Taking an exception -/

/-- ESR from its fields (10_state.md R40). -/
def esrOf (ec : BitVec 6) (il : BitVec 1) (iss : BitVec 25) : BitVec 32 := ec ++ il ++ iss
/-- ESR.EC, bits 31:26 (R40). -/
def esrEC (e : BitVec 32) : BitVec 6 := e.extractLsb' 26 6
/-- ESR.IL, bit 25 (R40). -/
def esrIL (e : BitVec 32) : BitVec 1 := e.extractLsb' 25 1
/-- ESR.ISS, bits 24:0 (R40). -/
def esrISS (e : BitVec 32) : BitVec 25 := e.extractLsb' 0 25

/-- The EC value of a class (60_exceptions.md R281). -/
def exceptionCode (c : ExceptionClass) : BitVec 6 :=
  match c with
  | .unknown => 0
  | .simdFpDisabled => 7
  | .illegalExecutionState => 14
  | .supervisorCall => 17
  | .instructionAbort => 32
  | .misalignedPC => 34
  | .dataAbort => 36
  | .floatingPoint => 40
  | .dataBreakpoint => 52
  | .swBreakpoint => 56

/-- Taking an exception (60_exceptions.md R290 to R292): ESR.EC is the class, ESR.IL is 1, ESR.ISS any value, the
monitor is cleared and the fault record set; every register, the flags, memory and the pc stay. There is no vector to
go to and no return from it (R293, R294): a state with its fault record set has no further step (Machine/Step.lean). -/
def State.raise (s : State) (c : ExceptionClass) (info : Word) : State :=
  { s with
    esr := esrOf (exceptionCode c) 1 (Config.freeIss s.draws)
    monitor := none
    fault := some ⟨c, s.pc, info⟩
    draws := s.draws + 1 }

/-! ### The shapes that the loads and stores share -/

/-- A load of `n` bytes at `ea` (42_core_load_store.md R180): Data Abort with no other effect, or `write` of the value
read, and then the pc moves on. -/
def loadAt (s : State) (exclusive : Bool) (ea : Word) (n : Nat) (write : Nat → State → State) :
    Host.Outcome State Fault Refusal :=
  if s.aborts exclusive ea n then .next (s.raise .dataAbort ea)
  else .next (write (s.memRead ea n) s).advance

/-- A store of the low `8 * n` bits of `v` at `ea` (R180): Data Abort with no other effect, or the refusal of a store
into the text (20_memory.md R66), or the write, and then the pc moves on. -/
def storeAt (s : State) (ea : Word) (n v : Nat) : Host.Outcome State Fault Refusal :=
  if s.aborts false ea n then .next (s.raise .dataAbort ea)
  else if s.touchesText ea.toNat n then .refused (.storeIntoText ea)
  else .next (s.memWrite ea n v).advance

/-- Whether the monitor holds a reservation for `ea` (R190, R191). -/
def State.reserved (s : State) (ea : Word) : Bool :=
  match s.monitor with
  | none => false
  | some a =>
    match s.params.monitorGranule with
    | .address => a == ea
    | .block k => a >>> k == ea >>> k

/-! ### Fetch -/

/-- Fetching at the pc (20_memory.md R64): Misaligned PC, then Instruction Abort for a word that is not all inside the
text, then the word, in the byte order of data (R56). The exception's info is the pc in both cases (60_exceptions.md R284, R285). -/
def State.fetch (s : State) : Except ExceptionClass IWord :=
  if s.pc.toNat % 4 ≠ 0 then .error .misalignedPC
  else if (List.range 4).all (fun k => s.text.contains (s.pc.toNat + k)) then
    .ok (BitVec.ofNat 32 (s.memRead s.pc 4))
  else .error .instructionAbort

/-- A program word placed at the pc, as a loader would: the pc made a multiple of 4, no fault and no end of run there,
and the four bytes admitted and part of the text where they are not yet. -/
def State.placeWord (s : State) (w : IWord) : State :=
  let pc := s.pc &&& ~~~(3 : Word)
  let a := pc.toNat
  { s with
    pc := pc
    fault := none
    haltPc := if s.haltPc = some pc then none else s.haltPc
    text := if (List.range 4).all (fun k => s.text.contains (a + k)) then s.text else ⟨a, 4⟩
    ranges := if s.admitted a 4 then s.ranges else ⟨a, 4⟩ :: s.ranges
    mem := Memory.writeIn s.params.endian s.mem a 4 w.toNat }

end Sys2Proof.Machine
end

