-- ==== Sys2Proof/Machine/ArithLogic.lean ====
section
/-! DEFINITION. The core arithmetic, logical, shift and move instructions, 40_core_arith_logic.md R120 to R143. None raises
an exception or touches memory (R120). -/

namespace Sys2Proof.Machine

/-- The next state of a logical operation that sets the flags (R123): the result in `rd`, the flags by `LOGICAL_FLAGS_CV`,
which may draw a free value. -/
def logicalSet (s : State) (rd : RegNum) (r : Word) : State :=
  (((s.writeX rd r).setFlags
    (logicalFlags r (s.params.logicalFlagsCV.value (Config.freeLogicalCV s.draws)))).drawIf
      s.params.logicalFlagsCV.isDrawn).advance

/-- ADD (R124). -/
def execAdd (rd rn rm : RegNum) (s : State) : Host.Outcome State Fault Refusal :=
  .next (s.writeX rd (s.readX rn + s.readX rm)).advance

/-- ADD Immediate (R125). -/
def execAddi (rd rn : RegNum) (imm : BitVec 12) (s : State) : Host.Outcome State Fault Refusal :=
  .next (s.writeX rd (s.readX rn + aluImm imm)).advance

/-- ADD Immediate & Set flags (R126). -/
def execAddis (rd rn : RegNum) (imm : BitVec 12) (s : State) : Host.Outcome State Fault Refusal :=
  .next ((s.writeX rd (s.readX rn + aluImm imm)).setFlags (addFlags (s.readX rn) (aluImm imm))).advance

/-- ADD & Set flags (R127). -/
def execAdds (rd rn rm : RegNum) (s : State) : Host.Outcome State Fault Refusal :=
  .next ((s.writeX rd (s.readX rn + s.readX rm)).setFlags (addFlags (s.readX rn) (s.readX rm))).advance

/-- AND (R128). -/
def execAnd (rd rn rm : RegNum) (s : State) : Host.Outcome State Fault Refusal :=
  .next (s.writeX rd (s.readX rn &&& s.readX rm)).advance

/-- AND Immediate (R129). -/
def execAndi (rd rn : RegNum) (imm : BitVec 12) (s : State) : Host.Outcome State Fault Refusal :=
  .next (s.writeX rd (s.readX rn &&& aluImm imm)).advance

/-- AND Immediate & Set flags (R130). -/
def execAndis (rd rn : RegNum) (imm : BitVec 12) (s : State) : Host.Outcome State Fault Refusal :=
  .next (logicalSet s rd (s.readX rn &&& aluImm imm))

/-- AND & Set flags (R131). -/
def execAnds (rd rn rm : RegNum) (s : State) : Host.Outcome State Fault Refusal :=
  .next (logicalSet s rd (s.readX rn &&& s.readX rm))

/-- Exclusive OR (R132). -/
def execEor (rd rn rm : RegNum) (s : State) : Host.Outcome State Fault Refusal :=
  .next (s.writeX rd (s.readX rn ^^^ s.readX rm)).advance

/-- Exclusive OR Immediate (R133). -/
def execEori (rd rn : RegNum) (imm : BitVec 12) (s : State) : Host.Outcome State Fault Refusal :=
  .next (s.writeX rd (s.readX rn ^^^ aluImm imm)).advance

/-- Logical Shift Left (R134): zeros enter at bit 0. -/
def execLsl (rd rn : RegNum) (shamt : BitVec 6) (s : State) : Host.Outcome State Fault Refusal :=
  .next (s.writeX rd (s.readX rn <<< shamt.toNat)).advance

/-- Logical Shift Right (R135): zeros enter at bit 63. -/
def execLsr (rd rn : RegNum) (shamt : BitVec 6) (s : State) : Host.Outcome State Fault Refusal :=
  .next (s.writeX rd (s.readX rn >>> shamt.toNat)).advance

/-- `v` with the 16 bits from bit `k` replaced by `imm` (R136). -/
def replace16 (v : Word) (k : Nat) (imm : BitVec 16) : Word :=
  (v &&& ~~~(movImm (-1) <<< k)) ||| (movImm imm <<< k)

/-- MOVe wide with Keep (R136): the other 48 bits of `rd` keep their value. -/
def execMovk (rd : RegNum) (hw : BitVec 2) (imm : BitVec 16) (s : State) : Host.Outcome State Fault Refusal :=
  .next (s.writeX rd (replace16 (s.readX rd) (movShift hw) imm)).advance

/-- MOVe wide with Zero (R137). -/
def execMovz (rd : RegNum) (hw : BitVec 2) (imm : BitVec 16) (s : State) : Host.Outcome State Fault Refusal :=
  .next (s.writeX rd (movImm imm <<< movShift hw)).advance

/-- Inclusive OR (R138). -/
def execOrr (rd rn rm : RegNum) (s : State) : Host.Outcome State Fault Refusal :=
  .next (s.writeX rd (s.readX rn ||| s.readX rm)).advance

/-- Inclusive OR Immediate (R139). -/
def execOrri (rd rn : RegNum) (imm : BitVec 12) (s : State) : Host.Outcome State Fault Refusal :=
  .next (s.writeX rd (s.readX rn ||| aluImm imm)).advance

/-- SUBtract (R140). -/
def execSub (rd rn rm : RegNum) (s : State) : Host.Outcome State Fault Refusal :=
  .next (s.writeX rd (s.readX rn - s.readX rm)).advance

/-- SUBtract Immediate (R141). -/
def execSubi (rd rn : RegNum) (imm : BitVec 12) (s : State) : Host.Outcome State Fault Refusal :=
  .next (s.writeX rd (s.readX rn - aluImm imm)).advance

/-- SUBtract Immediate & Set flags (R142). -/
def execSubis (rd rn : RegNum) (imm : BitVec 12) (s : State) : Host.Outcome State Fault Refusal :=
  .next ((s.writeX rd (s.readX rn - aluImm imm)).setFlags (subFlags (s.readX rn) (aluImm imm))).advance

/-- SUBtract & Set flags (R143). -/
def execSubs (rd rn rm : RegNum) (s : State) : Host.Outcome State Fault Refusal :=
  .next ((s.writeX rd (s.readX rn - s.readX rm)).setFlags (subFlags (s.readX rn) (s.readX rm))).advance

end Sys2Proof.Machine
end

