-- ==== Sys2Proof/Machine/Branch.lean ====
section
/-! DEFINITION. The control-transfer instructions, 41_core_branch.md R160 to R167. `s.pc` is the branch's own address
(10_state.md R27); a misaligned target is met by the next fetch (R160). -/

namespace Sys2Proof.Machine

/-- Branch (R162). -/
def execB (addr : BitVec 26) (s : State) : Host.Outcome State Fault Refusal :=
  .next (s.setPc (s.pc + branchAddr addr))

/-- Branch conditionally (R165): taken where the flags satisfy the condition (R161). -/
def execBCond (cond : BitVec 4) (addr : BitVec 19) (s : State) : Host.Outcome State Fault Refusal :=
  .next (if branchHolds s.params.condTable cond s.flags then s.setPc (s.pc + condBranchAddr addr) else s.advance)

/-- Branch with Link (R163): X30 is the address of the next instruction. -/
def execBl (addr : BitVec 26) (s : State) : Host.Outcome State Fault Refusal :=
  .next ((s.writeX RegNum.lr (s.pc + 4)).setPc (s.pc + branchAddr addr))

/-- Branch to Register (R164): the whole register is the target, nothing is masked. -/
def execBr (rt : RegNum) (s : State) : Host.Outcome State Fault Refusal :=
  .next (s.setPc (s.readX rt))

/-- Compare & Branch if Not Zero (R166). -/
def execCbnz (rt : RegNum) (addr : BitVec 19) (s : State) : Host.Outcome State Fault Refusal :=
  .next (if s.readX rt ≠ 0 then s.setPc (s.pc + condBranchAddr addr) else s.advance)

/-- Compare & Branch if Zero (R167). -/
def execCbz (rt : RegNum) (addr : BitVec 19) (s : State) : Host.Outcome State Fault Refusal :=
  .next (if s.readX rt = 0 then s.setPc (s.pc + condBranchAddr addr) else s.advance)

end Sys2Proof.Machine
end

