-- ==== Sys2Proof/Machine/Float.lean ====
section
/-! DEFINITION. The IEEE 754 formats and symbols of 44_arith_float.md R230 to R233, the numerics record `FP` of R235 and
its default instance: the exact result rounded to nearest, ties to even, denormals kept, no traps. A pattern is a natural
number, and a magnitude counts units of the smallest denormal of the format, so every sum, product and quotient of
magnitudes is an exact fraction of natural numbers. -/

namespace Sys2Proof.Machine

/-- A floating-point format (R231, R232): the widths of its exponent and fraction fields. -/
structure FpFormat where
  /-- Width of the exponent field. -/
  expBits : Nat
  /-- Width of the fraction field. -/
  fracBits : Nat
deriving DecidableEq, Repr

/-- Single precision: sign 1, exponent 8, fraction 23 (R231). -/
def FpFormat.single : FpFormat := ⟨8, 23⟩
/-- Double precision: sign 1, exponent 11, fraction 52 (R232). -/
def FpFormat.double : FpFormat := ⟨11, 52⟩

/-- MAX, the all-ones exponent: 255 or 2047 (R231, R232). -/
def FpFormat.maxExp (f : FpFormat) : Nat := 2 ^ f.expBits - 1
/-- The bias: 127 or 1023 (R230). -/
def FpFormat.bias (f : FpFormat) : Nat := 2 ^ (f.expBits - 1) - 1
/-- How many of the smallest denormals make 1: the smallest denormal is `2 ^ (1 - bias - fracBits)` (R233). -/
def FpFormat.unitsPerOne (f : FpFormat) : Nat := 2 ^ (f.bias + f.fracBits - 1)

/-- The fraction field of a pattern. -/
def fpFraction (f : FpFormat) (x : Nat) : Nat := x % 2 ^ f.fracBits
/-- The exponent field of a pattern. -/
def fpExponent (f : FpFormat) (x : Nat) : Nat := x / 2 ^ f.fracBits % 2 ^ f.expBits
/-- The sign of a pattern: true is minus. -/
def fpSign (f : FpFormat) (x : Nat) : Bool := x / 2 ^ (f.fracBits + f.expBits) % 2 == 1

/-- The objects of the IEEE 754 Symbols table (R233). -/
inductive FpObject where
  | zero | denorm | number | infinity | nan
deriving DecidableEq, Repr

/-- What a pattern stands for (R233). -/
def fpObject (f : FpFormat) (x : Nat) : FpObject :=
  if fpExponent f x = 0 then (if fpFraction f x = 0 then .zero else .denorm)
  else if fpExponent f x = f.maxExp then (if fpFraction f x = 0 then .infinity else .nan)
  else .number

/-- Whether a pattern is a NaN (R233). -/
def fpIsNaN (f : FpFormat) (x : Nat) : Bool := fpObject f x == .nan
/-- Whether a pattern is an infinity (R233). -/
def fpIsInf (f : FpFormat) (x : Nat) : Bool := fpObject f x == .infinity

/-- The magnitude of a pattern in units of the smallest denormal: `(1 + Fraction) * 2 ^ (Exponent - Bias)` for a number
(R230), `(0 + Fraction) * 2 ^ (1 - Bias)` for a denormal (R233). For an infinity it is more than every finite one. -/
def fpMagnitude (f : FpFormat) (x : Nat) : Nat :=
  if fpExponent f x = 0 then fpFraction f x
  else (2 ^ f.fracBits + fpFraction f x) * 2 ^ (fpExponent f x - 1)

/-- The signed value of a pattern in the same units. -/
def fpValue (f : FpFormat) (x : Nat) : Int :=
  if fpSign f x then -(fpMagnitude f x : Int) else fpMagnitude f x

/-- The pattern of a sign and the bits below it. -/
def fpWithSign (f : FpFormat) (sign : Bool) (low : Nat) : Nat :=
  (if sign then 2 ^ (f.fracBits + f.expBits) else 0) + low

/-- The zero of a sign. -/
def fpZero (f : FpFormat) (sign : Bool) : Nat := fpWithSign f sign 0
/-- The infinity of a sign. -/
def fpInf (f : FpFormat) (sign : Bool) : Nat := fpWithSign f sign (f.maxExp * 2 ^ f.fracBits)

/-- `num / den` rounded to the nearest natural number, ties to even. -/
def roundNearestEven (num den : Nat) : Nat :=
  let q := num / den
  let r := num % den
  if 2 * r > den ∨ (2 * r = den ∧ q % 2 = 1) then q + 1 else q

/-- How many binary places the significand of a magnitude `num / den` stands above the units, so that it has
`fracBits + 1` bits: 0 for a denormal. -/
def fpScale (f : FpFormat) (num den : Nat) : Nat := Nat.log2 (num / den) - f.fracBits

/-- The pattern below the sign of the magnitude `num / den` units, rounded to nearest, ties to even (R235). The
exponent and fraction fields are one number, so a significand that rounds up to the next power of two carries into the
exponent; a magnitude that reaches the exponent MAX is an infinity (R235: overflow gives an infinity). -/
def fpRound (f : FpFormat) (num den : Nat) : Nat :=
  let k := fpScale f num den
  min (k * 2 ^ f.fracBits + roundNearestEven num (den * 2 ^ k)) (f.maxExp * 2 ^ f.fracBits)

/-- Addition of patterns (R235); none is a NaN result. Any NaN operand and `∞ - ∞` give a NaN; an exact zero sum is
`+0` unless both operands are negative. -/
def fpAdd (f : FpFormat) (x y : Nat) : Option Nat :=
  if fpIsNaN f x || fpIsNaN f y then none
  else if fpIsInf f x then
    if fpIsInf f y && fpSign f x != fpSign f y then none else some (fpInf f (fpSign f x))
  else if fpIsInf f y then some (fpInf f (fpSign f y))
  else
    let v := fpValue f x + fpValue f y
    if v = 0 then some (fpZero f (fpSign f x && fpSign f y))
    else some (fpWithSign f (decide (v < 0)) (fpRound f v.natAbs 1))

/-- The pattern with its sign flipped. -/
def fpNegate (f : FpFormat) (x : Nat) : Nat :=
  fpWithSign f (!fpSign f x) (x % 2 ^ (f.fracBits + f.expBits))

/-- Subtraction of patterns (R235): addition of the negation. -/
def fpSub (f : FpFormat) (x y : Nat) : Option Nat := fpAdd f x (fpNegate f y)

/-- Multiplication of patterns (R235); none is a NaN result. Any NaN operand and `0 * ∞` give a NaN. -/
def fpMul (f : FpFormat) (x y : Nat) : Option Nat :=
  let sign := fpSign f x != fpSign f y
  if fpIsNaN f x || fpIsNaN f y then none
  else if fpIsInf f x || fpIsInf f y then
    if fpMagnitude f x = 0 ∨ fpMagnitude f y = 0 then none else some (fpInf f sign)
  else some (fpWithSign f sign (fpRound f (fpMagnitude f x * fpMagnitude f y) f.unitsPerOne))

/-- Division of patterns (R235); none is a NaN result. Any NaN operand, `0 / 0` and `∞ / ∞` give a NaN; a finite
non-zero number divided by zero gives an infinity. -/
def fpDiv (f : FpFormat) (x y : Nat) : Option Nat :=
  let sign := fpSign f x != fpSign f y
  if fpIsNaN f x || fpIsNaN f y then none
  else if fpIsInf f x then
    if fpIsInf f y then none else some (fpInf f sign)
  else if fpIsInf f y then some (fpZero f sign)
  else if fpMagnitude f y = 0 then
    if fpMagnitude f x = 0 then none else some (fpInf f sign)
  else some (fpWithSign f sign (fpRound f (fpMagnitude f x * f.unitsPerOne) (fpMagnitude f y)))

/-- One operation of the record `FP` on patterns (R235). -/
def fpOperate (f : FpFormat) (op : FpOp) (x y : Nat) : Option Nat :=
  match op with
  | .add => fpAdd f x y
  | .sub => fpSub f x y
  | .mul => fpMul f x y
  | .div => fpDiv f x y

/-- A NaN pattern with the sign and fraction drawn: Exponent MAX, Fraction not 0 (R233, R235). Every NaN pattern is the
pattern of some draw. -/
def fpNaN (f : FpFormat) (draw : Bool × Nat) : Nat :=
  fpWithSign f draw.1 (f.maxExp * 2 ^ f.fracBits + (draw.2 % (2 ^ f.fracBits - 1) + 1))

/-- `add32`, `sub32`, `mul32`, `div32` of the default instance of `FP` (R235). -/
def fp32 (op : FpOp) (a b : BitVec 32) : BitVec 32 :=
  BitVec.ofNat 32 ((fpOperate .single op a.toNat b.toNat).getD (fpNaN .single (Config.freeNaN32 op a b)))

/-- `add64`, `sub64`, `mul64`, `div64` of the default instance of `FP` (R235). -/
def fp64 (op : FpOp) (a b : BitVec 64) : BitVec 64 :=
  BitVec.ofNat 64 ((fpOperate .double op a.toNat b.toNat).getD (fpNaN .double (Config.freeNaN64 op a b)))

/-- The result of the first case that matches the operation and its operands, else `default`. -/
def fpListed {w : Nat} (cases : List (FpCase w)) (op : FpOp) (a b default : BitVec w) : BitVec w :=
  match cases with
  | [] => default
  | c :: t => if c.op = op ∧ c.a = a ∧ c.b = b then c.result else fpListed t op a b default

/-- `FP.add32`, `FP.sub32`, `FP.mul32`, `FP.div32` of the machine's numerics record (R235). -/
def numerics32 (fp : FpSetting) (op : FpOp) (a b : BitVec 32) : BitVec 32 := fpListed fp.single op a b (fp32 op a b)

/-- `FP.add64`, `FP.sub64`, `FP.mul64`, `FP.div64` of the machine's numerics record (R235). -/
def numerics64 (fp : FpSetting) (op : FpOp) (a b : BitVec 64) : BitVec 64 := fpListed fp.double op a b (fp64 op a b)

/-- The comparison of two patterns by their IEEE values (R238): a NaN is unordered, `+0` equals `-0`, infinities are
ordered. -/
def fpCompare (f : FpFormat) (x y : Nat) : FpRelation :=
  if fpIsNaN f x || fpIsNaN f y then .unordered
  else if fpValue f x < fpValue f y then .less
  else if fpValue f y < fpValue f x then .greater
  else .equal

end Sys2Proof.Machine
end

