-- ==== Sys2Proof/Machine/FloatingPoint.lean ====
section
/-! DEFINITION. The floating-point instructions, 44_arith_float.md R235 to R253. No integer register is written and none
traps (R236, R237); the loads and stores move bits unchanged (R249). -/

namespace Sys2Proof.Machine

/-- The flags of a comparison (R238), with the literal for the unordered case as `FCMP_UNORDERED_FLAGS` says. -/
def compareFlags (s : State) (r : FpRelation) : Flags :=
  flagsOfLiteral s.params.flagsLiteralOrder
    (compareLiteral r (s.params.fcmpUnorderedFlags.value (Config.freeUnorderedFlags s.draws)))

/-- The next state of a compare (R238): the four flags and nothing else; an unordered one may draw a free value. -/
def compareSet (s : State) (r : FpRelation) : State :=
  ((s.setFlags (compareFlags s r)).drawIf (r == .unordered && s.params.fcmpUnorderedFlags.isDrawn)).advance

/-- Floating-point ADD Single (R239). -/
def execFadds (rd rn rm : RegNum) (s : State) : Host.Outcome State Fault Refusal :=
  .next (s.writeS rd (numerics32 s.params.fp .add (s.readS rn) (s.readS rm))).advance

/-- Floating-point ADD Double (R240). -/
def execFaddd (rd rn rm : RegNum) (s : State) : Host.Outcome State Fault Refusal :=
  .next (s.writeD rd (numerics64 s.params.fp .add (s.readD rn) (s.readD rm))).advance

/-- Floating-point SUBtract Single (R247). -/
def execFsubs (rd rn rm : RegNum) (s : State) : Host.Outcome State Fault Refusal :=
  .next (s.writeS rd (numerics32 s.params.fp .sub (s.readS rn) (s.readS rm))).advance

/-- Floating-point SUBtract Double (R248). -/
def execFsubd (rd rn rm : RegNum) (s : State) : Host.Outcome State Fault Refusal :=
  .next (s.writeD rd (numerics64 s.params.fp .sub (s.readD rn) (s.readD rm))).advance

/-- Floating-point MULtiply Single (R245). -/
def execFmuls (rd rn rm : RegNum) (s : State) : Host.Outcome State Fault Refusal :=
  .next (s.writeS rd (numerics32 s.params.fp .mul (s.readS rn) (s.readS rm))).advance

/-- Floating-point MULtiply Double (R246). -/
def execFmuld (rd rn rm : RegNum) (s : State) : Host.Outcome State Fault Refusal :=
  .next (s.writeD rd (numerics64 s.params.fp .mul (s.readD rn) (s.readD rm))).advance

/-- Floating-point DIVide Single (R243). -/
def execFdivs (rd rn rm : RegNum) (s : State) : Host.Outcome State Fault Refusal :=
  .next (s.writeS rd (numerics32 s.params.fp .div (s.readS rn) (s.readS rm))).advance

/-- Floating-point DIVide Double (R244). -/
def execFdivd (rd rn rm : RegNum) (s : State) : Host.Outcome State Fault Refusal :=
  .next (s.writeD rd (numerics64 s.params.fp .div (s.readD rn) (s.readD rm))).advance

/-- Floating-point CoMPare Single (R241). -/
def execFcmps (rn rm : RegNum) (s : State) : Host.Outcome State Fault Refusal :=
  .next (compareSet s (fpCompare .single (s.readS rn).toNat (s.readS rm).toNat))

/-- Floating-point CoMPare Double (R242). -/
def execFcmpd (rn rm : RegNum) (s : State) : Host.Outcome State Fault Refusal :=
  .next (compareSet s (fpCompare .double (s.readD rn).toNat (s.readD rm).toNat))

/-- LoaD Single floating-point (R250). -/
def execLdurs (rt rn : RegNum) (dt : BitVec 9) (s : State) : Host.Outcome State Fault Refusal :=
  loadAt s false (s.effAddr rn dt) 4 (fun v t => t.writeS rt (BitVec.ofNat 32 v))

/-- LoaD Double floating-point (R251). -/
def execLdurd (rt rn : RegNum) (dt : BitVec 9) (s : State) : Host.Outcome State Fault Refusal :=
  loadAt s false (s.effAddr rn dt) 8 (fun v t => t.writeD rt (BitVec.ofNat 64 v))

/-- STore Single floating-point (R252). -/
def execSturs (rt rn : RegNum) (dt : BitVec 9) (s : State) : Host.Outcome State Fault Refusal :=
  storeAt s (s.effAddr rn dt) 4 (s.readS rt).toNat

/-- STore Double floating-point (R253). -/
def execSturd (rt rn : RegNum) (dt : BitVec 9) (s : State) : Host.Outcome State Fault Refusal :=
  storeAt s (s.effAddr rn dt) 8 (s.readD rt).toNat

end Sys2Proof.Machine
end

