-- ==== Sys2Proof/Machine/LoadStore.lean ====
section
/-! DEFINITION. The core loads and stores, 42_core_load_store.md R180 to R191. Sources are read before anything is written. -/

namespace Sys2Proof.Machine

/-- LoaD Register Unscaled offset (R181). -/
def execLdur (rt rn : RegNum) (dt : BitVec 9) (s : State) : Host.Outcome State Fault Refusal :=
  loadAt s false (s.effAddr rn dt) 8 (fun v t => t.writeX rt (BitVec.ofNat 64 v))

/-- LoaD Byte Unscaled offset (R182), zero-extended. -/
def execLdurb (rt rn : RegNum) (dt : BitVec 9) (s : State) : Host.Outcome State Fault Refusal :=
  loadAt s false (s.effAddr rn dt) 1 (fun v t => t.writeX rt (BitVec.ofNat 64 v))

/-- LoaD Half Unscaled offset (R183), zero-extended. -/
def execLdurh (rt rn : RegNum) (dt : BitVec 9) (s : State) : Host.Outcome State Fault Refusal :=
  loadAt s false (s.effAddr rn dt) 2 (fun v t => t.writeX rt (BitVec.ofNat 64 v))

/-- LoaD Signed Word Unscaled offset (R184), sign-extended. -/
def execLdursw (rt rn : RegNum) (dt : BitVec 9) (s : State) : Host.Outcome State Fault Refusal :=
  loadAt s false (s.effAddr rn dt) 4 (fun v t => t.writeX rt ((BitVec.ofNat 32 v).signExtend 64))

/-- LoaD eXclusive Register (R185): LDUR that also arms the monitor, aligned under either setting. -/
def execLdxr (rt rn : RegNum) (dt : BitVec 9) (s : State) : Host.Outcome State Fault Refusal :=
  loadAt s true (s.effAddr rn dt) 8
    (fun v t => (t.writeX rt (BitVec.ofNat 64 v)).setMonitor (some (s.effAddr rn dt)))

/-- STore Register Unscaled offset (R186). -/
def execStur (rt rn : RegNum) (dt : BitVec 9) (s : State) : Host.Outcome State Fault Refusal :=
  storeAt s (s.effAddr rn dt) 8 (s.readX rt).toNat

/-- STore Byte Unscaled offset (R187): bits 7:0 of the register. -/
def execSturb (rt rn : RegNum) (dt : BitVec 9) (s : State) : Host.Outcome State Fault Refusal :=
  storeAt s (s.effAddr rn dt) 1 (s.readX rt).toNat

/-- STore Half Unscaled offset (R188): bits 15:0 of the register. -/
def execSturh (rt rn : RegNum) (dt : BitVec 9) (s : State) : Host.Outcome State Fault Refusal :=
  storeAt s (s.effAddr rn dt) 2 (s.readX rt).toNat

/-- STore Word Unscaled offset (R189): bits 31:0 of the register. -/
def execSturw (rt rn : RegNum) (dt : BitVec 9) (s : State) : Host.Outcome State Fault Refusal :=
  storeAt s (s.effAddr rn dt) 4 (s.readX rt).toNat

/-- STXR's address (R190). -/
def stxrAddr (s : State) (rn : RegNum) (dt : BitVec 9) : Word := s.readX rn + stxrOffset s.params dt

/-- Whether an STXR at `ea` performs its store (R190): the monitor holds a reservation for `ea` and the draw is
success. -/
def stxrSucceeds (s : State) (ea : Word) : Bool := s.reserved ea && Config.drawSuccess s.draws

/-- The state after an STXR has ended with a status (R190, R191): one draw made, the monitor none, the status in the
status register, the pc moved on. -/
def stxrEnd (s : State) (dt : BitVec 9) (status : Word) : State :=
  (((s.drawIf true).setMonitor none).writeX (stxrStatusReg dt) status).advance

/-- STore eXclusive Register (R190). A word that `STXR_OFFSET` does not admit is refused. The address is checked whether or
not the store is performed; the store is performed only with status 0 (90_conflicts.md C28). -/
def execStxr (rt rn : RegNum) (dt : BitVec 9) (s : State) : Host.Outcome State Fault Refusal :=
  if stxrAdmitted s.params dt = false then .refused (.stxrNotAdmitted dt)
  else if s.aborts true (stxrAddr s rn dt) 8 then .next (s.raise .dataAbort (stxrAddr s rn dt))
  else if stxrSucceeds s (stxrAddr s rn dt) = false then .next (stxrEnd s dt 1)
  else if s.touchesText (stxrAddr s rn dt).toNat 8 then .refused (.storeIntoText (stxrAddr s rn dt))
  else .next (stxrEnd (s.memWrite (stxrAddr s rn dt) 8 (s.readX rt).toNat) dt 0)

end Sys2Proof.Machine
end

