-- ==== Sys2Proof/Machine/MulDiv.lean ====
section
/-! DEFINITION. Integer multiply and divide, 43_arith_mul_div.md R210 to R216. None touches the flags or memory or raises an
exception (R210). -/

namespace Sys2Proof.Machine

/-- The quotient of a zero divisor (R216 b): what `DIV_ZERO` says. `signed` tells SDIV from UDIV. -/
def zeroQuotient (s : State) (signed : Bool) (a : Word) : Word :=
  s.params.divZero.value (Config.freeQuotient signed a)

/-- SDIV's result (R212, R216): the quotient of the two's-complement integers truncated toward zero, modulo 2^64. -/
def signedQuotient (s : State) (a b : Word) : Word :=
  if b = 0 then zeroQuotient s true a else BitVec.ofInt 64 (a.toInt.tdiv b.toInt)

/-- UDIV's result (R214, R216): the quotient of the unsigned integers rounded down. -/
def unsignedQuotient (s : State) (a b : Word) : Word :=
  if b = 0 then zeroQuotient s false a else BitVec.ofNat 64 (a.toNat / b.toNat)

/-- MULtiply (R211): bits 63:0 of the product. -/
def execMul (rd rn rm : RegNum) (s : State) : Host.Outcome State Fault Refusal :=
  .next (s.writeX rd (BitVec.ofNat 64 ((s.readX rn).toNat * (s.readX rm).toNat))).advance

/-- Signed DIVide (R212). -/
def execSdiv (rd rn rm : RegNum) (s : State) : Host.Outcome State Fault Refusal :=
  .next (s.writeX rd (signedQuotient s (s.readX rn) (s.readX rm))).advance

/-- Signed MULtiply High (R213): bits 127:64 of the signed product. -/
def execSmulh (rd rn rm : RegNum) (s : State) : Host.Outcome State Fault Refusal :=
  .next (s.writeX rd (BitVec.ofInt 64 ((s.readX rn).toInt * (s.readX rm).toInt / 2 ^ 64))).advance

/-- Unsigned DIVide (R214). -/
def execUdiv (rd rn rm : RegNum) (s : State) : Host.Outcome State Fault Refusal :=
  .next (s.writeX rd (unsignedQuotient s (s.readX rn) (s.readX rm))).advance

/-- Unsigned MULtiply High (R215): bits 127:64 of the unsigned product. -/
def execUmulh (rd rn rm : RegNum) (s : State) : Host.Outcome State Fault Refusal :=
  .next (s.writeX rd (BitVec.ofNat 64 ((s.readX rn).toNat * (s.readX rm).toNat / 2 ^ 64))).advance

end Sys2Proof.Machine
end

