-- ==== Sys2Proof/Machine/Dispatch.lean ====
section
/-! DEFINITION. One arm per instruction, each one call of its meaning. -/

namespace Sys2Proof.Machine

def exec (i : Instr) (s : State) : Host.Outcome State Fault Refusal :=
  match i with
  | .add rd rn rm => Sys2Proof.Machine.execAdd rd rn rm s
  | .addi rd rn imm => Sys2Proof.Machine.execAddi rd rn imm s
  | .addis rd rn imm => Sys2Proof.Machine.execAddis rd rn imm s
  | .adds rd rn rm => Sys2Proof.Machine.execAdds rd rn rm s
  | .and rd rn rm => Sys2Proof.Machine.execAnd rd rn rm s
  | .andi rd rn imm => Sys2Proof.Machine.execAndi rd rn imm s
  | .andis rd rn imm => Sys2Proof.Machine.execAndis rd rn imm s
  | .ands rd rn rm => Sys2Proof.Machine.execAnds rd rn rm s
  | .eor rd rn rm => Sys2Proof.Machine.execEor rd rn rm s
  | .eori rd rn imm => Sys2Proof.Machine.execEori rd rn imm s
  | .lsl rd rn shamt => Sys2Proof.Machine.execLsl rd rn shamt s
  | .lsr rd rn shamt => Sys2Proof.Machine.execLsr rd rn shamt s
  | .movk rd hw imm => Sys2Proof.Machine.execMovk rd hw imm s
  | .movz rd hw imm => Sys2Proof.Machine.execMovz rd hw imm s
  | .orr rd rn rm => Sys2Proof.Machine.execOrr rd rn rm s
  | .orri rd rn imm => Sys2Proof.Machine.execOrri rd rn imm s
  | .sub rd rn rm => Sys2Proof.Machine.execSub rd rn rm s
  | .subi rd rn imm => Sys2Proof.Machine.execSubi rd rn imm s
  | .subis rd rn imm => Sys2Proof.Machine.execSubis rd rn imm s
  | .subs rd rn rm => Sys2Proof.Machine.execSubs rd rn rm s
  | .b addr => Sys2Proof.Machine.execB addr s
  | .bCond cond addr => Sys2Proof.Machine.execBCond cond addr s
  | .bl addr => Sys2Proof.Machine.execBl addr s
  | .br rt => Sys2Proof.Machine.execBr rt s
  | .cbnz rt addr => Sys2Proof.Machine.execCbnz rt addr s
  | .cbz rt addr => Sys2Proof.Machine.execCbz rt addr s
  | .ldur rt rn dt => Sys2Proof.Machine.execLdur rt rn dt s
  | .ldurb rt rn dt => Sys2Proof.Machine.execLdurb rt rn dt s
  | .ldurh rt rn dt => Sys2Proof.Machine.execLdurh rt rn dt s
  | .ldursw rt rn dt => Sys2Proof.Machine.execLdursw rt rn dt s
  | .ldxr rt rn dt => Sys2Proof.Machine.execLdxr rt rn dt s
  | .stur rt rn dt => Sys2Proof.Machine.execStur rt rn dt s
  | .sturb rt rn dt => Sys2Proof.Machine.execSturb rt rn dt s
  | .sturh rt rn dt => Sys2Proof.Machine.execSturh rt rn dt s
  | .sturw rt rn dt => Sys2Proof.Machine.execSturw rt rn dt s
  | .stxr rt rn dt => Sys2Proof.Machine.execStxr rt rn dt s
  | .mul rd rn rm => Sys2Proof.Machine.execMul rd rn rm s
  | .sdiv rd rn rm => Sys2Proof.Machine.execSdiv rd rn rm s
  | .smulh rd rn rm => Sys2Proof.Machine.execSmulh rd rn rm s
  | .udiv rd rn rm => Sys2Proof.Machine.execUdiv rd rn rm s
  | .umulh rd rn rm => Sys2Proof.Machine.execUmulh rd rn rm s
  | .fadds rd rn rm => Sys2Proof.Machine.execFadds rd rn rm s
  | .faddd rd rn rm => Sys2Proof.Machine.execFaddd rd rn rm s
  | .fcmps rn rm => Sys2Proof.Machine.execFcmps rn rm s
  | .fcmpd rn rm => Sys2Proof.Machine.execFcmpd rn rm s
  | .fdivs rd rn rm => Sys2Proof.Machine.execFdivs rd rn rm s
  | .fdivd rd rn rm => Sys2Proof.Machine.execFdivd rd rn rm s
  | .fmuls rd rn rm => Sys2Proof.Machine.execFmuls rd rn rm s
  | .fmuld rd rn rm => Sys2Proof.Machine.execFmuld rd rn rm s
  | .fsubs rd rn rm => Sys2Proof.Machine.execFsubs rd rn rm s
  | .fsubd rd rn rm => Sys2Proof.Machine.execFsubd rd rn rm s
  | .ldurs rt rn dt => Sys2Proof.Machine.execLdurs rt rn dt s
  | .ldurd rt rn dt => Sys2Proof.Machine.execLdurd rt rn dt s
  | .sturs rt rn dt => Sys2Proof.Machine.execSturs rt rn dt s
  | .sturd rt rn dt => Sys2Proof.Machine.execSturd rt rn dt s

end Sys2Proof.Machine
end

