-- ==== Sys2Proof/Machine/Step.lean ====
section
/-! DEFINITION. One step of the machine (00_scope.md R5). -/

namespace Sys2Proof.Machine

/-- One step (R5): none after an exception (60_exceptions.md R290) or at HALT_PC (70_reset_and_hazards.md R314); else
fetch, decode and execute, each raising its exception (R289). An unallocated word raises class 0 with the word as its
info (R104, R283). -/
def step (s : State) : Host.Outcome State Fault Refusal :=
  match s.fault with
  | some r => .fault (.exceptionTaken r)
  | none =>
    if s.haltPc = some s.pc then .refused .runEnded
    else
      match s.fetch with
      | .error c => .next (s.raise c s.pc)
      | .ok w =>
        match decodeWord s.params w with
        | .error _ => .next (s.raise .unknown (w.setWidth 64))
        | .ok i => exec i s

/-- `s` with the word `w` (numbered as the opcode table numbers its bits) where the next step fetches: at the pc, in the
program text, with nothing that keeps the step from being made (log 3). -/
def State.withFetchWord (s : State) (nbits w : Nat) : State :=
  s.placeWord (BitVec.ofNat 32 (w % 2 ^ nbits))

end Sys2Proof.Machine
end

