-- ==== Sys2Proof/Machine/Pseudo.lean ====
section
/-! DEFINITION. The four pseudoinstructions as the instructions an assembler writes for them: 45_pseudoinstructions.md
R270 to R273, 92_eei_decisions.md D17. They have no encoding of their own. -/

namespace Sys2Proof.Machine

/-- CMP Xn, Xm (R270): SUBS with destination XZR. -/
def pseudoCmp (rn rm : RegNum) : Instr := .subs RegNum.xzr rn rm

/-- CMPI Xn, #imm (R271): SUBIS with destination XZR. -/
def pseudoCmpi (rn : RegNum) (imm : BitVec 12) : Instr := .subis RegNum.xzr rn imm

/-- LDA Xd, [Xn, #k] (R272): ADDI for an offset of 0 or more, SUBI of its negation for a negative one. -/
def pseudoLda (rd rn : RegNum) (k : BitVec 9) : Instr :=
  if k.msb then .subi rd rn ((-k).setWidth 12) else .addi rd rn (k.setWidth 12)

/-- MOV Xd, Xn (R273): ADD of XZR. -/
def pseudoMov (rd rn : RegNum) : Instr := .add rd rn RegNum.xzr

/-- The word without effect of 30_encoding.md R105: ADD XZR, XZR, XZR. -/
def doNothing : Instr := .add RegNum.xzr RegNum.xzr RegNum.xzr

end Sys2Proof.Machine
end

