-- ==== Sys2Proof/Machine/Launch.lean ====
section
/-! DEFINITION. The launch record and the state a run starts from: 00_scope.md R4, 20_memory.md R51,
70_reset_and_hazards.md R310 to R313. -/

namespace Sys2Proof.Machine

/-- An admitted range of memory with its initial contents (R51): the bytes from `base` upwards. -/
structure LaunchRange where
  /-- The lowest address. -/
  base : Nat
  /-- The initial bytes, which also say how long the range is. -/
  bytes : List Byte
deriving DecidableEq, Repr

/-- The launch record `LAUNCH` (R4), with the machine's parameters (R3). -/
structure Launch where
  /-- The first pc (R311). -/
  entry : Word
  /-- Initial integer registers, a partial map. -/
  regs : List (RegNum × Word)
  /-- Initial floating-point registers, a partial map. -/
  fregs : List (RegNum × Word)
  /-- Initial flags, or absent. -/
  flags : Option Flags
  /-- The admitted memory with its contents. -/
  mem : List LaunchRange
  /-- The program text. -/
  text : MemRange
  /-- The address at which the run ends (R314). -/
  haltPc : Word
  /-- The parameters of R3. -/
  params : Params
deriving DecidableEq, Repr

/-- The range of addresses of a launch range. -/
def launchRange (r : LaunchRange) : MemRange := ⟨r.base, r.bytes.length⟩

/-- Whether two ranges have no byte in common. -/
def MemRange.disjoint (a b : MemRange) : Bool :=
  decide (a.size = 0 ∨ b.size = 0 ∨ a.base + a.size ≤ b.base ∨ b.base + b.size ≤ a.base)

/-- Whether a list of ranges is pairwise disjoint. -/
def rangesDisjoint (rs : List MemRange) : Bool :=
  match rs with
  | [] => true
  | r :: t => t.all (fun q => r.disjoint q) && rangesDisjoint t

/-- A well-formed launch record (R313): the ranges disjoint and none past address 2^64 - 1; the text contained in them,
its start and length multiples of 4; entry and halt_pc multiples of 4. -/
def launchWellFormed (l : Launch) : Bool :=
  rangesDisjoint (l.mem.map launchRange) &&
  l.mem.all (fun r => decide (r.base + r.bytes.length ≤ 2 ^ 64)) &&
  (List.range l.text.size).all (fun k => l.mem.any (fun r => (launchRange r).contains (l.text.base + k))) &&
  decide (l.text.base % 4 = 0) && decide (l.text.size % 4 = 0) &&
  decide (l.entry.toNat % 4 = 0) && decide (l.haltPc.toNat % 4 = 0)

/-- A partial map read at a register number, with a value for where it is undefined. -/
def lookupReg (m : List (RegNum × Word)) (r : RegNum) (undefined : Word) : Word :=
  match m.find? (fun e => e.1 == r) with
  | some e => e.2
  | none => undefined

/-- Memory with a list of bytes written from an address upwards. -/
def Memory.writeBytes (m : Memory) (a : Nat) (bs : List Byte) : Memory :=
  match bs with
  | [] => m
  | b :: t => Memory.writeBytes (Memory.write m a b) (a + 1) t

/-- Memory with the contents of the launch ranges. -/
def launchMemory (rs : List LaunchRange) : Memory :=
  rs.foldl (fun m r => Memory.writeBytes m r.base r.bytes) []

/-- Four flags from four bits, N first. -/
def flagsOfBits (b : BitVec 4) : Flags := ⟨b.getLsbD 3, b.getLsbD 2, b.getLsbD 1, b.getLsbD 0⟩

/-- The state a run starts from (R311, R312): what the record gives, monitor and fault none; what it does not give is
any value (R312, U8), a free value (log 26). -/
def Launch.state (l : Launch) : State where
  xregs := Vector.ofFn (fun i : Fin 31 => lookupReg l.regs (BitVec.ofNat 5 i.val) (Config.launchX i.val))
  pc := l.entry
  flags := l.flags.getD (flagsOfBits Config.launchFlags)
  dregs := Vector.ofFn (fun i : Fin 32 => lookupReg l.fregs (BitVec.ofNat 5 i.val) (Config.launchD i.val))
  esr := Config.launchEsr
  monitor := none
  mem := launchMemory l.mem
  ranges := l.mem.map launchRange
  text := l.text
  haltPc := some l.haltPc
  fault := none
  params := l.params
  draws := 0

end Sys2Proof.Machine
end

