-- ==== Sys2Proof/Safety.lean ====
section
/-! DEFINITION. The words the statements use: what a step keeps, what taking an exception leaves, when a run has ended,
and the invariant of every step. -/

namespace Sys2Proof.Machine

/-! ### Words as the spec writes them -/

/-- An R-format word from its base word (40_core_arith_logic.md R120: every operand field zero) and its operands. -/
def layoutR (base : IWord) (rm rn rd : RegNum) : IWord :=
  base ||| (rm.setWidth 32 <<< 16) ||| (rn.setWidth 32 <<< 5) ||| rd.setWidth 32
/-- LSL's and LSR's word. -/
def layoutShift (base : IWord) (shamt : BitVec 6) (rn rd : RegNum) : IWord :=
  base ||| (shamt.setWidth 32 <<< 10) ||| (rn.setWidth 32 <<< 5) ||| rd.setWidth 32
/-- An I-format word. -/
def layoutI (base : IWord) (imm : BitVec 12) (rn rd : RegNum) : IWord :=
  base ||| (imm.setWidth 32 <<< 10) ||| (rn.setWidth 32 <<< 5) ||| rd.setWidth 32
/-- A D-format word. -/
def layoutD (base : IWord) (dt : BitVec 9) (rn rt : RegNum) : IWord :=
  base ||| (dt.setWidth 32 <<< 12) ||| (rn.setWidth 32 <<< 5) ||| rt.setWidth 32
/-- A B-format word. -/
def layoutB (base : IWord) (addr : BitVec 26) : IWord := base ||| addr.setWidth 32
/-- A CB-format word; `low` is bits 4:0. -/
def layoutCB (base : IWord) (addr : BitVec 19) (low : BitVec 5) : IWord :=
  base ||| (addr.setWidth 32 <<< 5) ||| low.setWidth 32
/-- An IM-format word. -/
def layoutIM (base : IWord) (hw : BitVec 2) (imm : BitVec 16) (rd : RegNum) : IWord :=
  base ||| (hw.setWidth 32 <<< 21) ||| (imm.setWidth 32 <<< 5) ||| rd.setWidth 32

/-- The instruction's word is `w`, and `w` decodes to it, under every setting of the parameters. -/
def encodesAs (i : Instr) (w : IWord) : Prop := ∀ p : Params, encode p i = w ∧ decodeWord p w = .ok i

/-! ### What an instruction is -/

/-- The integer register an instruction writes (10_state.md R24). -/
def destX : Instr → Option RegNum
  | .add rd _ _ | .adds rd _ _ | .and rd _ _ | .ands rd _ _ | .eor rd _ _ | .orr rd _ _ | .sub rd _ _ | .subs rd _ _
  | .addi rd _ _ | .addis rd _ _ | .andi rd _ _ | .andis rd _ _ | .eori rd _ _ | .orri rd _ _ | .subi rd _ _
  | .subis rd _ _ | .lsl rd _ _ | .lsr rd _ _ | .movk rd _ _ | .movz rd _ _ | .mul rd _ _ | .sdiv rd _ _ | .smulh rd _ _
  | .udiv rd _ _ | .umulh rd _ _ => some rd
  | .ldur rt _ _ | .ldurb rt _ _ | .ldurh rt _ _ | .ldursw rt _ _ | .ldxr rt _ _ => some rt
  | .stxr _ _ dt => some (dt.extractLsb' 4 5)
  | .bl _ => some 30
  | _ => none

/-- The floating-point register an instruction writes (44_arith_float.md R237, R250, R251). -/
def destD : Instr → Option RegNum
  | .fadds rd _ _ | .faddd rd _ _ | .fdivs rd _ _ | .fdivd rd _ _ | .fmuls rd _ _ | .fmuld rd _ _ | .fsubs rd _ _
  | .fsubd rd _ _ => some rd
  | .ldurs rt _ _ | .ldurd rt _ _ => some rt
  | _ => none

/-- The instructions that write FLAGS (10_state.md R31). -/
def writesFlags : Instr → Bool
  | .adds .. | .addis .. | .subs .. | .subis .. | .ands .. | .andis .. | .fcmps .. | .fcmpd .. => true
  | _ => false

/-- The instructions that store to data memory (20_memory.md R52). -/
def isStore : Instr → Bool
  | .stur .. | .sturb .. | .sturh .. | .sturw .. | .stxr .. | .sturs .. | .sturd .. => true
  | _ => false

/-- The instructions that load from data memory (R52). -/
def isLoad : Instr → Bool
  | .ldur .. | .ldurb .. | .ldurh .. | .ldursw .. | .ldxr .. | .ldurs .. | .ldurd .. => true
  | _ => false

/-- The control-transfer instructions (41_core_branch.md). -/
def isBranch : Instr → Bool
  | .b .. | .bCond .. | .bl .. | .br .. | .cbnz .. | .cbz .. => true
  | _ => false

/-! ### What a step keeps -/

/-- Every integer register reads as before. -/
def keepsX (s t : State) : Prop := ∀ r : RegNum, t.readX r = s.readX r
/-- Every integer register but `q` reads as before. -/
def keepsXBut (q : RegNum) (s t : State) : Prop := ∀ r : RegNum, r ≠ q → t.readX r = s.readX r
/-- Every floating-point register reads as before, all 64 bits. -/
def keepsD (s t : State) : Prop := ∀ r : RegNum, t.readD r = s.readD r
/-- Every floating-point register but `q` reads as before, all 64 bits. -/
def keepsDBut (q : RegNum) (s t : State) : Prop := ∀ r : RegNum, r ≠ q → t.readD r = s.readD r
/-- The four flags are as before. -/
def keepsFlags (s t : State) : Prop := t.flags = s.flags
/-- Every byte of memory reads as before. -/
def keepsMem (s t : State) : Prop := ∀ a : Nat, t.readByte a = s.readByte a
/-- Every byte of memory outside the `n` bytes from `a` reads as before. -/
def keepsMemOutside (a n : Nat) (s t : State) : Prop := ∀ b : Nat, b < a ∨ a + n ≤ b → t.readByte b = s.readByte b
/-- The Exception Syndrome Register and the fault record are as before. -/
def keepsException (s t : State) : Prop := t.esr = s.esr ∧ t.fault = s.fault
/-- The exclusive monitor is as before. -/
def keepsMonitor (s t : State) : Prop := t.monitor = s.monitor
/-- What the launch record fixed is as before: the parameters, the admitted ranges, the text and HALT_PC. -/
def keepsLaunch (s t : State) : Prop :=
  t.params = s.params ∧ t.ranges = s.ranges ∧ t.text = s.text ∧ t.haltPc = s.haltPc

/-- An instruction that writes the integer register `rd` and nothing else, and moves the pc on by 4
(40_core_arith_logic.md R120): register 31 still reads 0 (10_state.md R22). -/
def writesOnlyX (rd : RegNum) (v : Word) (s t : State) : Prop :=
  t.readX rd = (if rd = 31 then 0 else v) ∧ keepsXBut rd s t ∧ keepsD s t ∧ keepsFlags s t ∧ keepsMem s t ∧
    keepsException s t ∧ keepsMonitor s t ∧ keepsLaunch s t ∧ t.pc = s.pc + 4

/-- An instruction that writes the integer register `rd` and the flags and nothing else, and moves the pc on by 4. -/
def writesOnlyXFlags (rd : RegNum) (v : Word) (f : Flags) (s t : State) : Prop :=
  t.readX rd = (if rd = 31 then 0 else v) ∧ keepsXBut rd s t ∧ keepsD s t ∧ t.flags = f ∧ keepsMem s t ∧
    keepsException s t ∧ keepsMonitor s t ∧ keepsLaunch s t ∧ t.pc = s.pc + 4

/-- An instruction that sets the pc and nothing else. -/
def writesOnlyPc (target : Word) (s t : State) : Prop :=
  keepsX s t ∧ keepsD s t ∧ keepsFlags s t ∧ keepsMem s t ∧ keepsException s t ∧ keepsMonitor s t ∧ keepsLaunch s t ∧
    t.pc = target

/-- An instruction that writes the floating-point register `rd` and nothing else, and moves the pc on by 4. -/
def writesOnlyD (rd : RegNum) (v : Word) (s t : State) : Prop :=
  t.readD rd = v ∧ keepsDBut rd s t ∧ keepsX s t ∧ keepsFlags s t ∧ keepsMem s t ∧ keepsException s t ∧
    keepsMonitor s t ∧ keepsLaunch s t ∧ t.pc = s.pc + 4

/-- An instruction that writes the single-precision register `rd` and nothing else, and moves the pc on by 4; the upper
half of the register is what `S_WRITE_UPPER` says, any value where it is drawn (10_state.md R37). -/
def writesOnlyS (rd : RegNum) (v : BitVec 32) (s t : State) : Prop :=
  t.readS rd = v ∧ (∀ u, s.params.sWriteUpper = .fixed u → (t.readD rd).extractLsb' 32 32 = u) ∧
    keepsDBut rd s t ∧ keepsX s t ∧ keepsFlags s t ∧ keepsMem s t ∧ keepsException s t ∧ keepsMonitor s t ∧
    keepsLaunch s t ∧ t.pc = s.pc + 4

/-- An instruction that stores the low `8 * n` bits of `v` at the `n` bytes from `ea` and nothing else, and moves the pc
on by 4: byte `k` is bits `8 (n - k) - 1` to `8 (n - 1 - k)` of `v` (20_memory.md R53). -/
def writesOnlyMem (ea : Word) (n : Nat) (v : Word) (s t : State) : Prop :=
  (∀ k, k < n → t.readByte (ea.toNat + k) = v.extractLsb' (8 * (n - 1 - k)) 8) ∧
    keepsMemOutside ea.toNat n s t ∧ keepsX s t ∧ keepsD s t ∧ keepsFlags s t ∧ keepsException s t ∧ keepsMonitor s t ∧
    keepsLaunch s t ∧ t.pc = s.pc + 4

/-! ### Exceptions and accesses -/

/-- What taking an exception leaves (60_exceptions.md R290, R291, R292): ESR.EC the class, ESR.IL 1, the monitor none and
the fault record set, and everything else as it was, the pc included. -/
def tookException (c : ExceptionClass) (info : Word) (s t : State) : Prop :=
  esrEC t.esr = exceptionCode c ∧ esrIL t.esr = 1 ∧ t.monitor = none ∧ t.fault = some ⟨c, s.pc, info⟩ ∧
    t.pc = s.pc ∧ keepsX s t ∧ keepsD s t ∧ keepsFlags s t ∧ keepsMem s t ∧ keepsLaunch s t

/-- Whether every byte of an access lies in an admitted range and none past address 2^64 - 1 (20_memory.md R51, R58). -/
def accessAdmitted (s : State) (ea : Word) (n : Nat) : Prop :=
  ea.toNat + n ≤ 2 ^ 64 ∧ ∀ k, k < n → ∃ r ∈ s.ranges, r.base ≤ ea.toNat + k ∧ ea.toNat + k < r.base + r.size

/-- Whether an `n`-byte access at `ea` is aligned as it must be (R58, R60): always under `bytewise`, but for the exclusive
pair. -/
def accessAligned (s : State) (exclusive : Bool) (ea : Word) (n : Nat) : Prop :=
  ea.toNat % n = 0 ∨ (exclusive = false ∧ s.params.misalignedData = .bytewise)

/-- Whether an access touches the program text (20_memory.md R66). -/
def accessTouchesText (s : State) (ea : Word) (n : Nat) : Prop :=
  ∃ k, k < n ∧ s.text.base ≤ ea.toNat + k ∧ ea.toNat + k < s.text.base + s.text.size

/-- The number that the `n` bytes from `ea` hold, big-endian: byte `k` counts `256 ^ (n - 1 - k)` (20_memory.md R53). -/
def bytesValue (s : State) (ea : Word) (n : Nat) : Nat :=
  ((List.range n).map (fun k => (s.readByte (ea.toNat + k)).toNat * 256 ^ (n - 1 - k))).sum

/-- Whether the monitor holds a reservation for `ea`: its own address, or the block that `MONITOR.granule` says
(42_core_load_store.md R190, R191). -/
def reservationFor (s : State) (ea : Word) : Prop :=
  ∃ a, s.monitor = some a ∧
    match s.params.monitorGranule with
    | .address => a = ea
    | .block k => a.toNat / 2 ^ k = ea.toNat / 2 ^ k

/-- Whether the four bytes of the word at the pc are all inside the text (20_memory.md R64). -/
def pcInText (s : State) : Prop :=
  ∀ k, k < 4 → s.text.base ≤ s.pc.toNat + k ∧ s.pc.toNat + k < s.text.base + s.text.size

/-! ### The shapes of the loads and stores -/

/-- A load of `n` bytes at `ea` into the integer register `rt` (42_core_load_store.md R180): where the access is aligned
and admitted it completes with `value` of the bytes, else it takes a Data Abort. -/
def loadsX (i : Instr) (rt : RegNum) (ea : Word) (n : Nat) (value : Nat → Word) (s : State) : Prop :=
  (accessAligned s false ea n ∧ accessAdmitted s ea n →
    ∃ t, exec i s = .next t ∧ writesOnlyX rt (value (bytesValue s ea n)) s t) ∧
  (¬ (accessAligned s false ea n ∧ accessAdmitted s ea n) →
    ∃ t, exec i s = .next t ∧ tookException .dataAbort ea s t)

/-- A store of the low `8 * n` bits of `v` at `ea` (R180): where the access is aligned and admitted it completes, or is
refused if it touches the text (20_memory.md R66), else it takes a Data Abort. -/
def storesAt (i : Instr) (ea : Word) (n : Nat) (v : Word) (s : State) : Prop :=
  (accessAligned s false ea n ∧ accessAdmitted s ea n → ¬ accessTouchesText s ea n →
    ∃ t, exec i s = .next t ∧ writesOnlyMem ea n v s t) ∧
  (accessAligned s false ea n ∧ accessAdmitted s ea n → accessTouchesText s ea n →
    exec i s = .refused (.storeIntoText ea)) ∧
  (¬ (accessAligned s false ea n ∧ accessAdmitted s ea n) →
    ∃ t, exec i s = .next t ∧ tookException .dataAbort ea s t)

/-! ### Floating-point values -/

/-- The value of a finite pattern as a rational number: `(-1)^S * (1 + Fraction) * 2^(Exponent - Bias)` for a number
(44_arith_float.md R230), `(-1)^S * (0 + Fraction) * 2^(1 - Bias)` for a denormal or a zero (R233). -/
def fpRat (f : FpFormat) (x : Nat) : ℚ :=
  (if fpSign f x then -1 else 1) *
    (if fpExponent f x = 0 then ((fpFraction f x : ℚ) / 2 ^ f.fracBits) * 2 ^ (1 - (f.bias : ℤ))
     else (1 + (fpFraction f x : ℚ) / 2 ^ f.fracBits) * 2 ^ ((fpExponent f x : ℤ) - f.bias))

/-- Whether a pattern of the format's width is a zero, a denormal or a number (R233). -/
def fpFinite (f : FpFormat) (x : Nat) : Prop :=
  x < 2 ^ (1 + f.expBits + f.fracBits) ∧ fpExponent f x ≠ f.maxExp

/-- The operation on rational numbers. -/
def exactResult (op : FpOp) (a b : ℚ) : ℚ :=
  match op with
  | .add => a + b
  | .sub => a - b
  | .mul => a * b
  | .div => a / b

/-- The record `fp` is the one that `cases` lists: an operation whose listed cases agree gives what they list, and one that
is not listed what the default instance gives (44_arith_float.md R235, log 34). -/
def givesListed {w : Nat} (cases : List (FpCase w)) (default fp : FpOp → BitVec w → BitVec w → BitVec w) : Prop :=
  ∀ (op : FpOp) (a b : BitVec w),
    let listed (c : FpCase w) : Prop := c ∈ cases ∧ c.op = op ∧ c.a = a ∧ c.b = b
    (∀ r, (∃ c, listed c) → (∀ c, listed c → c.result = r) → fp op a b = r) ∧
    ((∀ c, ¬ listed c) → fp op a b = default op a b)

/-- The pattern `r` is the exact result `e` rounded as IEEE 754 does by default (44_arith_float.md R235): where the
magnitude of `e` is below the largest finite value plus half its unit in the last place, a finite pattern nearest to `e`
among all, with an even fraction where another value is as near; else the infinity of the sign of `e`. A result other
than zero has its sign. -/
def roundsTo (f : FpFormat) (e : ℚ) (r : Nat) : Prop :=
  (e ≠ 0 → fpSign f r = decide (e < 0)) ∧
  if |e| < (2 - 1 / 2 ^ (f.fracBits + 1)) * 2 ^ f.bias then
    fpFinite f r ∧ (∀ q, fpFinite f q → |fpRat f r - e| ≤ |fpRat f q - e|) ∧
      ∀ q, fpFinite f q → |fpRat f q - e| = |fpRat f r - e| → fpRat f q ≠ fpRat f r → r % 2 = 0
  else r = fpInf f (decide (e < 0))

/-- On finite operands, and a divisor other than zero, the record `fp` gives the exact result rounded (R235). -/
def roundsCorrectly {w : Nat} (f : FpFormat) (fp : FpOp → BitVec w → BitVec w → BitVec w) : Prop :=
  ∀ (op : FpOp) (a b : BitVec w), fpFinite f a.toNat → fpFinite f b.toNat → (op = .div → fpRat f b.toNat ≠ 0) →
    roundsTo f (exactResult op (fpRat f a.toNat) (fpRat f b.toNat)) (fp op a b).toNat

/-- The pattern is an infinity of the sign given. -/
def isInfinity {w : Nat} (f : FpFormat) (sign : Bool) (x : BitVec w) : Prop :=
  fpObject f x.toNat = .infinity ∧ x.msb = sign

/-- The operands for which the record `fp` gives a NaN (R235). -/
def givesNaN {w : Nat} (f : FpFormat) (fp : FpOp → BitVec w → BitVec w → BitVec w) : Prop :=
  ∀ a b : BitVec w,
    let obj (x : BitVec w) := fpObject f x.toNat
    (∀ op, obj a = .nan ∨ obj b = .nan → obj (fp op a b) = .nan) ∧
    (obj a = .zero → obj b = .zero → obj (fp .div a b) = .nan) ∧
    (obj a = .infinity → obj b = .infinity → obj (fp .div a b) = .nan ∧
      (a.msb = b.msb → obj (fp .sub a b) = .nan) ∧ (a.msb ≠ b.msb → obj (fp .add a b) = .nan)) ∧
    (obj a = .zero → obj b = .infinity → obj (fp .mul a b) = .nan ∧ obj (fp .mul b a) = .nan)

/-- What the record `fp` gives for an infinite operand or a zero divisor where it gives no NaN (R235, log 25). -/
def givesInfinity {w : Nat} (f : FpFormat) (fp : FpOp → BitVec w → BitVec w → BitVec w) : Prop :=
  ∀ a b : BitVec w,
    let obj (x : BitVec w) := fpObject f x.toNat
    (obj a = .infinity → fpFinite f b.toNat → fp .add a b = a ∧ fp .add b a = a ∧ fp .sub a b = a ∧
      isInfinity f (!a.msb) (fp .sub b a) ∧ isInfinity f (a.msb ^^ b.msb) (fp .div a b) ∧
      obj (fp .div b a) = .zero ∧ (fp .div b a).msb = (a.msb ^^ b.msb)) ∧
    (obj a = .infinity → obj b = .infinity →
      (a.msb = b.msb → fp .add a b = a) ∧ (a.msb ≠ b.msb → fp .sub a b = a)) ∧
    (obj a = .infinity → obj b ≠ .nan → obj b ≠ .zero →
      isInfinity f (a.msb ^^ b.msb) (fp .mul a b) ∧ isInfinity f (a.msb ^^ b.msb) (fp .mul b a)) ∧
    (obj a = .number ∨ obj a = .denorm → obj b = .zero → isInfinity f (a.msb ^^ b.msb) (fp .div a b))

/-- The sign of the results of the record `fp` on finite operands, those that are zero too: an exact zero sum is +0 but
for two minus zeros, an exact zero difference likewise, and a product or quotient has the exclusive-or of the signs
(R235, log 25). -/
def givesSigns {w : Nat} (f : FpFormat) (fp : FpOp → BitVec w → BitVec w → BitVec w) : Prop :=
  ∀ a b : BitVec w, fpFinite f a.toNat → fpFinite f b.toNat →
    (fpRat f a.toNat + fpRat f b.toNat = 0 → fp .add a b = if a.msb && b.msb then BitVec.intMin w else 0) ∧
    (fpRat f a.toNat = fpRat f b.toNat → fp .sub a b = if a.msb && !b.msb then BitVec.intMin w else 0) ∧
    (fp .mul a b).msb = (a.msb ^^ b.msb) ∧
    (fpRat f b.toNat ≠ 0 → (fp .div a b).msb = (a.msb ^^ b.msb))

/-! ### Runs -/

/-- The final state of a run that has ended (70_reset_and_hazards.md R314): pc is HALT_PC and there is no fault. -/
def State.final (s : State) : Prop := s.fault = none ∧ s.haltPc = some s.pc

/-- The state of a run that an exception has ended (60_exceptions.md R290); it is not a final state. -/
def State.faulted (s : State) : Prop := ∃ r, s.fault = some r

/-- X19 to X30, the registers that the calling convention preserves across a call (10_state.md R21, R23): a software
convention, not the machine's. -/
def preservedAcrossCall (r : RegNum) : Bool := 19 ≤ r.toNat && r.toNat ≤ 30

/-! ### The invariant -/

/-- Memory is in its canonical form and lists no byte that is not admitted. -/
def invMemory (s : State) : Prop :=
  Memory.wf s.mem = true ∧ ∀ c ∈ s.mem, c.1 < 2 ^ 64 ∧ s.admits c.1 = true

/-- A reservation is for the address of an admitted, aligned doubleword (42_core_load_store.md R185). -/
def invMonitor (s : State) : Prop :=
  ∀ a, s.monitor = some a → a.toNat % 8 = 0 ∧ s.admitted a.toNat 8 = true

/-- After an exception ESR holds its class and IL = 1, the monitor is none, the record's pc is the pc, and the class is
one of the four that are raised (60_exceptions.md R287, R288, R291, R292). -/
def invFault (s : State) : Prop :=
  ∀ r, s.fault = some r →
    esrEC s.esr = exceptionCode r.cls ∧ esrIL s.esr = 1 ∧ s.monitor = none ∧ r.pc = s.pc ∧
      (r.cls = .unknown ∨ r.cls = .instructionAbort ∨ r.cls = .misalignedPC ∨ r.cls = .dataAbort)

/-- The invariant that every step keeps. -/
def State.inv (s : State) : Prop := invMemory s ∧ invMonitor s ∧ invFault s

end Sys2Proof.Machine
end

