-- ==== Sys2Proof/Certificates/Slice0/Obligations.lean ====
section
/-! DEFINITION. The statements for the provers. Each docstring names the rule of spec/ it formalises. -/

open Sys2Proof Sys2Proof.Machine

/-! ### Instructions that write one integer register -/

/-- ADD, ADDI, SUB, SUBI (R124, R125, R140, R141): the word, the sum or difference modulo 2^64 in Rd, and nothing
else. -/
def Obligations.AddSubWriteSumOrDifference : Prop :=
  ∀ (s : State) (rd rn rm : RegNum) (imm : BitVec 12),
    (encodesAs (.add rd rn rm) (layoutR 0x8B000000 rm rn rd) ∧
      ∃ t, exec (.add rd rn rm) s = .next t ∧
        writesOnlyX rd (BitVec.ofNat 64 ((s.readX rn).toNat + (s.readX rm).toNat)) s t) ∧
    (encodesAs (.addi rd rn imm) (layoutI 0x91000000 imm rn rd) ∧
      ∃ t, exec (.addi rd rn imm) s = .next t ∧
        writesOnlyX rd (BitVec.ofNat 64 ((s.readX rn).toNat + imm.toNat)) s t) ∧
    (encodesAs (.sub rd rn rm) (layoutR 0xCB000000 rm rn rd) ∧
      ∃ t, exec (.sub rd rn rm) s = .next t ∧
        writesOnlyX rd (BitVec.ofInt 64 ((s.readX rn).toNat - (s.readX rm).toNat : Int)) s t) ∧
    (encodesAs (.subi rd rn imm) (layoutI 0xD1000000 imm rn rd) ∧
      ∃ t, exec (.subi rd rn imm) s = .next t ∧
        writesOnlyX rd (BitVec.ofInt 64 ((s.readX rn).toNat - imm.toNat : Int)) s t)

/-- AND, ANDI, EOR, EORI, ORR, ORRI (R128, R129, R132, R133, R138, R139): the word, the result bit by bit in Rd with
the immediate zero-extended, and nothing else. -/
def Obligations.LogicalOpsWriteBitwiseResult : Prop :=
  ∀ (s : State) (rd rn rm : RegNum) (imm : BitVec 12),
    (encodesAs (.and rd rn rm) (layoutR 0x8A000000 rm rn rd) ∧
      ∃ t v, exec (.and rd rn rm) s = .next t ∧ writesOnlyX rd v s t ∧
        ∀ j, v.getLsbD j = ((s.readX rn).getLsbD j && (s.readX rm).getLsbD j)) ∧
    (encodesAs (.andi rd rn imm) (layoutI 0x92000000 imm rn rd) ∧
      ∃ t v, exec (.andi rd rn imm) s = .next t ∧ writesOnlyX rd v s t ∧
        ∀ j, v.getLsbD j = ((s.readX rn).getLsbD j && imm.getLsbD j)) ∧
    (encodesAs (.eor rd rn rm) (layoutR 0xCA000000 rm rn rd) ∧
      ∃ t v, exec (.eor rd rn rm) s = .next t ∧ writesOnlyX rd v s t ∧
        ∀ j, v.getLsbD j = ((s.readX rn).getLsbD j ^^ (s.readX rm).getLsbD j)) ∧
    (encodesAs (.eori rd rn imm) (layoutI 0xD2000000 imm rn rd) ∧
      ∃ t v, exec (.eori rd rn imm) s = .next t ∧ writesOnlyX rd v s t ∧
        ∀ j, v.getLsbD j = ((s.readX rn).getLsbD j ^^ imm.getLsbD j)) ∧
    (encodesAs (.orr rd rn rm) (layoutR 0xAA000000 rm rn rd) ∧
      ∃ t v, exec (.orr rd rn rm) s = .next t ∧ writesOnlyX rd v s t ∧
        ∀ j, v.getLsbD j = ((s.readX rn).getLsbD j || (s.readX rm).getLsbD j)) ∧
    (encodesAs (.orri rd rn imm) (layoutI 0xB2000000 imm rn rd) ∧
      ∃ t v, exec (.orri rd rn imm) s = .next t ∧ writesOnlyX rd v s t ∧
        ∀ j, v.getLsbD j = ((s.readX rn).getLsbD j || imm.getLsbD j))

/-- LSL, LSR (R134, R135): the word, the register times or divided by 2^shamt in Rd (zeros enter), and nothing else.
Rests on: LSR's zero fill is the spec's own decision D31: the name decides against the operator the source prints. -/
def Obligations.ShiftsFillWithZeros : Prop :=
  ∀ (s : State) (rd rn : RegNum) (shamt : BitVec 6),
    (encodesAs (.lsl rd rn shamt) (layoutShift 0xD3600000 shamt rn rd) ∧
      ∃ t, exec (.lsl rd rn shamt) s = .next t ∧
        writesOnlyX rd (BitVec.ofNat 64 ((s.readX rn).toNat * 2 ^ shamt.toNat)) s t) ∧
    (encodesAs (.lsr rd rn shamt) (layoutShift 0xD3400000 shamt rn rd) ∧
      ∃ t, exec (.lsr rd rn shamt) s = .next t ∧
        writesOnlyX rd (BitVec.ofNat 64 ((s.readX rn).toNat / 2 ^ shamt.toNat)) s t)

/-- MOVK, MOVZ (R136, R137): the word, the immediate in the 16 bits from 16 * hw of Rd, the other 48 bits kept or 0,
and nothing else. Rests on: the bit range of MOVK is the spec's own decision D30. -/
def Obligations.MovesFillOneSixteenBitSlot : Prop :=
  ∀ (s : State) (rd : RegNum) (hw : BitVec 2) (imm : BitVec 16),
    (encodesAs (.movk rd hw imm) (layoutIM 0xF2800000 hw imm rd) ∧
      ∃ t v, exec (.movk rd hw imm) s = .next t ∧ writesOnlyX rd v s t ∧
        ∀ j, v.getLsbD j =
          if 16 * hw.toNat ≤ j ∧ j < 16 * hw.toNat + 16 then imm.getLsbD (j - 16 * hw.toNat)
          else (s.readX rd).getLsbD j) ∧
    (encodesAs (.movz rd hw imm) (layoutIM 0xD2800000 hw imm rd) ∧
      ∃ t v, exec (.movz rd hw imm) s = .next t ∧ writesOnlyX rd v s t ∧
        ∀ j, v.getLsbD j =
          if 16 * hw.toNat ≤ j ∧ j < 16 * hw.toNat + 16 then imm.getLsbD (j - 16 * hw.toNat) else false)

/-- MUL, SMULH, UMULH (R211, R213, R215): the word, bits 63:0 or 127:64 of the exact product in Rd, and nothing else.
Rests on: the shamt 1F of UMULH's word is the spec's own decision D32. -/
def Obligations.MultipliesWriteHalvesOfExactProduct : Prop :=
  ∀ (s : State) (rd rn rm : RegNum),
    (encodesAs (.mul rd rn rm) (layoutR 0x9B007C00 rm rn rd) ∧
      ∃ t v, exec (.mul rd rn rm) s = .next t ∧ writesOnlyX rd v s t ∧
        v.toNat = (s.readX rn).toNat * (s.readX rm).toNat % 2 ^ 64) ∧
    (encodesAs (.smulh rd rn rm) (layoutR 0x9B407C00 rm rn rd) ∧
      ∃ t v, exec (.smulh rd rn rm) s = .next t ∧ writesOnlyX rd v s t ∧
        v.toInt = (s.readX rn).toInt * (s.readX rm).toInt / 2 ^ 64) ∧
    (encodesAs (.umulh rd rn rm) (layoutR 0x9BC07C00 rm rn rd) ∧
      ∃ t v, exec (.umulh rd rn rm) s = .next t ∧ writesOnlyX rd v s t ∧
        v.toNat = (s.readX rn).toNat * (s.readX rm).toNat / 2 ^ 64)

/-- SDIV, UDIV (R212, R214, R216): the word; for a divisor other than 0 the quotient truncated toward zero (the
remainder smaller than the divisor and of the dividend's sign), modulo 2^64; for a zero divisor what DIV_ZERO says;
and nothing else. Rests on: rounding, the zero divisor and the overflow of SDIV are the spec's own decision D14 (log
15). -/
def Obligations.DividesTruncateTowardZero : Prop :=
  ∀ (s : State) (rd rn rm : RegNum),
    (encodesAs (.sdiv rd rn rm) (layoutR 0x9AC00800 rm rn rd) ∧
      ∃ t v, exec (.sdiv rd rn rm) s = .next t ∧ writesOnlyX rd v s t ∧
        (s.readX rm ≠ 0 → ∃ q r : Int, (s.readX rn).toInt = q * (s.readX rm).toInt + r ∧
          r.natAbs < (s.readX rm).toInt.natAbs ∧ 0 ≤ r * (s.readX rn).toInt ∧ v = BitVec.ofInt 64 q) ∧
        (s.readX rm = 0 → ∀ z, s.params.divZero = .fixed z → v = z)) ∧
    (encodesAs (.udiv rd rn rm) (layoutR 0x9AC00C00 rm rn rd) ∧
      ∃ t v, exec (.udiv rd rn rm) s = .next t ∧ writesOnlyX rd v s t ∧
        (s.readX rm ≠ 0 → v.toNat = (s.readX rn).toNat / (s.readX rm).toNat) ∧
        (s.readX rm = 0 → ∀ z, s.params.divZero = .fixed z → v = z))

/-! ### Instructions that set the flags -/

/-- ADDS, ADDIS (R126, R127, with the flags of R121): the word, the sum in Rd, the four flags of R121's formulas, and
nothing else. Rests on: the four flag formulas are the spec's own decision D10: 'the four definitions above are [from
general knowledge, not in source]'. -/
def Obligations.AddsSetsFlagsOfAddition : Prop :=
  ∀ (s : State) (rd rn rm : RegNum) (imm : BitVec 12),
    let flagsOf (a b r : Word) : Flags :=
      { n := r.getLsbD 63
        z := decide (r.toNat = 0)
        c := decide (a.toNat + b.toNat ≥ 2 ^ 64)
        v := decide (a.getLsbD 63 = b.getLsbD 63 ∧ r.getLsbD 63 ≠ a.getLsbD 63) }
    (encodesAs (.adds rd rn rm) (layoutR 0xAB000000 rm rn rd) ∧
      ∃ t, exec (.adds rd rn rm) s = .next t ∧
        writesOnlyXFlags rd (s.readX rn + s.readX rm)
          (flagsOf (s.readX rn) (s.readX rm) (s.readX rn + s.readX rm)) s t) ∧
    (encodesAs (.addis rd rn imm) (layoutI 0xB1000000 imm rn rd) ∧
      ∃ t, exec (.addis rd rn imm) s = .next t ∧
        writesOnlyXFlags rd (s.readX rn + BitVec.ofNat 64 imm.toNat)
          (flagsOf (s.readX rn) (BitVec.ofNat 64 imm.toNat) (s.readX rn + BitVec.ofNat 64 imm.toNat)) s t)

/-- SUBS, SUBIS (R142, R143, with the flags of R122): the word, the difference in Rd, the four flags of R122's
formulas, and nothing else. Rests on: the carry convention is the spec's own decision D10: 'C is the inverse of
borrow' is from general knowledge. -/
def Obligations.SubsSetsFlagsOfSubtraction : Prop :=
  ∀ (s : State) (rd rn rm : RegNum) (imm : BitVec 12),
    let flagsOf (a b r : Word) : Flags :=
      { n := r.getLsbD 63
        z := decide (r.toNat = 0)
        c := decide (a.toNat ≥ b.toNat)
        v := decide (a.getLsbD 63 ≠ b.getLsbD 63 ∧ r.getLsbD 63 ≠ a.getLsbD 63) }
    (encodesAs (.subs rd rn rm) (layoutR 0xEB000000 rm rn rd) ∧
      ∃ t, exec (.subs rd rn rm) s = .next t ∧
        writesOnlyXFlags rd (s.readX rn - s.readX rm)
          (flagsOf (s.readX rn) (s.readX rm) (s.readX rn - s.readX rm)) s t) ∧
    (encodesAs (.subis rd rn imm) (layoutI 0xF1000000 imm rn rd) ∧
      ∃ t, exec (.subis rd rn imm) s = .next t ∧
        writesOnlyXFlags rd (s.readX rn - BitVec.ofNat 64 imm.toNat)
          (flagsOf (s.readX rn) (BitVec.ofNat 64 imm.toNat) (s.readX rn - BitVec.ofNat 64 imm.toNat)) s t)

/-- ANDS, ANDIS (R130, R131, with the flags of R123): the word, the conjunction in Rd, N and Z from it, C and V what
LOGICAL_FLAGS_CV says (both 0 by default), and nothing else. Rests on: clearing C and V is the spec's own decision D10
(log 16). -/
def Obligations.AndsSetsFlagsOfLogicalResult : Prop :=
  ∀ (s : State) (rd rn rm : RegNum) (imm : BitVec 12),
    let outcome (i : Instr) (r : Word) : Prop :=
      ∃ t f, exec i s = .next t ∧ writesOnlyXFlags rd r f s t ∧ f.n = r.getLsbD 63 ∧ f.z = decide (r.toNat = 0) ∧
        (s.params.logicalFlagsCV = Params.default.logicalFlagsCV → f.c = false ∧ f.v = false) ∧
        ∀ cv, s.params.logicalFlagsCV = .fixed cv → f.c = cv.1 ∧ f.v = cv.2
    (encodesAs (.ands rd rn rm) (layoutR 0xEA000000 rm rn rd) ∧
      outcome (.ands rd rn rm) (s.readX rn &&& s.readX rm)) ∧
    (encodesAs (.andis rd rn imm) (layoutI 0xF2000000 imm rn rd) ∧
      outcome (.andis rd rn imm) (s.readX rn &&& BitVec.ofNat 64 imm.toNat))

/-- The V of ADDS is signed overflow and the C of SUBS is no borrow, V signed overflow: R121's and R122's comments.
Rests on: the flag formulas are the spec's own decision D10. -/
def Obligations.OverflowFlagMeansSignedRangeLeft : Prop :=
  ∀ a b : Word,
    ((addFlags a b).v = true ↔ ¬ (-2 ^ 63 ≤ a.toInt + b.toInt ∧ a.toInt + b.toInt < 2 ^ 63)) ∧
    ((addFlags a b).c = true ↔ (a + b).toNat ≠ a.toNat + b.toNat) ∧
    ((subFlags a b).v = true ↔ ¬ (-2 ^ 63 ≤ a.toInt - b.toInt ∧ a.toInt - b.toInt < 2 ^ 63)) ∧
    ((subFlags a b).c = true ↔ ((a - b).toNat : Int) = a.toNat - b.toNat)

/-! ### Control transfer -/

/-- B, BL (R162, R163): the words, the target, X30 for BL, and nothing else. -/
def Obligations.BranchAndLinkSetPc : Prop :=
  ∀ (s : State) (addr : BitVec 26),
    (encodesAs (.b addr) (layoutB 0x14000000 addr) ∧
      ∃ t, exec (.b addr) s = .next t ∧ writesOnlyPc (s.pc + BitVec.ofInt 64 (4 * addr.toInt)) s t) ∧
    (encodesAs (.bl addr) (layoutB 0x94000000 addr) ∧
      ∃ t, exec (.bl addr) s = .next t ∧ t.readX 30 = s.pc + 4 ∧ keepsXBut 30 s t ∧ keepsD s t ∧ keepsFlags s t ∧
        keepsMem s t ∧ keepsException s t ∧ keepsMonitor s t ∧ keepsLaunch s t ∧
        t.pc = s.pc + BitVec.ofInt 64 (4 * addr.toInt))

/-- BR (R164): the word under either BR_TARGET_FIELD, the whole register as the target, and nothing else. Rests on:
the field of BR's register is the spec's own decision D6. -/
def Obligations.BranchRegisterSetsPc : Prop :=
  ∀ (s : State) (rt : RegNum),
    (∀ p : Params, encode p (.br rt) =
          (match p.brTargetField with
            | .bits4to0 => 0xD6000000 ||| rt.setWidth 32
            | .bits9to5 => 0xD6000000 ||| (rt.setWidth 32 <<< 5)) ∧
        decodeWord p (encode p (.br rt)) = .ok (.br rt)) ∧
    ∃ t, exec (.br rt) s = .next t ∧ writesOnlyPc (s.readX rt) s t

/-- B.cond (R165): the word, which decodes where COND_TABLE assigns the condition; the target where the condition's
meaning holds of the flags, the next instruction where it does not, and nothing else. Rests on: the condition table
and its encodings are the spec's own decision D11; how State holds COND_TABLE is the model's choice (log 34). -/
def Obligations.CondBranchFollowsFlags : Prop :=
  ∀ (s : State) (c : BitVec 4) (addr : BitVec 19),
    (∀ p : Params, encode p (.bCond c addr) = layoutCB 0x54000000 addr (c.setWidth 5) ∧
      (condAssigned p.condTable c = true → decodeWord p (encode p (.bCond c addr)) = .ok (.bCond c addr))) ∧
    ∀ m, condEntry s.params.condTable c = some m →
      let holds : Prop :=
        match m with
        | .suffix k => condHolds k s.flags = true
        | .truth t =>
          t.toNat.testBit (8 * s.flags.n.toNat + 4 * s.flags.z.toNat + 2 * s.flags.c.toNat + s.flags.v.toNat) = true
      ∃ t, exec (.bCond c addr) s = .next t ∧
        (holds → writesOnlyPc (s.pc + BitVec.ofInt 64 (4 * addr.toInt)) s t) ∧
        (¬ holds → writesOnlyPc (s.pc + 4) s t)

/-- The default COND_TABLE: the fourteen suffixes at 0000 to 1101, none at 1110 and 1111, and when each holds (R161);
and that a word with B.cond's opcode decodes under the strict policy exactly if bit 4 is 0 and COND_TABLE assigns bits
3:0. Rests on: the table is the spec's own decision D11; how State holds COND_TABLE is the model's choice (log 34). -/
def Obligations.ConditionTableAndUnassigned : Prop :=
  (∀ f : Flags,
    (condHolds .eq f = true ↔ f.z = true) ∧ (condHolds .ne f = true ↔ f.z = false) ∧
    (condHolds .hs f = true ↔ f.c = true) ∧ (condHolds .lo f = true ↔ f.c = false) ∧
    (condHolds .mi f = true ↔ f.n = true) ∧ (condHolds .pl f = true ↔ f.n = false) ∧
    (condHolds .vs f = true ↔ f.v = true) ∧ (condHolds .vc f = true ↔ f.v = false) ∧
    (condHolds .hi f = true ↔ f.c = true ∧ f.z = false) ∧ (condHolds .ls f = true ↔ ¬ (f.c = true ∧ f.z = false)) ∧
    (condHolds .ge f = true ↔ f.n = f.v) ∧ (condHolds .lt f = true ↔ f.n ≠ f.v) ∧
    (condHolds .gt f = true ↔ f.z = false ∧ f.n = f.v) ∧ (condHolds .le f = true ↔ ¬ (f.z = false ∧ f.n = f.v))) ∧
  ((List.range 16).map (fun c => condEntry Params.default.condTable (BitVec.ofNat 4 c)) =
    [Cond.eq, .ne, .hs, .lo, .mi, .pl, .vs, .vc, .hi, .ls, .ge, .lt, .gt, .le].map (fun k => some (.suffix k)) ++
      [none, none]) ∧
  ∀ (p : Params) (w : IWord), p.unusedFieldPolicy = .strict → w.extractLsb' 24 8 = 0b01010100 →
    ((∃ i, decodeWord p w = .ok i) ↔ w.getLsbD 4 = false ∧ condEntry p.condTable (w.extractLsb' 0 4) ≠ none)

/-- CBNZ, CBZ (R166, R167): the words, the target where all 64 bits of the register are (not) 0, else the next
instruction, and nothing else. -/
def Obligations.CompareBranchesTestWholeRegister : Prop :=
  ∀ (s : State) (rt : RegNum) (addr : BitVec 19),
    (encodesAs (.cbnz rt addr) (layoutCB 0xB5000000 addr rt) ∧
      ∃ t, exec (.cbnz rt addr) s = .next t ∧
        writesOnlyPc (if s.readX rt ≠ 0 then s.pc + BitVec.ofInt 64 (4 * addr.toInt) else s.pc + 4) s t) ∧
    (encodesAs (.cbz rt addr) (layoutCB 0xB4000000 addr rt) ∧
      ∃ t, exec (.cbz rt addr) s = .next t ∧
        writesOnlyPc (if s.readX rt = 0 then s.pc + BitVec.ofInt 64 (4 * addr.toInt) else s.pc + 4) s t)

/-- SUBS into XZR (CMP, R270) and then B.cond: under the default COND_TABLE each condition decides the comparison of the two registers that the table of R161 names. Rests on: the meanings of the flags and conditions are the spec's own decisions D10, D11 and D17.
-/
def Obligations.CompareThenBranchDecidesComparison : Prop :=
  ∀ (s : State) (rn rm : RegNum) (c : Cond) (addr : BitVec 19), s.params.condTable = Params.default.condTable →
    let a := s.readX rn
    let b := s.readX rm
    let holds : Prop :=
      match c with
      | .eq => a = b
      | .ne => a ≠ b
      | .hs => a.toNat ≥ b.toNat
      | .lo => a.toNat < b.toNat
      | .mi => (a - b).toInt < 0
      | .pl => 0 ≤ (a - b).toInt
      | .vs => (a - b).toInt ≠ a.toInt - b.toInt
      | .vc => (a - b).toInt = a.toInt - b.toInt
      | .hi => a.toNat > b.toNat
      | .ls => a.toNat ≤ b.toNat
      | .ge => a.toInt ≥ b.toInt
      | .lt => a.toInt < b.toInt
      | .gt => a.toInt > b.toInt
      | .le => a.toInt ≤ b.toInt
    ∃ t u, exec (pseudoCmp rn rm) s = .next t ∧ exec (.bCond (encodeCond c) addr) t = .next u ∧ keepsX s u ∧
      (holds → u.pc = s.pc + 4 + BitVec.ofInt 64 (4 * addr.toInt)) ∧ (¬ holds → u.pc = s.pc + 8)

/-! ### Loads and stores -/

/-- LDUR, LDURB, LDURH, LDURSW (R181, R182, R183, R184): the words; where the access is aligned and admitted the bytes
big-endian, zero- or sign-extended, in Rt, and nothing else; otherwise a Data Abort and nothing else. Rests on: what a
misaligned or not admitted access does is the spec's own decisions D2, D18 and D23 (logs 1, 21). -/
def Obligations.LoadsExtendBigEndianBytes : Prop :=
  ∀ (s : State) (rt rn : RegNum) (dt : BitVec 9),
    (encodesAs (.ldur rt rn dt) (layoutD 0xF8400000 dt rn rt) ∧
      loadsX (.ldur rt rn dt) rt (s.effAddr rn dt) 8 (fun v => BitVec.ofNat 64 v) s) ∧
    (encodesAs (.ldurb rt rn dt) (layoutD 0x38400000 dt rn rt) ∧
      loadsX (.ldurb rt rn dt) rt (s.effAddr rn dt) 1 (fun v => BitVec.ofNat 64 v) s) ∧
    (encodesAs (.ldurh rt rn dt) (layoutD 0x78400000 dt rn rt) ∧
      loadsX (.ldurh rt rn dt) rt (s.effAddr rn dt) 2 (fun v => BitVec.ofNat 64 v) s) ∧
    (encodesAs (.ldursw rt rn dt) (layoutD 0xB8800000 dt rn rt) ∧
      loadsX (.ldursw rt rn dt) rt (s.effAddr rn dt) 4
        (fun v => BitVec.ofInt 64 (if v < 2 ^ 31 then (v : Int) else v - 2 ^ 32)) s)

/-- LDXR (R185): the word; where the access is a multiple of 8 (under either MISALIGNED_DATA) and admitted, the
doubleword in Rt and the monitor armed for the address, and nothing else; otherwise a Data Abort, which clears the
monitor. Rests on: the monitor is the spec's own decision D8 (log 28). -/
def Obligations.LdxrLoadsAndArmsMonitor : Prop :=
  ∀ (s : State) (rt rn : RegNum) (dt : BitVec 9),
    let ea := s.effAddr rn dt
    encodesAs (.ldxr rt rn dt) (layoutD 0xC8400000 dt rn rt) ∧
    (ea.toNat % 8 = 0 ∧ accessAdmitted s ea 8 →
      ∃ t, exec (.ldxr rt rn dt) s = .next t ∧
        t.readX rt = (if rt = 31 then 0 else BitVec.ofNat 64 (bytesValue s ea 8)) ∧ t.monitor = some ea ∧
        keepsXBut rt s t ∧ keepsD s t ∧ keepsFlags s t ∧ keepsMem s t ∧ keepsException s t ∧ keepsLaunch s t ∧
        t.pc = s.pc + 4) ∧
    (¬ (ea.toNat % 8 = 0 ∧ accessAdmitted s ea 8) →
      ∃ t, exec (.ldxr rt rn dt) s = .next t ∧ tookException .dataAbort ea s t)

/-- STUR, STURB, STURH, STURW (R186, R187, R188, R189), over a memory in canonical form (an invariant:
StepKeepsInvariant): the words; where the access is aligned and admitted, the low bytes of Rt big-endian at the
effective address and nothing else, or the refusal of a store that touches the text; otherwise a Data Abort. Rests on:
the abort and the refusal are the spec's own decisions D2, D18 and D20 (logs 1, 20, 21). -/
def Obligations.StoresWriteOnlyTheirBytes : Prop :=
  ∀ (s : State) (rt rn : RegNum) (dt : BitVec 9), Memory.wf s.mem = true →
    (encodesAs (.stur rt rn dt) (layoutD 0xF8000000 dt rn rt) ∧
      storesAt (.stur rt rn dt) (s.effAddr rn dt) 8 (s.readX rt) s) ∧
    (encodesAs (.sturb rt rn dt) (layoutD 0x38000000 dt rn rt) ∧
      storesAt (.sturb rt rn dt) (s.effAddr rn dt) 1 (s.readX rt) s) ∧
    (encodesAs (.sturh rt rn dt) (layoutD 0x78000000 dt rn rt) ∧
      storesAt (.sturh rt rn dt) (s.effAddr rn dt) 2 (s.readX rt) s) ∧
    (encodesAs (.sturw rt rn dt) (layoutD 0xB8000000 dt rn rt) ∧
      storesAt (.sturw rt rn dt) (s.effAddr rn dt) 4 (s.readX rt) s)

/-- STXR (R190), over a memory in canonical form: the word; a word that STXR_OFFSET does not admit is refused; an
address that is not a multiple of 8 or not admitted raises Data Abort; with a reservation for the address and the draw
success the doubleword is stored and the status is 0 (or the store into the text is refused), else memory is unchanged
and the status is 1; the monitor is none after either. The status register is bits 20:16 of the word. Rests on: the
overlap, the monitor and the condition of the store are the spec's own decisions D7, D8 and D9 (logs 12, 19, 28); the
refusal of a store into the text is its decision D20, and that an STXR which stores nothing is not refused there is
deduced (log 20); the abort as a next state is log 1. -/
def Obligations.StxrStoresOnlyOnSuccess : Prop :=
  ∀ (s : State) (rt rn : RegNum) (dt : BitVec 9), Memory.wf s.mem = true →
    let offset : Int := match s.params.stxrOffset with
      | .agreeOnly => 0
      | .dtaddr => dt.toInt
      | .zero => 0
    let allowed : Prop := match s.params.stxrOffset with
      | .agreeOnly => dt = 0
      | .dtaddr => True
      | .zero => dt.toNat % 16 = 0
    let ea := s.readX rn + BitVec.ofInt 64 offset
    let statusReg : RegNum := BitVec.ofNat 5 (dt.toNat / 16)
    let ended (status : Word) (t : State) : Prop :=
      t.readX statusReg = (if statusReg = 31 then 0 else status) ∧ keepsXBut statusReg s t ∧ keepsD s t ∧
        keepsFlags s t ∧ keepsException s t ∧ t.monitor = none ∧ keepsLaunch s t ∧ t.pc = s.pc + 4
    encodesAs (.stxr rt rn dt) (layoutD 0xC8000000 dt rn rt) ∧
    (¬ allowed → exec (.stxr rt rn dt) s = .refused (.stxrNotAdmitted dt)) ∧
    (allowed → ¬ (ea.toNat % 8 = 0 ∧ accessAdmitted s ea 8) →
      ∃ t, exec (.stxr rt rn dt) s = .next t ∧ tookException .dataAbort ea s t) ∧
    (allowed → ea.toNat % 8 = 0 ∧ accessAdmitted s ea 8 → ¬ reservationFor s ea →
      ∃ t, exec (.stxr rt rn dt) s = .next t ∧ ended 1 t ∧ keepsMem s t) ∧
    (allowed → ea.toNat % 8 = 0 ∧ accessAdmitted s ea 8 → reservationFor s ea → ¬ accessTouchesText s ea 8 →
      ∃ t, exec (.stxr rt rn dt) s = .next t ∧
        if Config.drawSuccess s.draws = true then
          ended 0 t ∧ (∀ k, k < 8 → t.readByte (ea.toNat + k) = (s.readX rt).extractLsb' (8 * (7 - k)) 8) ∧
            keepsMemOutside ea.toNat 8 s t
        else ended 1 t ∧ keepsMem s t) ∧
    (allowed → ea.toNat % 8 = 0 ∧ accessAdmitted s ea 8 → reservationFor s ea → accessTouchesText s ea 8 →
      if Config.drawSuccess s.draws = true then exec (.stxr rt rn dt) s = .refused (.storeIntoText ea)
      else ∃ t, exec (.stxr rt rn dt) s = .next t ∧ ended 1 t ∧ keepsMem s t)

/-- LDURS, LDURD (R250, R251): the words; where the access is aligned and admitted the bits unchanged in S[Rt] or
D[Rt], and nothing else; otherwise a Data Abort. Rests on: the encodings, the overlap of S and D and the abort are the
spec's own decisions D37, D16 and D2 (log 18). -/
def Obligations.FloatLoadsMoveBitsUnchanged : Prop :=
  ∀ (s : State) (rt rn : RegNum) (dt : BitVec 9),
    let ea := s.effAddr rn dt
    (encodesAs (.ldurs rt rn dt) (layoutD 0xBC400000 dt rn rt) ∧
      (accessAligned s false ea 4 ∧ accessAdmitted s ea 4 →
        ∃ t, exec (.ldurs rt rn dt) s = .next t ∧ writesOnlyS rt (BitVec.ofNat 32 (bytesValue s ea 4)) s t) ∧
      (¬ (accessAligned s false ea 4 ∧ accessAdmitted s ea 4) →
        ∃ t, exec (.ldurs rt rn dt) s = .next t ∧ tookException .dataAbort ea s t)) ∧
    (encodesAs (.ldurd rt rn dt) (layoutD 0xFC400000 dt rn rt) ∧
      (accessAligned s false ea 8 ∧ accessAdmitted s ea 8 →
        ∃ t, exec (.ldurd rt rn dt) s = .next t ∧ writesOnlyD rt (BitVec.ofNat 64 (bytesValue s ea 8)) s t) ∧
      (¬ (accessAligned s false ea 8 ∧ accessAdmitted s ea 8) →
        ∃ t, exec (.ldurd rt rn dt) s = .next t ∧ tookException .dataAbort ea s t))

/-- STURS, STURD (R252, R253), over a memory in canonical form: the words; the bits of S[Rt] or D[Rt] big-endian at
the effective address and nothing else, the refusal of a store into the text, or a Data Abort. Rests on: the
encodings, the abort and the refusal are the spec's own decisions D37, D2 and D20. -/
def Obligations.FloatStoresWriteOnlyTheirBytes : Prop :=
  ∀ (s : State) (rt rn : RegNum) (dt : BitVec 9), Memory.wf s.mem = true →
    (encodesAs (.sturs rt rn dt) (layoutD 0xBC000000 dt rn rt) ∧
      storesAt (.sturs rt rn dt) (s.effAddr rn dt) 4 ((s.readS rt).setWidth 64) s) ∧
    (encodesAs (.sturd rt rn dt) (layoutD 0xFC000000 dt rn rt) ∧
      storesAt (.sturd rt rn dt) (s.effAddr rn dt) 8 (s.readD rt) s)

/-- R53: an n-byte read is the sum of its bytes, the one at the lowest address the most significant, and an n-byte
write puts byte k of the value, counted from the most significant, at address a + k, and changes no other byte. -/
def Obligations.MemoryIsBigEndian : Prop :=
  ∀ (s : State) (ea : Word) (n v : Nat), Memory.wf s.mem = true →
    s.memRead ea n = bytesValue s ea n ∧
    (∀ k, k < n → (s.memWrite ea n v).readByte (ea.toNat + k) = BitVec.ofNat 8 (v / 256 ^ (n - 1 - k))) ∧
    keepsMemOutside ea.toNat n s (s.memWrite ea n v)

/-- R55: a narrow read inside the bytes of a wider store sees the part of the value that R53 placed there; with R55's
doubleword as the instance. Rests on: the spec derives this itself from its byte-order rule. -/
def Obligations.NarrowReadSeesPartOfWiderStore : Prop :=
  (∀ (s : State) (a : Word) (n j m v : Nat), Memory.wf s.mem = true → j + m ≤ n → a.toNat + n ≤ 2 ^ 64 → 0 < m →
    (s.memWrite a n v).memRead (a + BitVec.ofNat 64 j) m = v / 256 ^ (n - j - m) % 256 ^ m) ∧
  ∀ (s : State) (a : Word), Memory.wf s.mem = true → a.toNat + 8 ≤ 2 ^ 64 →
    let t := s.memWrite a 8 0x1122334455667788
    t.memRead a 1 = 0x11 ∧ t.memRead (a + 7) 1 = 0x88 ∧ t.memRead a 2 = 0x1122 ∧ t.memRead (a + 4) 4 = 0x55667788 ∧
      t.memRead a 4 = 0x11223344

/-- A load returns what the store before it to the same address wrote (R65), for each width, over a memory in
canonical form: the doubleword, the word sign-extended, the halfword and byte zero-extended, and the floating-point
forms. Rests on: program order is the spec's own decision D19 (log 27). -/
def Obligations.LoadReturnsLatestStore : Prop :=
  ∀ (s : State) (rt rd rn : RegNum) (dt : BitVec 9), Memory.wf s.mem = true →
    let ea := s.effAddr rn dt
    let pair (st ld : Instr) (n : Nat) (after : State → Prop) : Prop :=
      accessAligned s false ea n → accessAdmitted s ea n → ¬ accessTouchesText s ea n →
        ∃ t u, exec st s = .next t ∧ exec ld t = .next u ∧ after u ∧ u.pc = s.pc + 8
    let reads (v : Word) (u : State) : Prop := u.readX rd = if rd = 31 then 0 else v
    pair (.stur rt rn dt) (.ldur rd rn dt) 8 (reads (s.readX rt)) ∧
    pair (.sturw rt rn dt) (.ldursw rd rn dt) 4 (reads (((s.readX rt).setWidth 32).signExtend 64)) ∧
    pair (.sturh rt rn dt) (.ldurh rd rn dt) 2 (reads (((s.readX rt).setWidth 16).setWidth 64)) ∧
    pair (.sturb rt rn dt) (.ldurb rd rn dt) 1 (reads (((s.readX rt).setWidth 8).setWidth 64)) ∧
    pair (.sturd rt rn dt) (.ldurd rd rn dt) 8 (fun u => u.readD rd = s.readD rt) ∧
    pair (.sturs rt rn dt) (.ldurs rd rn dt) 4 (fun u => u.readS rd = s.readS rt)

/-! ### Floating point -/

/-- FADDS, FSUBS, FMULS, FDIVS (R239, R247, R245, R243): the words, the result of the machine's record FP in S[Rd],
and nothing else; FP gives what the parameter lists and otherwise the default. Rests on: the upper half is the spec's
own decision D16 (log 18), FP its decision D15; how State holds FP is the model's choice (log 34). -/
def Obligations.SingleArithmeticWritesOnlyDestination : Prop :=
  ∀ (s : State) (rd rn rm : RegNum),
    givesListed s.params.fp.single fp32 (numerics32 s.params.fp) ∧
    (encodesAs (.fadds rd rn rm) (layoutR 0x1E202800 rm rn rd) ∧
      ∃ t, exec (.fadds rd rn rm) s = .next t ∧ writesOnlyS rd (numerics32 s.params.fp .add (s.readS rn) (s.readS rm)) s t) ∧
    (encodesAs (.fsubs rd rn rm) (layoutR 0x1E203800 rm rn rd) ∧
      ∃ t, exec (.fsubs rd rn rm) s = .next t ∧ writesOnlyS rd (numerics32 s.params.fp .sub (s.readS rn) (s.readS rm)) s t) ∧
    (encodesAs (.fmuls rd rn rm) (layoutR 0x1E200800 rm rn rd) ∧
      ∃ t, exec (.fmuls rd rn rm) s = .next t ∧ writesOnlyS rd (numerics32 s.params.fp .mul (s.readS rn) (s.readS rm)) s t) ∧
    (encodesAs (.fdivs rd rn rm) (layoutR 0x1E201800 rm rn rd) ∧
      ∃ t, exec (.fdivs rd rn rm) s = .next t ∧ writesOnlyS rd (numerics32 s.params.fp .div (s.readS rn) (s.readS rm)) s t)

/-- FADDD, FSUBD, FMULD, FDIVD (R240, R248, R246, R244): the words, the result of the machine's record FP in D[Rd],
and nothing else; FP gives what the parameter lists and otherwise the default. Rests on: FP is the spec's own decision
D15; how State holds FP is the model's choice (log 34). -/
def Obligations.DoubleArithmeticWritesOnlyDestination : Prop :=
  ∀ (s : State) (rd rn rm : RegNum),
    givesListed s.params.fp.double fp64 (numerics64 s.params.fp) ∧
    (encodesAs (.faddd rd rn rm) (layoutR 0x1E602800 rm rn rd) ∧
      ∃ t, exec (.faddd rd rn rm) s = .next t ∧ writesOnlyD rd (numerics64 s.params.fp .add (s.readD rn) (s.readD rm)) s t) ∧
    (encodesAs (.fsubd rd rn rm) (layoutR 0x1E603800 rm rn rd) ∧
      ∃ t, exec (.fsubd rd rn rm) s = .next t ∧ writesOnlyD rd (numerics64 s.params.fp .sub (s.readD rn) (s.readD rm)) s t) ∧
    (encodesAs (.fmuld rd rn rm) (layoutR 0x1E600800 rm rn rd) ∧
      ∃ t, exec (.fmuld rd rn rm) s = .next t ∧ writesOnlyD rd (numerics64 s.params.fp .mul (s.readD rn) (s.readD rm)) s t) ∧
    (encodesAs (.fdivd rd rn rm) (layoutR 0x1E601800 rm rn rd) ∧
      ∃ t, exec (.fdivd rd rn rm) s = .next t ∧ writesOnlyD rd (numerics64 s.params.fp .div (s.readD rn) (s.readD rm)) s t)

/-- FCMPS, FCMPD (R241, R242): the words (Rd zero), the flags literal of the relation of the two operands (Notes (10);
FCMP_UNORDERED_FLAGS for a NaN), and nothing else. Rests on: the literal order and the unordered flags are the spec's
own decisions D12 and D13 (logs 17, 30). -/
def Obligations.FloatComparesSetOnlyFlags : Prop :=
  ∀ (s : State) (rn rm : RegNum),
    let outcome (i : Instr) (rel : FpRelation) : Prop :=
      ∃ t, exec i s = .next t ∧ keepsX s t ∧ keepsD s t ∧ keepsMem s t ∧ keepsException s t ∧ keepsMonitor s t ∧
        keepsLaunch s t ∧ t.pc = s.pc + 4 ∧
        match rel with
        | .equal => t.flags = flagsOfLiteral s.params.flagsLiteralOrder 0b0110
        | .less => t.flags = flagsOfLiteral s.params.flagsLiteralOrder 0b1000
        | .greater => t.flags = flagsOfLiteral s.params.flagsLiteralOrder 0b0010
        | .unordered => ∀ l, s.params.fcmpUnorderedFlags = .fixed l →
            t.flags = flagsOfLiteral s.params.flagsLiteralOrder l
    (encodesAs (.fcmps rn rm) (layoutR 0x1E202000 rm rn 0) ∧
      outcome (.fcmps rn rm) (fpCompare .single (s.readS rn).toNat (s.readS rm).toNat)) ∧
    (encodesAs (.fcmpd rn rm) (layoutR 0x1E602000 rm rn 0) ∧
      outcome (.fcmpd rn rm) (fpCompare .double (s.readD rn).toNat (s.readD rm).toNat))

/-- R238: a NaN is unordered; finite operands compare as the rational numbers that R230 and R233 give them, so +0
equals -0; minus infinity is below every finite number and plus infinity above; and the flags of each relation, as {N,
Z, C, V}, satisfy exactly the conditions of R238's table. Rests on: the value of a denormal, the ordering of denormals
and the default for unordered are [from general knowledge, not in source] in the spec (D12, D13; log 25). -/
def Obligations.FloatCompareOrdersIeeeValues : Prop :=
  (∀ f, f = FpFormat.single ∨ f = FpFormat.double → ∀ x y : Nat,
    (fpCompare f x y = .unordered ↔ fpObject f x = .nan ∨ fpObject f y = .nan) ∧
    (fpFinite f x → fpFinite f y →
      (fpCompare f x y = .less ↔ fpRat f x < fpRat f y) ∧ (fpCompare f x y = .equal ↔ fpRat f x = fpRat f y) ∧
      (fpCompare f x y = .greater ↔ fpRat f y < fpRat f x)) ∧
    (fpObject f x = .infinity → fpFinite f y →
      fpCompare f x y = (if fpSign f x then .less else .greater) ∧
      fpCompare f y x = (if fpSign f x then .greater else .less)) ∧
    (fpObject f x = .infinity → fpObject f y = .infinity →
      fpCompare f x y = (if fpSign f x = fpSign f y then .equal else if fpSign f x then .less else .greater))) ∧
  ∀ (r : FpRelation) (c : Cond),
    condHolds c (flagsOfLiteral .nzcv (compareLiteral r 0b0011)) = true ↔
      c ∈ (match r with
        | .equal => [Cond.eq, .hs, .pl, .vc, .ls, .ge, .le]
        | .less => [Cond.ne, .lo, .mi, .vc, .ls, .lt, .le]
        | .greater => [Cond.ne, .hs, .pl, .vc, .hi, .ge, .gt]
        | .unordered => [Cond.ne, .hs, .pl, .vs, .hi, .lt, .le])

/-- R235: by default the record FP gives, for finite operands (and a divisor other than zero), the pattern of the
nearest finite value to the exact rational result, ties to an even fraction, denormals kept; and the infinity of the
result's sign where the exact result is at least half a unit in the last place above the largest finite value. Rests
on: IEEE rounding is the spec's own default, decision D15: 'A claim that depends on a rounded result rests on the
assumed default' (log 25). -/
def Obligations.FloatArithmeticIsCorrectlyRounded : Prop :=
  roundsCorrectly .single (numerics32 Params.default.fp) ∧ roundsCorrectly .double (numerics64 Params.default.fp)

/-- R235: the results of the default record FP where an operand is a NaN or an infinity or a divisor is zero, and the
signs of its results: any NaN operand, 0/0, ∞/∞, 0 * ∞ and ∞ - ∞ give some NaN; every other result with an infinite
operand is the infinity (or, under a division by one, the zero) of IEEE 754; a finite non-zero number divided by zero
gives an infinity with the exclusive-or of the signs; an exact zero sum of opposite signs is +0. Rests on: the default
instance of FP is the spec's own decision D15 (log 14); the signs that it does not spell out and infinities with
finite operands are IEEE 754's (log 25). -/
def Obligations.FloatSpecialOperands : Prop :=
  let single := numerics32 Params.default.fp
  let double := numerics64 Params.default.fp
  (givesNaN .single single ∧ givesInfinity .single single ∧ givesSigns .single single) ∧
  givesNaN .double double ∧ givesInfinity .double double ∧ givesSigns .double double

/-- The NaN draw (R235, log 14): every draw is a NaN of the format, and every NaN of the format is some draw, so the
free value leaves out no NaN. Rests on: which NaN results is left open by the spec ('a draw'); how it is drawn is the
model's choice, log 14. -/
def Obligations.EveryNaNPatternIsADraw : Prop :=
  ∀ f, f = FpFormat.single ∨ f = FpFormat.double →
    (∀ d, fpObject f (fpNaN f d) = .nan ∧ fpNaN f d < 2 ^ (1 + f.expBits + f.fracBits)) ∧
    ∀ x, x < 2 ^ (1 + f.expBits + f.fracBits) → fpObject f x = .nan → ∃ d, fpNaN f d = x

/-- R37: D[i] and S[i] are views of one register: S[i] is the low half of D[i], and a write of S[i] keeps the low half
and puts what S_WRITE_UPPER says above it. Rests on: the overlap and the zeroing are the spec's own decision D16 (log
18). -/
def Obligations.SingleIsLowHalfOfDouble : Prop :=
  ∀ (s : State) (r : RegNum) (v : Word) (u : BitVec 32),
    s.readS r = (s.readD r).setWidth 32 ∧ (s.writeD r v).readD r = v ∧ (s.writeD r v).readS r = v.setWidth 32 ∧
    (s.writeS r u).readS r = u ∧
    (s.params.sWriteUpper = Params.default.sWriteUpper → (s.writeS r u).readD r = u.setWidth 64) ∧
    keepsDBut r s (s.writeD r v) ∧ keepsDBut r s (s.writeS r u)

/-! ### Exceptions, steps and runs -/

/-- R284: a fetch at a pc that is not a multiple of 4 takes Misaligned PC, whatever memory holds. Rests on: the cause
and the entry are the spec's own decisions D3 and D23 (log 1). -/
def Obligations.MisalignedPcIsTakenAtFetch : Prop :=
  ∀ s : State, s.fault = none → s.haltPc ≠ some s.pc → s.pc.toNat % 4 ≠ 0 →
    ∃ t, step s = .next t ∧ tookException .misalignedPC s.pc s t

/-- R285: a fetch at an aligned pc whose four bytes are not all inside the text takes Instruction Abort. Rests on: the
cause and the entry are the spec's own decisions D18, D20 and D23 (logs 1, 22). -/
def Obligations.FetchOutsideTextAborts : Prop :=
  ∀ s : State, s.fault = none → s.haltPc ≠ some s.pc → s.pc.toNat % 4 = 0 → ¬ pcInText s →
    ∃ t, step s = .next t ∧ tookException .instructionAbort s.pc s t

/-- R104, R283: a fetched word that does not decode takes the exception of class 0, with the word as its info. Rests
on: the connection of class 0 with unallocated words is the spec's own decision D4 (log 24). -/
def Obligations.UnallocatedWordTakesUnknown : Prop :=
  ∀ (s : State) (e : DecodeError), s.fault = none → s.haltPc ≠ some s.pc → s.pc.toNat % 4 = 0 → pcInText s →
    decodeWord s.params (BitVec.ofNat 32 (bytesValue s s.pc 4)) = .error e →
    ∃ t, step s = .next t ∧ tookException .unknown (BitVec.ofNat 64 (bytesValue s s.pc 4)) s t

/-- R5: where the four bytes at the pc, read big-endian (R56), decode to an instruction, a step is that instruction's
meaning, with nothing added. Rests on: the byte order of a fetch is the spec's own decision D1. -/
def Obligations.StepRunsTheDecodedInstruction : Prop :=
  ∀ (s : State) (i : Instr), s.fault = none → s.haltPc ≠ some s.pc → s.pc.toNat % 4 = 0 → pcInText s →
    decodeWord s.params (BitVec.ofNat 32 (bytesValue s s.pc 4)) = .ok i → step s = exec i s

/-- R289: the class a step raises is the first that applies: Misaligned PC, Instruction Abort, Unknown, Data Abort;
and all it leaves is what taking that exception leaves (R282, R291). Rests on: the priority is the spec's own decision
D34. -/
def Obligations.RaisedClassIsTheFirstThatApplies : Prop :=
  ∀ (s t : State) (r : FaultRecord), step s = .next t → t.fault = some r →
    tookException r.cls r.info s t ∧
    (s.pc.toNat % 4 ≠ 0 → r.cls = .misalignedPC) ∧
    (s.pc.toNat % 4 = 0 → ¬ pcInText s → r.cls = .instructionAbort) ∧
    (s.pc.toNat % 4 = 0 → pcInText s →
      (∀ e, decodeWord s.params (BitVec.ofNat 32 (bytesValue s s.pc 4)) = .error e → r.cls = .unknown) ∧
      ∀ i, decodeWord s.params (BitVec.ofNat 32 (bytesValue s s.pc 4)) = .ok i →
        r.cls = .dataAbort ∧ (isLoad i = true ∨ isStore i = true))

/-- R290: a state with its fault record set has no further step and is not a final state, however long it is run.
Rests on: that an exception is terminal is the spec's own decision D23 (log 1). -/
def Obligations.ExceptionIsTerminal : Prop :=
  ∀ (s : State) (r : FaultRecord), s.fault = some r →
    ¬ s.final ∧ ∀ k, Sys2Proof.core.run (k + 1) s = .fault (.exceptionTaken r)

/-- R314: the run has ended exactly at a final state: pc is HALT_PC and there is no fault. No fetch is made there: the
answer does not depend on what memory holds. Rests on: the end of a run is the spec's own choice, decision D27 (log
2). -/
def Obligations.RunEndsExactlyAtHaltPc : Prop :=
  ∀ s : State, (step s = .refused .runEnded ↔ s.final) ∧
    (s.final → ∀ (m : Memory) (x : MemRange), step { s with mem := m, text := x } = .refused .runEnded)

/-- R287: only the fourteen loads and stores raise an exception when executed, and only a Data Abort. Rests on: the
table of what can raise what is derived by the spec from its own decisions. -/
def Obligations.OnlyMemoryInstructionsRaise : Prop :=
  ∀ (i : Instr) (s t : State), exec i s = .next t →
    t.fault = s.fault ∨ ((isLoad i = true ∨ isStore i = true) ∧ ∃ ea, tookException .dataAbort ea s t)

/-- R28, R29: an instruction that is no branch moves the pc on by 4 (or takes a Data Abort), and B, BL, B.cond, CBZ
and CBNZ keep the pc a multiple of 4, so only BR can make it misaligned. Rests on: pc + 4 is derived by the spec, its
decision D21. -/
def Obligations.OnlyBranchesRedirectThePc : Prop :=
  ∀ (i : Instr) (s t : State), exec i s = .next t →
    (isBranch i = false → t.pc = s.pc + 4 ∨ ∃ ea, tookException .dataAbort ea s t) ∧
    ((∀ rt, i ≠ .br rt) → s.pc.toNat % 4 = 0 → t.pc.toNat % 4 = 0)

/-- R31: only the eight named instructions write the flags, and only B.cond reads them: every other instruction does
the same whatever the flags are. -/
def Obligations.OnlyNamedInstructionsTouchFlags : Prop :=
  ∀ (i : Instr) (s : State),
    (∀ t, writesFlags i = false → exec i s = .next t → t.flags = s.flags) ∧
    ((∀ c a, i ≠ .bCond c a) → ∀ f : Flags,
      (writesFlags i = true → exec i (s.setFlags f) = exec i s) ∧
      (writesFlags i = false →
        (∀ t, exec i s = .next t → exec i (s.setFlags f) = .next (t.setFlags f)) ∧
        ∀ r, exec i s = .refused r → exec i (s.setFlags f) = .refused r))

/-- R52: only the stores change data memory, only the fourteen loads and stores depend on it, and a fetch reads the
four bytes at the pc. Rests on: that a fetched word is big-endian is the spec's own decision D1. -/
def Obligations.OnlyLoadsAndStoresTouchMemory : Prop :=
  (∀ (i : Instr) (s t : State), exec i s = .next t →
    (isStore i = false → keepsMem s t) ∧
    (isLoad i = false → isStore i = false → ∀ m : Memory, exec i (s.setMem m) = .next (t.setMem m))) ∧
  ∀ (s : State) (w : IWord), s.fetch = .ok w → w = BitVec.ofNat 32 (bytesValue s s.pc 4)

/-- R191: LDXR arms the monitor, every STXR clears it, taking an exception clears it, and nothing else changes it.
Rests on: the monitor is the spec's own decision D8 (log 28). -/
def Obligations.MonitorChangesOnlyByThePair : Prop :=
  ∀ (i : Instr) (s t : State), exec i s = .next t →
    (∀ rt rn dt, i = .ldxr rt rn dt →
      t.monitor = some (s.effAddr rn dt) ∨ tookException .dataAbort (s.effAddr rn dt) s t) ∧
    (∀ rt rn dt, i = .stxr rt rn dt → t.monitor = none) ∧
    ((∀ rt rn dt, i ≠ .ldxr rt rn dt ∧ i ≠ .stxr rt rn dt) →
      t.monitor = s.monitor ∨ (t.monitor = none ∧ ∃ ea, tookException .dataAbort ea s t))

/-- R23, R24, R237: every instruction leaves every integer register but its own destination, and every floating-point
register but its own destination, as it was; ESR is written only by taking an exception (R41). Rests on: that only
exception entry writes ESR is the spec's own decision D23. -/
def Obligations.OnlyDestinationRegistersChange : Prop :=
  ∀ (i : Instr) (s t : State), exec i s = .next t →
    (∀ r, destX i ≠ some r → t.readX r = s.readX r) ∧ (∀ r, destD i ≠ some r → t.readD r = s.readD r) ∧
    (t.esr = s.esr ∨ ∃ ea, tookException .dataAbort ea s t)

/-- R22: register 31 reads 0 in every state, a write of it changes nothing, an instruction whose destination is 31
changes no integer register, and a base register 31 gives base 0. Rests on: that a write is discarded is derived by
the spec, its decision D22. -/
def Obligations.ZeroRegisterIsConstant : Prop :=
  (∀ s : State, s.readX 31 = 0) ∧ (∀ (s : State) (v : Word), s.writeX 31 v = s) ∧
  (∀ (i : Instr) (s t : State), destX i = some 31 → exec i s = .next t → keepsX s t) ∧
  ∀ (s : State) (dt : BitVec 9), s.effAddr 31 dt = BitVec.ofInt 64 dt.toInt

/-- The invariant: canonical memory that lists only admitted bytes, a reservation for an aligned admitted doubleword,
and a fault record that agrees with ESR, the monitor and the pc. Every step keeps it. Rests on: the canonical form is
the model's choice (log 9); the rest follows the spec's decisions D8, D18, D23 and D38. -/
def Obligations.StepKeepsInvariant : Prop :=
  ∀ s t : State, s.inv → step s = .next t → t.inv

/-- The invariant holds at reset. Rests on: the reset state is the model's choice (logs 4 to 10). -/
def Obligations.ResetMeetsInvariant : Prop :=
  State.reset.inv

/-- R66, R4: over any number of steps no byte of the program text changes and what the launch record fixed stays, so
the word at any text address is the same for ever. Rests on: the refusal of stores into the text is the spec's own
decision D20 (log 20). -/
def Obligations.ProgramTextNeverChanges : Prop :=
  ∀ (k : Nat) (s t : State), Memory.wf s.mem = true → Sys2Proof.core.run k s = .next t →
    keepsLaunch s t ∧ ∀ a, s.text.contains a = true → t.readByte a = s.readByte a

/-- R311, R312, R51: the state of a well-formed launch record meets the invariant, holds what the record gives, has
monitor and fault none, and its memory is the record's contents and no more: a byte in no launch range is not
admitted. Rests on: the launch record is the spec's own decision D26; what it does not give is a free value (log 26)
of which nothing is said. -/
def Obligations.LaunchStateHoldsTheRecord : Prop :=
  ∀ l : Launch, launchWellFormed l = true →
    l.state.inv ∧ l.state.pc = l.entry ∧ l.state.monitor = none ∧ l.state.fault = none ∧
    l.state.haltPc = some l.haltPc ∧ l.state.text = l.text ∧ l.state.params = l.params ∧
    (∀ f, l.flags = some f → l.state.flags = f) ∧
    (∀ r v, r ≠ 31 → l.regs.find? (fun e => e.1 == r) = some (r, v) → l.state.readX r = v) ∧
    (∀ r v, l.fregs.find? (fun e => e.1 == r) = some (r, v) → l.state.readD r = v) ∧
    (∀ g ∈ l.mem, ∀ k, ∀ h : k < g.bytes.length,
      l.state.admits (g.base + k) = true ∧ l.state.readByte (g.base + k) = g.bytes[k]) ∧
    ∀ a, (∀ g ∈ l.mem, a < g.base ∨ g.base + g.bytes.length ≤ a) → l.state.admits a = false

/-- What the spec states of the machine before it runs (R22, R44, R46, R48): monitor none, fault none, register 31 is
0. Every other reset value is the model's own choice (logs 4 to 10) and is not stated here. Rests on: the monitor and
the fault record are the spec's own decisions D8 and D23. -/
def Obligations.ResetHoldsWhatTheSpecStates : Prop :=
  State.reset.monitor = none ∧ State.reset.fault = none ∧ State.reset.readX 31 = 0

/-- The loader of log 3: after a word is placed, the very next step is the meaning of the instruction it decodes to.
Rests on: withFetchWord is the model's own loader, log 3. -/
def Obligations.PlacedWordRunsNext : Prop :=
  ∀ (s : State) (w : IWord) (i : Instr), Memory.wf s.mem = true →
    decodeWord s.params w = .ok i → step (s.withFetchWord 32 w.toNat) = exec i (s.withFetchWord 32 w.toNat)

/-! ### Encoding -/

/-- Every instruction, encoded, decodes to itself, under every setting of the parameters; B.cond where COND_TABLE
assigns its condition. Rests on: that an encoder writes zeros in unused fields is the spec's own decision D5 (log 31).
-/
def Obligations.DecodeOfEncodeIsIdentity : Prop :=
  ∀ (p : Params) (i : Instr), (∀ c a, i = .bCond c a → condAssigned p.condTable c = true) →
    decodeWord p (encode p i) = .ok i

/-- Under the strict policy every word has one meaning: a word that decodes is the encoding of what it decodes to.
Rests on: the strict policy is the spec's own decision D5 (log 31). -/
def Obligations.StrictWordIsItsEncoding : Prop :=
  ∀ (p : Params) (w : IWord) (i : Instr), p.unusedFieldPolicy = .strict → decodeWord p w = .ok i → encode p i = w

/-- R98, R100: under the default parameters a word decodes exactly if a row of the opcode table covers it (and
B.cond's condition is assigned, R161); the row is the instruction's; and no word is covered by two rows. Rests on:
unused fields, BR's field, the conditions and UMULH's shamt are the spec's own decisions D5, D6, D11 and D32. -/
def Obligations.DecodingAgreesWithOpcodeTable : Prop :=
  (∀ (w : IWord) (i : Instr), decodeWord Params.default w = .ok i →
    ∃ r ∈ opcodeTable, r.covers w = true ∧ r.mnemonic = mnemonicOf i) ∧
  (∀ (w : IWord) (r : OpcodeRow), r ∈ opcodeTable → r.covers w = true →
    (r.mnemonic = "B.cond" → (w.extractLsb' 0 4).toNat < 14) →
    ∃ i, decodeWord Params.default w = .ok i ∧ mnemonicOf i = r.mnemonic) ∧
  ∀ (w : IWord) (r q : OpcodeRow), r ∈ opcodeTable → q ∈ opcodeTable → r.covers w = true → q.covers w = true → r = q

/-- Words of 95_test_vectors.md section 2, one or more of each format, and words that must not decode. -/
def Obligations.SampleWordsDecode : Prop :=
  decodeTableWord 32 0x8B0B0149 = some (.add 9 10 11) ∧
  decodeTableWord 32 0xF1000441 = some (.subis 1 2 1) ∧
  decodeTableWord 32 0x17FFFFFF = some (.b 0x3FFFFFF) ∧
  decodeTableWord 32 0x54FFFFCB = some (.bCond 0b1011 0x7FFFE) ∧
  decodeTableWord 32 0xF85F8149 = some (.ldur 9 10 0x1F8) ∧
  decodeTableWord 32 0x9BC37C41 = some (.umulh 1 2 3) ∧
  decodeTableWord 32 0x1E232040 = some (.fcmps 2 3) ∧
  decodeTableWord 32 0xF2B7DDE1 = some (.movk 1 1 0xBEEF) ∧
  decodeTableWord 32 0x00000000 = none ∧ decodeTableWord 32 0xD61F03C0 = none

/-- R91, R92, R93: the sign-extended immediates as integers, their ranges and their multiples of 4. Rests on: which
bit of the 19-bit field is the sign is the spec's repair C14. -/
def Obligations.AddressImmediatesSignExtend : Prop :=
  (∀ a : BitVec 26, (branchAddr a).toInt = 4 * a.toInt ∧ -2 ^ 27 ≤ (branchAddr a).toInt ∧
    (branchAddr a).toInt ≤ 2 ^ 27 - 4) ∧
  (∀ a : BitVec 19, (condBranchAddr a).toInt = 4 * a.toInt ∧ -2 ^ 20 ≤ (condBranchAddr a).toInt ∧
    (condBranchAddr a).toInt ≤ 2 ^ 20 - 4) ∧
  ∀ d : BitVec 9, (dtAddr d).toInt = d.toInt ∧ -256 ≤ (dtAddr d).toInt ∧ (dtAddr d).toInt ≤ 255

/-- R40 and the class table of R281: ESR's three fields are bits 31:26, 25 and 24:0, and the ten classes have the ten
values that the table gives in place. -/
def Obligations.EsrFieldsAndClassValues : Prop :=
  (∀ (ec : BitVec 6) (il : BitVec 1) (iss : BitVec 25),
    (esrOf ec il iss).toNat = ec.toNat * 2 ^ 26 + il.toNat * 2 ^ 25 + iss.toNat) ∧
  [ExceptionClass.unknown, .simdFpDisabled, .illegalExecutionState, .supervisorCall, .instructionAbort, .misalignedPC,
    .dataAbort, .floatingPoint, .dataBreakpoint, .swBreakpoint].map (fun c => (exceptionCode c).toNat * 2 ^ 26) =
    [0x00000000, 0x1C000000, 0x38000000, 0x44000000, 0x80000000, 0x88000000, 0x90000000, 0xA0000000, 0xD0000000,
      0xE0000000]

/-! ### Pseudoinstructions -/

/-- CMP, CMPI, LDA, MOV (R270 to R273): the words of their expansions and their effects; and the word of R105, which
only moves the pc on. Rests on: the expansions are the spec's own decision D17 (log 33). -/
def Obligations.PseudoinstructionsDoWhatTheSourceSays : Prop :=
  ∀ (s : State) (rd rn rm : RegNum) (imm : BitVec 12) (k : BitVec 9),
    (encodesAs (pseudoCmp rn rm) (0xEB000000 ||| (rm.setWidth 32 <<< 16) ||| (rn.setWidth 32 <<< 5) ||| 31) ∧
      ∃ t, exec (pseudoCmp rn rm) s = .next t ∧ keepsX s t ∧ t.flags = subFlags (s.readX rn) (s.readX rm) ∧
        keepsD s t ∧ keepsMem s t ∧ keepsException s t ∧ keepsMonitor s t ∧ keepsLaunch s t ∧ t.pc = s.pc + 4) ∧
    (encodesAs (pseudoCmpi rn imm) (0xF1000000 ||| (imm.setWidth 32 <<< 10) ||| (rn.setWidth 32 <<< 5) ||| 31) ∧
      ∃ t, exec (pseudoCmpi rn imm) s = .next t ∧ keepsX s t ∧
        t.flags = subFlags (s.readX rn) (BitVec.ofNat 64 imm.toNat) ∧
        keepsD s t ∧ keepsMem s t ∧ keepsException s t ∧ keepsMonitor s t ∧ keepsLaunch s t ∧ t.pc = s.pc + 4) ∧
    (pseudoLda rd rn k =
        (if 0 ≤ k.toInt then .addi rd rn (BitVec.ofInt 12 k.toInt) else .subi rd rn (BitVec.ofInt 12 (-k.toInt))) ∧
      ∃ t, exec (pseudoLda rd rn k) s = .next t ∧ writesOnlyX rd (s.readX rn + BitVec.ofInt 64 k.toInt) s t) ∧
    (encodesAs (pseudoMov rd rn) (0x8B1F0000 ||| (rn.setWidth 32 <<< 5) ||| rd.setWidth 32) ∧
      ∃ t, exec (pseudoMov rd rn) s = .next t ∧ writesOnlyX rd (s.readX rn) s t) ∧
    (encodesAs doNothing 0x8B1F03FF ∧
      ∃ t, exec doNothing s = .next t ∧ writesOnlyPc (s.pc + 4) s t)
end

