-- ==== Sys2Proof/Laws/Encode.lean ====
section
/-! SUPPORT. The fields of an encoded word, format by format (30_encoding.md R82 to R88), and a word rebuilt from its
fields. -/

namespace Sys2Proof

/-! ### encodeR -/

@[simp] theorem opcode6_encodeR (op : BitVec 11) (rm : RegNum) (shamt : BitVec 6) (rn rd : RegNum) :
    opcode6 (encodeR op rm shamt rn rd) = op.extractLsb' 5 6 := by
  apply BitVec.eq_of_getLsbD_eq
  intro i hi
  simp only [opcode6, encodeR, BitVec.getLsbD_extractLsb', BitVec.getLsbD_append, hi, decide_true, Bool.true_and]
  split_ifs <;> first | omega | (congr 1; omega)

@[simp] theorem opcode8_encodeR (op : BitVec 11) (rm : RegNum) (shamt : BitVec 6) (rn rd : RegNum) :
    opcode8 (encodeR op rm shamt rn rd) = op.extractLsb' 3 8 := by
  apply BitVec.eq_of_getLsbD_eq
  intro i hi
  simp only [opcode8, encodeR, BitVec.getLsbD_extractLsb', BitVec.getLsbD_append, hi, decide_true, Bool.true_and]
  split_ifs <;> first | omega | (congr 1; omega)

@[simp] theorem opcode9_encodeR (op : BitVec 11) (rm : RegNum) (shamt : BitVec 6) (rn rd : RegNum) :
    opcode9 (encodeR op rm shamt rn rd) = op.extractLsb' 2 9 := by
  apply BitVec.eq_of_getLsbD_eq
  intro i hi
  simp only [opcode9, encodeR, BitVec.getLsbD_extractLsb', BitVec.getLsbD_append, hi, decide_true, Bool.true_and]
  split_ifs <;> first | omega | (congr 1; omega)

@[simp] theorem opcode10_encodeR (op : BitVec 11) (rm : RegNum) (shamt : BitVec 6) (rn rd : RegNum) :
    opcode10 (encodeR op rm shamt rn rd) = op.extractLsb' 1 10 := by
  apply BitVec.eq_of_getLsbD_eq
  intro i hi
  simp only [opcode10, encodeR, BitVec.getLsbD_extractLsb', BitVec.getLsbD_append, hi, decide_true, Bool.true_and]
  split_ifs <;> first | omega | (congr 1; omega)

@[simp] theorem opcode11_encodeR (op : BitVec 11) (rm : RegNum) (shamt : BitVec 6) (rn rd : RegNum) :
    opcode11 (encodeR op rm shamt rn rd) = op := by
  apply BitVec.eq_of_getLsbD_eq
  intro i hi
  simp only [opcode11, encodeR, BitVec.getLsbD_extractLsb', BitVec.getLsbD_append, hi, decide_true, Bool.true_and]
  split_ifs <;> first | omega | (congr 1; omega)

@[simp] theorem fieldRd_encodeR (op : BitVec 11) (rm : RegNum) (shamt : BitVec 6) (rn rd : RegNum) :
    fieldRd (encodeR op rm shamt rn rd) = rd := by
  apply BitVec.eq_of_getLsbD_eq
  intro i hi
  simp only [fieldRd, encodeR, BitVec.getLsbD_extractLsb', BitVec.getLsbD_append, hi, decide_true, Bool.true_and]
  split_ifs <;> first | omega | (congr 1; omega)

@[simp] theorem fieldRn_encodeR (op : BitVec 11) (rm : RegNum) (shamt : BitVec 6) (rn rd : RegNum) :
    fieldRn (encodeR op rm shamt rn rd) = rn := by
  apply BitVec.eq_of_getLsbD_eq
  intro i hi
  simp only [fieldRn, encodeR, BitVec.getLsbD_extractLsb', BitVec.getLsbD_append, hi, decide_true, Bool.true_and]
  split_ifs <;> first | omega | (congr 1; omega)

@[simp] theorem fieldRm_encodeR (op : BitVec 11) (rm : RegNum) (shamt : BitVec 6) (rn rd : RegNum) :
    fieldRm (encodeR op rm shamt rn rd) = rm := by
  apply BitVec.eq_of_getLsbD_eq
  intro i hi
  simp only [fieldRm, encodeR, BitVec.getLsbD_extractLsb', BitVec.getLsbD_append, hi, decide_true, Bool.true_and]
  split_ifs <;> first | omega | (congr 1; omega)

@[simp] theorem fieldShamt_encodeR (op : BitVec 11) (rm : RegNum) (shamt : BitVec 6) (rn rd : RegNum) :
    fieldShamt (encodeR op rm shamt rn rd) = shamt := by
  apply BitVec.eq_of_getLsbD_eq
  intro i hi
  simp only [fieldShamt, encodeR, BitVec.getLsbD_extractLsb', BitVec.getLsbD_append, hi, decide_true, Bool.true_and]
  split_ifs <;> first | omega | (congr 1; omega)

/-! ### encodeI -/

@[simp] theorem opcode6_encodeI (op : BitVec 10) (imm : BitVec 12) (rn rd : RegNum) :
    opcode6 (encodeI op imm rn rd) = op.extractLsb' 4 6 := by
  apply BitVec.eq_of_getLsbD_eq
  intro i hi
  simp only [opcode6, encodeI, BitVec.getLsbD_extractLsb', BitVec.getLsbD_append, hi, decide_true, Bool.true_and]
  split_ifs <;> first | omega | (congr 1; omega)

@[simp] theorem opcode8_encodeI (op : BitVec 10) (imm : BitVec 12) (rn rd : RegNum) :
    opcode8 (encodeI op imm rn rd) = op.extractLsb' 2 8 := by
  apply BitVec.eq_of_getLsbD_eq
  intro i hi
  simp only [opcode8, encodeI, BitVec.getLsbD_extractLsb', BitVec.getLsbD_append, hi, decide_true, Bool.true_and]
  split_ifs <;> first | omega | (congr 1; omega)

@[simp] theorem opcode9_encodeI (op : BitVec 10) (imm : BitVec 12) (rn rd : RegNum) :
    opcode9 (encodeI op imm rn rd) = op.extractLsb' 1 9 := by
  apply BitVec.eq_of_getLsbD_eq
  intro i hi
  simp only [opcode9, encodeI, BitVec.getLsbD_extractLsb', BitVec.getLsbD_append, hi, decide_true, Bool.true_and]
  split_ifs <;> first | omega | (congr 1; omega)

@[simp] theorem opcode10_encodeI (op : BitVec 10) (imm : BitVec 12) (rn rd : RegNum) :
    opcode10 (encodeI op imm rn rd) = op := by
  apply BitVec.eq_of_getLsbD_eq
  intro i hi
  simp only [opcode10, encodeI, BitVec.getLsbD_extractLsb', BitVec.getLsbD_append, hi, decide_true, Bool.true_and]
  split_ifs <;> first | omega | (congr 1; omega)

@[simp] theorem fieldRd_encodeI (op : BitVec 10) (imm : BitVec 12) (rn rd : RegNum) :
    fieldRd (encodeI op imm rn rd) = rd := by
  apply BitVec.eq_of_getLsbD_eq
  intro i hi
  simp only [fieldRd, encodeI, BitVec.getLsbD_extractLsb', BitVec.getLsbD_append, hi, decide_true, Bool.true_and]
  split_ifs <;> first | omega | (congr 1; omega)

@[simp] theorem fieldRn_encodeI (op : BitVec 10) (imm : BitVec 12) (rn rd : RegNum) :
    fieldRn (encodeI op imm rn rd) = rn := by
  apply BitVec.eq_of_getLsbD_eq
  intro i hi
  simp only [fieldRn, encodeI, BitVec.getLsbD_extractLsb', BitVec.getLsbD_append, hi, decide_true, Bool.true_and]
  split_ifs <;> first | omega | (congr 1; omega)

@[simp] theorem fieldAluImm_encodeI (op : BitVec 10) (imm : BitVec 12) (rn rd : RegNum) :
    fieldAluImm (encodeI op imm rn rd) = imm := by
  apply BitVec.eq_of_getLsbD_eq
  intro i hi
  simp only [fieldAluImm, encodeI, BitVec.getLsbD_extractLsb', BitVec.getLsbD_append, hi, decide_true, Bool.true_and]
  split_ifs <;> first | omega | (congr 1; omega)

/-! ### encodeD -/

@[simp] theorem opcode6_encodeD (op : BitVec 11) (dt : BitVec 9) (rn rt : RegNum) :
    opcode6 (encodeD op dt rn rt) = op.extractLsb' 5 6 := by
  apply BitVec.eq_of_getLsbD_eq
  intro i hi
  simp only [opcode6, encodeD, BitVec.getLsbD_extractLsb', BitVec.getLsbD_append, hi, decide_true, Bool.true_and]
  split_ifs <;> first | omega | (congr 1; omega)

@[simp] theorem opcode8_encodeD (op : BitVec 11) (dt : BitVec 9) (rn rt : RegNum) :
    opcode8 (encodeD op dt rn rt) = op.extractLsb' 3 8 := by
  apply BitVec.eq_of_getLsbD_eq
  intro i hi
  simp only [opcode8, encodeD, BitVec.getLsbD_extractLsb', BitVec.getLsbD_append, hi, decide_true, Bool.true_and]
  split_ifs <;> first | omega | (congr 1; omega)

@[simp] theorem opcode9_encodeD (op : BitVec 11) (dt : BitVec 9) (rn rt : RegNum) :
    opcode9 (encodeD op dt rn rt) = op.extractLsb' 2 9 := by
  apply BitVec.eq_of_getLsbD_eq
  intro i hi
  simp only [opcode9, encodeD, BitVec.getLsbD_extractLsb', BitVec.getLsbD_append, hi, decide_true, Bool.true_and]
  split_ifs <;> first | omega | (congr 1; omega)

@[simp] theorem opcode10_encodeD (op : BitVec 11) (dt : BitVec 9) (rn rt : RegNum) :
    opcode10 (encodeD op dt rn rt) = op.extractLsb' 1 10 := by
  apply BitVec.eq_of_getLsbD_eq
  intro i hi
  simp only [opcode10, encodeD, BitVec.getLsbD_extractLsb', BitVec.getLsbD_append, hi, decide_true, Bool.true_and]
  split_ifs <;> first | omega | (congr 1; omega)

@[simp] theorem opcode11_encodeD (op : BitVec 11) (dt : BitVec 9) (rn rt : RegNum) :
    opcode11 (encodeD op dt rn rt) = op := by
  apply BitVec.eq_of_getLsbD_eq
  intro i hi
  simp only [opcode11, encodeD, BitVec.getLsbD_extractLsb', BitVec.getLsbD_append, hi, decide_true, Bool.true_and]
  split_ifs <;> first | omega | (congr 1; omega)

@[simp] theorem fieldRd_encodeD (op : BitVec 11) (dt : BitVec 9) (rn rt : RegNum) :
    fieldRd (encodeD op dt rn rt) = rt := by
  apply BitVec.eq_of_getLsbD_eq
  intro i hi
  simp only [fieldRd, encodeD, BitVec.getLsbD_extractLsb', BitVec.getLsbD_append, hi, decide_true, Bool.true_and]
  split_ifs <;> first | omega | (congr 1; omega)

@[simp] theorem fieldRn_encodeD (op : BitVec 11) (dt : BitVec 9) (rn rt : RegNum) :
    fieldRn (encodeD op dt rn rt) = rn := by
  apply BitVec.eq_of_getLsbD_eq
  intro i hi
  simp only [fieldRn, encodeD, BitVec.getLsbD_extractLsb', BitVec.getLsbD_append, hi, decide_true, Bool.true_and]
  split_ifs <;> first | omega | (congr 1; omega)

@[simp] theorem fieldDt_encodeD (op : BitVec 11) (dt : BitVec 9) (rn rt : RegNum) :
    fieldDt (encodeD op dt rn rt) = dt := by
  apply BitVec.eq_of_getLsbD_eq
  intro i hi
  simp only [fieldDt, encodeD, BitVec.getLsbD_extractLsb', BitVec.getLsbD_append, hi, decide_true, Bool.true_and]
  split_ifs <;> first | omega | (congr 1; omega)

@[simp] theorem fieldOp_encodeD (op : BitVec 11) (dt : BitVec 9) (rn rt : RegNum) :
    fieldOp (encodeD op dt rn rt) = 0 := by
  apply BitVec.eq_of_getLsbD_eq
  intro i hi
  simp only [fieldOp, encodeD, BitVec.getLsbD_extractLsb', BitVec.getLsbD_append, hi, decide_true, Bool.true_and]
  split_ifs <;> first | omega | (congr 1; omega)

/-! ### encodeB -/

@[simp] theorem opcode6_encodeB (op : BitVec 6) (addr : BitVec 26) :
    opcode6 (encodeB op addr) = op := by
  apply BitVec.eq_of_getLsbD_eq
  intro i hi
  simp only [opcode6, encodeB, BitVec.getLsbD_extractLsb', BitVec.getLsbD_append, hi, decide_true, Bool.true_and]
  split_ifs <;> first | omega | (congr 1; omega)

@[simp] theorem fieldBrAddr_encodeB (op : BitVec 6) (addr : BitVec 26) :
    fieldBrAddr (encodeB op addr) = addr := by
  apply BitVec.eq_of_getLsbD_eq
  intro i hi
  simp only [fieldBrAddr, encodeB, BitVec.getLsbD_extractLsb', BitVec.getLsbD_append, hi, decide_true, Bool.true_and]
  split_ifs <;> first | omega | (congr 1; omega)

/-! ### encodeCB -/

@[simp] theorem opcode6_encodeCB (op : BitVec 8) (addr : BitVec 19) (rt : RegNum) :
    opcode6 (encodeCB op addr rt) = op.extractLsb' 2 6 := by
  apply BitVec.eq_of_getLsbD_eq
  intro i hi
  simp only [opcode6, encodeCB, BitVec.getLsbD_extractLsb', BitVec.getLsbD_append, hi, decide_true, Bool.true_and]
  split_ifs <;> first | omega | (congr 1; omega)

@[simp] theorem opcode8_encodeCB (op : BitVec 8) (addr : BitVec 19) (rt : RegNum) :
    opcode8 (encodeCB op addr rt) = op := by
  apply BitVec.eq_of_getLsbD_eq
  intro i hi
  simp only [opcode8, encodeCB, BitVec.getLsbD_extractLsb', BitVec.getLsbD_append, hi, decide_true, Bool.true_and]
  split_ifs <;> first | omega | (congr 1; omega)

@[simp] theorem fieldRd_encodeCB (op : BitVec 8) (addr : BitVec 19) (rt : RegNum) :
    fieldRd (encodeCB op addr rt) = rt := by
  apply BitVec.eq_of_getLsbD_eq
  intro i hi
  simp only [fieldRd, encodeCB, BitVec.getLsbD_extractLsb', BitVec.getLsbD_append, hi, decide_true, Bool.true_and]
  split_ifs <;> first | omega | (congr 1; omega)

@[simp] theorem fieldCondBrAddr_encodeCB (op : BitVec 8) (addr : BitVec 19) (rt : RegNum) :
    fieldCondBrAddr (encodeCB op addr rt) = addr := by
  apply BitVec.eq_of_getLsbD_eq
  intro i hi
  simp only [fieldCondBrAddr, encodeCB, BitVec.getLsbD_extractLsb', BitVec.getLsbD_append, hi, decide_true, Bool.true_and]
  split_ifs <;> first | omega | (congr 1; omega)

/-! ### encodeIM -/

@[simp] theorem opcode6_encodeIM (op : BitVec 9) (hw : BitVec 2) (imm : BitVec 16) (rd : RegNum) :
    opcode6 (encodeIM op hw imm rd) = op.extractLsb' 3 6 := by
  apply BitVec.eq_of_getLsbD_eq
  intro i hi
  simp only [opcode6, encodeIM, BitVec.getLsbD_extractLsb', BitVec.getLsbD_append, hi, decide_true, Bool.true_and]
  split_ifs <;> first | omega | (congr 1; omega)

@[simp] theorem opcode8_encodeIM (op : BitVec 9) (hw : BitVec 2) (imm : BitVec 16) (rd : RegNum) :
    opcode8 (encodeIM op hw imm rd) = op.extractLsb' 1 8 := by
  apply BitVec.eq_of_getLsbD_eq
  intro i hi
  simp only [opcode8, encodeIM, BitVec.getLsbD_extractLsb', BitVec.getLsbD_append, hi, decide_true, Bool.true_and]
  split_ifs <;> first | omega | (congr 1; omega)

@[simp] theorem opcode9_encodeIM (op : BitVec 9) (hw : BitVec 2) (imm : BitVec 16) (rd : RegNum) :
    opcode9 (encodeIM op hw imm rd) = op := by
  apply BitVec.eq_of_getLsbD_eq
  intro i hi
  simp only [opcode9, encodeIM, BitVec.getLsbD_extractLsb', BitVec.getLsbD_append, hi, decide_true, Bool.true_and]
  split_ifs <;> first | omega | (congr 1; omega)

@[simp] theorem fieldRd_encodeIM (op : BitVec 9) (hw : BitVec 2) (imm : BitVec 16) (rd : RegNum) :
    fieldRd (encodeIM op hw imm rd) = rd := by
  apply BitVec.eq_of_getLsbD_eq
  intro i hi
  simp only [fieldRd, encodeIM, BitVec.getLsbD_extractLsb', BitVec.getLsbD_append, hi, decide_true, Bool.true_and]
  split_ifs <;> first | omega | (congr 1; omega)

@[simp] theorem fieldHw_encodeIM (op : BitVec 9) (hw : BitVec 2) (imm : BitVec 16) (rd : RegNum) :
    fieldHw (encodeIM op hw imm rd) = hw := by
  apply BitVec.eq_of_getLsbD_eq
  intro i hi
  simp only [fieldHw, encodeIM, BitVec.getLsbD_extractLsb', BitVec.getLsbD_append, hi, decide_true, Bool.true_and]
  split_ifs <;> first | omega | (congr 1; omega)

@[simp] theorem fieldMovImm_encodeIM (op : BitVec 9) (hw : BitVec 2) (imm : BitVec 16) (rd : RegNum) :
    fieldMovImm (encodeIM op hw imm rd) = imm := by
  apply BitVec.eq_of_getLsbD_eq
  intro i hi
  simp only [fieldMovImm, encodeIM, BitVec.getLsbD_extractLsb', BitVec.getLsbD_append, hi, decide_true, Bool.true_and]
  split_ifs <;> first | omega | (congr 1; omega)

/-! ### B.cond's fields of bits 4:0 -/

@[simp] theorem fieldCond_encodeCB (op : BitVec 8) (addr : BitVec 19) (b : BitVec 1) (c : BitVec 4) :
    fieldCond (encodeCB op addr (b ++ c)) = c := by
  apply BitVec.eq_of_getLsbD_eq
  intro i hi
  simp only [fieldCond, encodeCB, BitVec.getLsbD_extractLsb', BitVec.getLsbD_append, hi, decide_true, Bool.true_and]
  split_ifs <;> first | omega | (congr 1; omega)

@[simp] theorem fieldBit4_encodeCB (op : BitVec 8) (addr : BitVec 19) (b : BitVec 1) (c : BitVec 4) :
    fieldBit4 (encodeCB op addr (b ++ c)) = b := by
  apply BitVec.eq_of_getLsbD_eq
  intro i hi
  simp only [fieldBit4, encodeCB, BitVec.getLsbD_extractLsb', BitVec.getLsbD_append, hi, decide_true, Bool.true_and]
  split_ifs <;> first | omega | (congr 1; omega)

/-- Each suffix has its meaning at its encoding in the default table (41_core_branch.md R161). -/
@[simp] theorem condEntry_encodeCond (c : Cond) : condEntry defaultCondTable (encodeCond c) = some (.suffix c) := by
  cases c <;> rfl

/-- The default table assigns exactly the conditions below 1110 (R161). -/
theorem condAssigned_default (c : BitVec 4) : condAssigned defaultCondTable c = decide (c.toNat < 14) := by
  revert c
  decide

/-! ### A word from its fields -/

theorem encodeR_fields (w : IWord) : encodeR (opcode11 w) (fieldRm w) (fieldShamt w) (fieldRn w) (fieldRd w) = w := by
  apply BitVec.eq_of_getLsbD_eq
  intro i hi
  simp only [encodeR, opcode11, fieldRm, fieldShamt, fieldRn, fieldRd, BitVec.getLsbD_extractLsb', BitVec.getLsbD_append]
  split_ifs <;> first | omega | (rw [decide_eq_true (by omega), Bool.true_and]; congr 1; omega)

theorem encodeI_fields (w : IWord) : encodeI (opcode10 w) (fieldAluImm w) (fieldRn w) (fieldRd w) = w := by
  apply BitVec.eq_of_getLsbD_eq
  intro i hi
  simp only [encodeI, opcode10, fieldAluImm, fieldRn, fieldRd, BitVec.getLsbD_extractLsb', BitVec.getLsbD_append]
  split_ifs <;> first | omega | (rw [decide_eq_true (by omega), Bool.true_and]; congr 1; omega)

theorem encodeB_fields (w : IWord) : encodeB (opcode6 w) (fieldBrAddr w) = w := by
  apply BitVec.eq_of_getLsbD_eq
  intro i hi
  simp only [encodeB, opcode6, fieldBrAddr, BitVec.getLsbD_extractLsb', BitVec.getLsbD_append]
  split_ifs <;> first | omega | (rw [decide_eq_true (by omega), Bool.true_and]; congr 1; omega)

theorem encodeCB_fields (w : IWord) : encodeCB (opcode8 w) (fieldCondBrAddr w) (fieldRd w) = w := by
  apply BitVec.eq_of_getLsbD_eq
  intro i hi
  simp only [encodeCB, opcode8, fieldCondBrAddr, fieldRd, BitVec.getLsbD_extractLsb', BitVec.getLsbD_append]
  split_ifs <;> first | omega | (rw [decide_eq_true (by omega), Bool.true_and]; congr 1; omega)

theorem encodeIM_fields (w : IWord) : encodeIM (opcode9 w) (fieldHw w) (fieldMovImm w) (fieldRd w) = w := by
  apply BitVec.eq_of_getLsbD_eq
  intro i hi
  simp only [encodeIM, opcode9, fieldHw, fieldMovImm, fieldRd, BitVec.getLsbD_extractLsb', BitVec.getLsbD_append]
  split_ifs <;> first | omega | (rw [decide_eq_true (by omega), Bool.true_and]; congr 1; omega)

theorem encodeD_fields (w : IWord) (h : fieldOp w = 0) :
    encodeD (opcode11 w) (fieldDt w) (fieldRn w) (fieldRd w) = w := by
  rw [encodeD, ← h]
  apply BitVec.eq_of_getLsbD_eq
  intro i hi
  simp only [opcode11, fieldDt, fieldOp, fieldRn, fieldRd, BitVec.getLsbD_extractLsb', BitVec.getLsbD_append]
  split_ifs <;> first | omega | (rw [decide_eq_true (by omega), Bool.true_and]; congr 1; omega)

/-! The same, from the opcode that a decoder branch has tested. -/

theorem encodeR_of_fields {w : IWord} {op : BitVec 11} {shamt : BitVec 6} (h : opcode11 w = op)
    (hs : fieldShamt w = shamt) : encodeR op (fieldRm w) shamt (fieldRn w) (fieldRd w) = w := by
  subst h hs
  exact encodeR_fields w

theorem encodeI_of_fields {w : IWord} {op : BitVec 10} (h : opcode10 w = op) :
    encodeI op (fieldAluImm w) (fieldRn w) (fieldRd w) = w := by
  subst h
  exact encodeI_fields w

theorem encodeD_of_fields {w : IWord} {op : BitVec 11} (h : opcode11 w = op) (ho : fieldOp w = 0) :
    encodeD op (fieldDt w) (fieldRn w) (fieldRd w) = w := by
  subst h
  exact encodeD_fields w ho

theorem encodeB_of_fields {w : IWord} {op : BitVec 6} (h : opcode6 w = op) : encodeB op (fieldBrAddr w) = w := by
  subst h
  exact encodeB_fields w

theorem encodeCB_of_fields {w : IWord} {op : BitVec 8} (h : opcode8 w = op) :
    encodeCB op (fieldCondBrAddr w) (fieldRd w) = w := by
  subst h
  exact encodeCB_fields w

theorem encodeIM_of_fields {w : IWord} {op : BitVec 9} (h : opcode9 w = op) :
    encodeIM op (fieldHw w) (fieldMovImm w) (fieldRd w) = w := by
  subst h
  exact encodeIM_fields w

theorem bit4_append_cond (w : IWord) : fieldBit4 w ++ fieldCond w = fieldRd w := by
  apply BitVec.eq_of_getLsbD_eq
  intro i hi
  have hi' : i < 5 := hi
  simp only [fieldBit4, fieldCond, fieldRd, BitVec.getLsbD_extractLsb', BitVec.getLsbD_append]
  split_ifs with h
  · simp [h, hi']
  · simp [show i = 4 by omega]

/-! ### The check of unused fields -/

/-- A word whose unused fields are zero passes the check under either policy (R101). -/
@[simp] theorem checkUnused_true (p : Params) (i : Instr) : checkUnused p true i = .ok i := by
  simp [checkUnused]

/-- What passes the check is the instruction, and under the strict policy its unused fields are zero (R101). -/
theorem checkUnused_ok {p : Params} {z : Bool} {i j : Instr} (h : checkUnused p z i = .ok j) :
    i = j ∧ (p.unusedFieldPolicy = .strict → z = true) := by
  unfold checkUnused at h
  split at h
  · cases h
  · rename_i hn
    injection h with h
    exact ⟨h, fun hs => by simpa [hs] using hn⟩

/-! ### Bytes -/

/-- The bytes of a word, assembled, are the word (20_memory.md R56). -/
theorem decodeBytes_wordBytes (p : Params) (w : IWord) : decodeBytes p (wordBytes p.endian w) = decodeWord p w := by
  cases p.endian
  have : assembleWord .big (w.extractLsb' 24 8) (w.extractLsb' 16 8) (w.extractLsb' 8 8) (w.extractLsb' 0 8) = w := by
    apply BitVec.eq_of_getLsbD_eq
    intro i hi
    simp only [assembleWord, BitVec.getLsbD_extractLsb', BitVec.getLsbD_append]
    split_ifs <;> first | omega | (rw [decide_eq_true (by omega), Bool.true_and]; congr 1; omega)
  simp only [decodeBytes, wordBytes, this]

end Sys2Proof
end

