-- ==== Sys2Proof/Laws/State.lean ====
section
/-! SUPPORT. One lemma per field per update of State, each true by rfl, and what the register, byte and address reads
see of an update that does not concern them. -/

namespace Sys2Proof.Machine

/-! ### writeX -/

@[simp] theorem State.writeX_xregs (s : State) (r : RegNum) (v : Word)  : (s.writeX r v).xregs = writeXregs s.xregs r v := rfl
@[simp] theorem State.writeX_pc (s : State) (r : RegNum) (v : Word)  : (s.writeX r v).pc = s.pc := rfl
@[simp] theorem State.writeX_flags (s : State) (r : RegNum) (v : Word)  : (s.writeX r v).flags = s.flags := rfl
@[simp] theorem State.writeX_dregs (s : State) (r : RegNum) (v : Word)  : (s.writeX r v).dregs = s.dregs := rfl
@[simp] theorem State.writeX_esr (s : State) (r : RegNum) (v : Word)  : (s.writeX r v).esr = s.esr := rfl
@[simp] theorem State.writeX_monitor (s : State) (r : RegNum) (v : Word)  : (s.writeX r v).monitor = s.monitor := rfl
@[simp] theorem State.writeX_mem (s : State) (r : RegNum) (v : Word)  : (s.writeX r v).mem = s.mem := rfl
@[simp] theorem State.writeX_ranges (s : State) (r : RegNum) (v : Word)  : (s.writeX r v).ranges = s.ranges := rfl
@[simp] theorem State.writeX_text (s : State) (r : RegNum) (v : Word)  : (s.writeX r v).text = s.text := rfl
@[simp] theorem State.writeX_haltPc (s : State) (r : RegNum) (v : Word)  : (s.writeX r v).haltPc = s.haltPc := rfl
@[simp] theorem State.writeX_fault (s : State) (r : RegNum) (v : Word)  : (s.writeX r v).fault = s.fault := rfl
@[simp] theorem State.writeX_params (s : State) (r : RegNum) (v : Word)  : (s.writeX r v).params = s.params := rfl
@[simp] theorem State.writeX_draws (s : State) (r : RegNum) (v : Word)  : (s.writeX r v).draws = s.draws := rfl
@[simp] theorem State.readD_writeX (s : State) (r : RegNum) (v : Word) (q : RegNum) : (s.writeX r v).readD q = s.readD q := rfl
@[simp] theorem State.readS_writeX (s : State) (r : RegNum) (v : Word) (q : RegNum) : (s.writeX r v).readS q = s.readS q := rfl
@[simp] theorem State.readByte_writeX (s : State) (r : RegNum) (v : Word) (addr : Nat) : (s.writeX r v).readByte addr = s.readByte addr := rfl
@[simp] theorem State.admits_writeX (s : State) (r : RegNum) (v : Word) (addr : Nat) : (s.writeX r v).admits addr = s.admits addr := rfl
@[simp] theorem State.admitted_writeX (s : State) (r : RegNum) (v : Word) (addr len : Nat) : (s.writeX r v).admitted addr len = s.admitted addr len := rfl

/-! ### setPc -/

@[simp] theorem State.setPc_xregs (s : State) (t : Word)  : (s.setPc t).xregs = s.xregs := rfl
@[simp] theorem State.setPc_pc (s : State) (t : Word)  : (s.setPc t).pc = t := rfl
@[simp] theorem State.setPc_flags (s : State) (t : Word)  : (s.setPc t).flags = s.flags := rfl
@[simp] theorem State.setPc_dregs (s : State) (t : Word)  : (s.setPc t).dregs = s.dregs := rfl
@[simp] theorem State.setPc_esr (s : State) (t : Word)  : (s.setPc t).esr = s.esr := rfl
@[simp] theorem State.setPc_monitor (s : State) (t : Word)  : (s.setPc t).monitor = s.monitor := rfl
@[simp] theorem State.setPc_mem (s : State) (t : Word)  : (s.setPc t).mem = s.mem := rfl
@[simp] theorem State.setPc_ranges (s : State) (t : Word)  : (s.setPc t).ranges = s.ranges := rfl
@[simp] theorem State.setPc_text (s : State) (t : Word)  : (s.setPc t).text = s.text := rfl
@[simp] theorem State.setPc_haltPc (s : State) (t : Word)  : (s.setPc t).haltPc = s.haltPc := rfl
@[simp] theorem State.setPc_fault (s : State) (t : Word)  : (s.setPc t).fault = s.fault := rfl
@[simp] theorem State.setPc_params (s : State) (t : Word)  : (s.setPc t).params = s.params := rfl
@[simp] theorem State.setPc_draws (s : State) (t : Word)  : (s.setPc t).draws = s.draws := rfl
@[simp] theorem State.readX_setPc (s : State) (t : Word) (q : RegNum) : (s.setPc t).readX q = s.readX q := rfl
@[simp] theorem State.readD_setPc (s : State) (t : Word) (q : RegNum) : (s.setPc t).readD q = s.readD q := rfl
@[simp] theorem State.readS_setPc (s : State) (t : Word) (q : RegNum) : (s.setPc t).readS q = s.readS q := rfl
@[simp] theorem State.readByte_setPc (s : State) (t : Word) (addr : Nat) : (s.setPc t).readByte addr = s.readByte addr := rfl
@[simp] theorem State.admits_setPc (s : State) (t : Word) (addr : Nat) : (s.setPc t).admits addr = s.admits addr := rfl
@[simp] theorem State.admitted_setPc (s : State) (t : Word) (addr len : Nat) : (s.setPc t).admitted addr len = s.admitted addr len := rfl

/-! ### advance -/

@[simp] theorem State.advance_xregs (s : State)  : (s.advance).xregs = s.xregs := rfl
@[simp] theorem State.advance_pc (s : State)  : (s.advance).pc = s.pc + 4 := rfl
@[simp] theorem State.advance_flags (s : State)  : (s.advance).flags = s.flags := rfl
@[simp] theorem State.advance_dregs (s : State)  : (s.advance).dregs = s.dregs := rfl
@[simp] theorem State.advance_esr (s : State)  : (s.advance).esr = s.esr := rfl
@[simp] theorem State.advance_monitor (s : State)  : (s.advance).monitor = s.monitor := rfl
@[simp] theorem State.advance_mem (s : State)  : (s.advance).mem = s.mem := rfl
@[simp] theorem State.advance_ranges (s : State)  : (s.advance).ranges = s.ranges := rfl
@[simp] theorem State.advance_text (s : State)  : (s.advance).text = s.text := rfl
@[simp] theorem State.advance_haltPc (s : State)  : (s.advance).haltPc = s.haltPc := rfl
@[simp] theorem State.advance_fault (s : State)  : (s.advance).fault = s.fault := rfl
@[simp] theorem State.advance_params (s : State)  : (s.advance).params = s.params := rfl
@[simp] theorem State.advance_draws (s : State)  : (s.advance).draws = s.draws := rfl
@[simp] theorem State.readX_advance (s : State) (q : RegNum) : (s.advance).readX q = s.readX q := rfl
@[simp] theorem State.readD_advance (s : State) (q : RegNum) : (s.advance).readD q = s.readD q := rfl
@[simp] theorem State.readS_advance (s : State) (q : RegNum) : (s.advance).readS q = s.readS q := rfl
@[simp] theorem State.readByte_advance (s : State) (addr : Nat) : (s.advance).readByte addr = s.readByte addr := rfl
@[simp] theorem State.admits_advance (s : State) (addr : Nat) : (s.advance).admits addr = s.admits addr := rfl
@[simp] theorem State.admitted_advance (s : State) (addr len : Nat) : (s.advance).admitted addr len = s.admitted addr len := rfl

/-! ### setFlags -/

@[simp] theorem State.setFlags_xregs (s : State) (f : Flags)  : (s.setFlags f).xregs = s.xregs := rfl
@[simp] theorem State.setFlags_pc (s : State) (f : Flags)  : (s.setFlags f).pc = s.pc := rfl
@[simp] theorem State.setFlags_flags (s : State) (f : Flags)  : (s.setFlags f).flags = f := rfl
@[simp] theorem State.setFlags_dregs (s : State) (f : Flags)  : (s.setFlags f).dregs = s.dregs := rfl
@[simp] theorem State.setFlags_esr (s : State) (f : Flags)  : (s.setFlags f).esr = s.esr := rfl
@[simp] theorem State.setFlags_monitor (s : State) (f : Flags)  : (s.setFlags f).monitor = s.monitor := rfl
@[simp] theorem State.setFlags_mem (s : State) (f : Flags)  : (s.setFlags f).mem = s.mem := rfl
@[simp] theorem State.setFlags_ranges (s : State) (f : Flags)  : (s.setFlags f).ranges = s.ranges := rfl
@[simp] theorem State.setFlags_text (s : State) (f : Flags)  : (s.setFlags f).text = s.text := rfl
@[simp] theorem State.setFlags_haltPc (s : State) (f : Flags)  : (s.setFlags f).haltPc = s.haltPc := rfl
@[simp] theorem State.setFlags_fault (s : State) (f : Flags)  : (s.setFlags f).fault = s.fault := rfl
@[simp] theorem State.setFlags_params (s : State) (f : Flags)  : (s.setFlags f).params = s.params := rfl
@[simp] theorem State.setFlags_draws (s : State) (f : Flags)  : (s.setFlags f).draws = s.draws := rfl
@[simp] theorem State.readX_setFlags (s : State) (f : Flags) (q : RegNum) : (s.setFlags f).readX q = s.readX q := rfl
@[simp] theorem State.readD_setFlags (s : State) (f : Flags) (q : RegNum) : (s.setFlags f).readD q = s.readD q := rfl
@[simp] theorem State.readS_setFlags (s : State) (f : Flags) (q : RegNum) : (s.setFlags f).readS q = s.readS q := rfl
@[simp] theorem State.readByte_setFlags (s : State) (f : Flags) (addr : Nat) : (s.setFlags f).readByte addr = s.readByte addr := rfl
@[simp] theorem State.admits_setFlags (s : State) (f : Flags) (addr : Nat) : (s.setFlags f).admits addr = s.admits addr := rfl
@[simp] theorem State.admitted_setFlags (s : State) (f : Flags) (addr len : Nat) : (s.setFlags f).admitted addr len = s.admitted addr len := rfl

/-! ### drawIf -/

@[simp] theorem State.drawIf_xregs (s : State) (b : Bool)  : (s.drawIf b).xregs = s.xregs := rfl
@[simp] theorem State.drawIf_pc (s : State) (b : Bool)  : (s.drawIf b).pc = s.pc := rfl
@[simp] theorem State.drawIf_flags (s : State) (b : Bool)  : (s.drawIf b).flags = s.flags := rfl
@[simp] theorem State.drawIf_dregs (s : State) (b : Bool)  : (s.drawIf b).dregs = s.dregs := rfl
@[simp] theorem State.drawIf_esr (s : State) (b : Bool)  : (s.drawIf b).esr = s.esr := rfl
@[simp] theorem State.drawIf_monitor (s : State) (b : Bool)  : (s.drawIf b).monitor = s.monitor := rfl
@[simp] theorem State.drawIf_mem (s : State) (b : Bool)  : (s.drawIf b).mem = s.mem := rfl
@[simp] theorem State.drawIf_ranges (s : State) (b : Bool)  : (s.drawIf b).ranges = s.ranges := rfl
@[simp] theorem State.drawIf_text (s : State) (b : Bool)  : (s.drawIf b).text = s.text := rfl
@[simp] theorem State.drawIf_haltPc (s : State) (b : Bool)  : (s.drawIf b).haltPc = s.haltPc := rfl
@[simp] theorem State.drawIf_fault (s : State) (b : Bool)  : (s.drawIf b).fault = s.fault := rfl
@[simp] theorem State.drawIf_params (s : State) (b : Bool)  : (s.drawIf b).params = s.params := rfl
@[simp] theorem State.drawIf_draws (s : State) (b : Bool)  : (s.drawIf b).draws = if b then s.draws + 1 else s.draws := rfl
@[simp] theorem State.readX_drawIf (s : State) (b : Bool) (q : RegNum) : (s.drawIf b).readX q = s.readX q := rfl
@[simp] theorem State.readD_drawIf (s : State) (b : Bool) (q : RegNum) : (s.drawIf b).readD q = s.readD q := rfl
@[simp] theorem State.readS_drawIf (s : State) (b : Bool) (q : RegNum) : (s.drawIf b).readS q = s.readS q := rfl
@[simp] theorem State.readByte_drawIf (s : State) (b : Bool) (addr : Nat) : (s.drawIf b).readByte addr = s.readByte addr := rfl
@[simp] theorem State.admits_drawIf (s : State) (b : Bool) (addr : Nat) : (s.drawIf b).admits addr = s.admits addr := rfl
@[simp] theorem State.admitted_drawIf (s : State) (b : Bool) (addr len : Nat) : (s.drawIf b).admitted addr len = s.admitted addr len := rfl

/-! ### writeD -/

@[simp] theorem State.writeD_xregs (s : State) (r : RegNum) (v : Word)  : (s.writeD r v).xregs = s.xregs := rfl
@[simp] theorem State.writeD_pc (s : State) (r : RegNum) (v : Word)  : (s.writeD r v).pc = s.pc := rfl
@[simp] theorem State.writeD_flags (s : State) (r : RegNum) (v : Word)  : (s.writeD r v).flags = s.flags := rfl
@[simp] theorem State.writeD_dregs (s : State) (r : RegNum) (v : Word)  : (s.writeD r v).dregs = s.dregs.set r.toNat v := rfl
@[simp] theorem State.writeD_esr (s : State) (r : RegNum) (v : Word)  : (s.writeD r v).esr = s.esr := rfl
@[simp] theorem State.writeD_monitor (s : State) (r : RegNum) (v : Word)  : (s.writeD r v).monitor = s.monitor := rfl
@[simp] theorem State.writeD_mem (s : State) (r : RegNum) (v : Word)  : (s.writeD r v).mem = s.mem := rfl
@[simp] theorem State.writeD_ranges (s : State) (r : RegNum) (v : Word)  : (s.writeD r v).ranges = s.ranges := rfl
@[simp] theorem State.writeD_text (s : State) (r : RegNum) (v : Word)  : (s.writeD r v).text = s.text := rfl
@[simp] theorem State.writeD_haltPc (s : State) (r : RegNum) (v : Word)  : (s.writeD r v).haltPc = s.haltPc := rfl
@[simp] theorem State.writeD_fault (s : State) (r : RegNum) (v : Word)  : (s.writeD r v).fault = s.fault := rfl
@[simp] theorem State.writeD_params (s : State) (r : RegNum) (v : Word)  : (s.writeD r v).params = s.params := rfl
@[simp] theorem State.writeD_draws (s : State) (r : RegNum) (v : Word)  : (s.writeD r v).draws = s.draws := rfl
@[simp] theorem State.readX_writeD (s : State) (r : RegNum) (v : Word) (q : RegNum) : (s.writeD r v).readX q = s.readX q := rfl
@[simp] theorem State.readByte_writeD (s : State) (r : RegNum) (v : Word) (addr : Nat) : (s.writeD r v).readByte addr = s.readByte addr := rfl
@[simp] theorem State.admits_writeD (s : State) (r : RegNum) (v : Word) (addr : Nat) : (s.writeD r v).admits addr = s.admits addr := rfl
@[simp] theorem State.admitted_writeD (s : State) (r : RegNum) (v : Word) (addr len : Nat) : (s.writeD r v).admitted addr len = s.admitted addr len := rfl

/-! ### writeS -/

@[simp] theorem State.writeS_xregs (s : State) (r : RegNum) (v : BitVec 32)  : (s.writeS r v).xregs = s.xregs := rfl
@[simp] theorem State.writeS_pc (s : State) (r : RegNum) (v : BitVec 32)  : (s.writeS r v).pc = s.pc := rfl
@[simp] theorem State.writeS_flags (s : State) (r : RegNum) (v : BitVec 32)  : (s.writeS r v).flags = s.flags := rfl
@[simp] theorem State.writeS_dregs (s : State) (r : RegNum) (v : BitVec 32)  : (s.writeS r v).dregs = s.dregs.set r.toNat (s.params.sWriteUpper.value (Config.freeUpperHalf s.draws) ++ v) := rfl
@[simp] theorem State.writeS_esr (s : State) (r : RegNum) (v : BitVec 32)  : (s.writeS r v).esr = s.esr := rfl
@[simp] theorem State.writeS_monitor (s : State) (r : RegNum) (v : BitVec 32)  : (s.writeS r v).monitor = s.monitor := rfl
@[simp] theorem State.writeS_mem (s : State) (r : RegNum) (v : BitVec 32)  : (s.writeS r v).mem = s.mem := rfl
@[simp] theorem State.writeS_ranges (s : State) (r : RegNum) (v : BitVec 32)  : (s.writeS r v).ranges = s.ranges := rfl
@[simp] theorem State.writeS_text (s : State) (r : RegNum) (v : BitVec 32)  : (s.writeS r v).text = s.text := rfl
@[simp] theorem State.writeS_haltPc (s : State) (r : RegNum) (v : BitVec 32)  : (s.writeS r v).haltPc = s.haltPc := rfl
@[simp] theorem State.writeS_fault (s : State) (r : RegNum) (v : BitVec 32)  : (s.writeS r v).fault = s.fault := rfl
@[simp] theorem State.writeS_params (s : State) (r : RegNum) (v : BitVec 32)  : (s.writeS r v).params = s.params := rfl
@[simp] theorem State.writeS_draws (s : State) (r : RegNum) (v : BitVec 32)  : (s.writeS r v).draws = if s.params.sWriteUpper.isDrawn then s.draws + 1 else s.draws := rfl
@[simp] theorem State.readX_writeS (s : State) (r : RegNum) (v : BitVec 32) (q : RegNum) : (s.writeS r v).readX q = s.readX q := rfl
@[simp] theorem State.readByte_writeS (s : State) (r : RegNum) (v : BitVec 32) (addr : Nat) : (s.writeS r v).readByte addr = s.readByte addr := rfl
@[simp] theorem State.admits_writeS (s : State) (r : RegNum) (v : BitVec 32) (addr : Nat) : (s.writeS r v).admits addr = s.admits addr := rfl
@[simp] theorem State.admitted_writeS (s : State) (r : RegNum) (v : BitVec 32) (addr len : Nat) : (s.writeS r v).admitted addr len = s.admitted addr len := rfl

/-! ### setMem -/

@[simp] theorem State.setMem_xregs (s : State) (m : Memory)  : (s.setMem m).xregs = s.xregs := rfl
@[simp] theorem State.setMem_pc (s : State) (m : Memory)  : (s.setMem m).pc = s.pc := rfl
@[simp] theorem State.setMem_flags (s : State) (m : Memory)  : (s.setMem m).flags = s.flags := rfl
@[simp] theorem State.setMem_dregs (s : State) (m : Memory)  : (s.setMem m).dregs = s.dregs := rfl
@[simp] theorem State.setMem_esr (s : State) (m : Memory)  : (s.setMem m).esr = s.esr := rfl
@[simp] theorem State.setMem_monitor (s : State) (m : Memory)  : (s.setMem m).monitor = s.monitor := rfl
@[simp] theorem State.setMem_mem (s : State) (m : Memory)  : (s.setMem m).mem = m := rfl
@[simp] theorem State.setMem_ranges (s : State) (m : Memory)  : (s.setMem m).ranges = s.ranges := rfl
@[simp] theorem State.setMem_text (s : State) (m : Memory)  : (s.setMem m).text = s.text := rfl
@[simp] theorem State.setMem_haltPc (s : State) (m : Memory)  : (s.setMem m).haltPc = s.haltPc := rfl
@[simp] theorem State.setMem_fault (s : State) (m : Memory)  : (s.setMem m).fault = s.fault := rfl
@[simp] theorem State.setMem_params (s : State) (m : Memory)  : (s.setMem m).params = s.params := rfl
@[simp] theorem State.setMem_draws (s : State) (m : Memory)  : (s.setMem m).draws = s.draws := rfl
@[simp] theorem State.readX_setMem (s : State) (m : Memory) (q : RegNum) : (s.setMem m).readX q = s.readX q := rfl
@[simp] theorem State.readD_setMem (s : State) (m : Memory) (q : RegNum) : (s.setMem m).readD q = s.readD q := rfl
@[simp] theorem State.readS_setMem (s : State) (m : Memory) (q : RegNum) : (s.setMem m).readS q = s.readS q := rfl
@[simp] theorem State.admits_setMem (s : State) (m : Memory) (addr : Nat) : (s.setMem m).admits addr = s.admits addr := rfl
@[simp] theorem State.admitted_setMem (s : State) (m : Memory) (addr len : Nat) : (s.setMem m).admitted addr len = s.admitted addr len := rfl

/-! ### memWrite -/

@[simp] theorem State.memWrite_xregs (s : State) (a : Word) (n v : Nat)  : (s.memWrite a n v).xregs = s.xregs := rfl
@[simp] theorem State.memWrite_pc (s : State) (a : Word) (n v : Nat)  : (s.memWrite a n v).pc = s.pc := rfl
@[simp] theorem State.memWrite_flags (s : State) (a : Word) (n v : Nat)  : (s.memWrite a n v).flags = s.flags := rfl
@[simp] theorem State.memWrite_dregs (s : State) (a : Word) (n v : Nat)  : (s.memWrite a n v).dregs = s.dregs := rfl
@[simp] theorem State.memWrite_esr (s : State) (a : Word) (n v : Nat)  : (s.memWrite a n v).esr = s.esr := rfl
@[simp] theorem State.memWrite_monitor (s : State) (a : Word) (n v : Nat)  : (s.memWrite a n v).monitor = s.monitor := rfl
@[simp] theorem State.memWrite_mem (s : State) (a : Word) (n v : Nat)  : (s.memWrite a n v).mem = Memory.writeBE s.mem a.toNat n v := rfl
@[simp] theorem State.memWrite_ranges (s : State) (a : Word) (n v : Nat)  : (s.memWrite a n v).ranges = s.ranges := rfl
@[simp] theorem State.memWrite_text (s : State) (a : Word) (n v : Nat)  : (s.memWrite a n v).text = s.text := rfl
@[simp] theorem State.memWrite_haltPc (s : State) (a : Word) (n v : Nat)  : (s.memWrite a n v).haltPc = s.haltPc := rfl
@[simp] theorem State.memWrite_fault (s : State) (a : Word) (n v : Nat)  : (s.memWrite a n v).fault = s.fault := rfl
@[simp] theorem State.memWrite_params (s : State) (a : Word) (n v : Nat)  : (s.memWrite a n v).params = s.params := rfl
@[simp] theorem State.memWrite_draws (s : State) (a : Word) (n v : Nat)  : (s.memWrite a n v).draws = s.draws := rfl
@[simp] theorem State.readX_memWrite (s : State) (a : Word) (n v : Nat) (q : RegNum) : (s.memWrite a n v).readX q = s.readX q := rfl
@[simp] theorem State.readD_memWrite (s : State) (a : Word) (n v : Nat) (q : RegNum) : (s.memWrite a n v).readD q = s.readD q := rfl
@[simp] theorem State.readS_memWrite (s : State) (a : Word) (n v : Nat) (q : RegNum) : (s.memWrite a n v).readS q = s.readS q := rfl
@[simp] theorem State.admits_memWrite (s : State) (a : Word) (n v : Nat) (addr : Nat) : (s.memWrite a n v).admits addr = s.admits addr := rfl
@[simp] theorem State.admitted_memWrite (s : State) (a : Word) (n v : Nat) (addr len : Nat) : (s.memWrite a n v).admitted addr len = s.admitted addr len := rfl

/-! ### setMonitor -/

@[simp] theorem State.setMonitor_xregs (s : State) (m : Option Word)  : (s.setMonitor m).xregs = s.xregs := rfl
@[simp] theorem State.setMonitor_pc (s : State) (m : Option Word)  : (s.setMonitor m).pc = s.pc := rfl
@[simp] theorem State.setMonitor_flags (s : State) (m : Option Word)  : (s.setMonitor m).flags = s.flags := rfl
@[simp] theorem State.setMonitor_dregs (s : State) (m : Option Word)  : (s.setMonitor m).dregs = s.dregs := rfl
@[simp] theorem State.setMonitor_esr (s : State) (m : Option Word)  : (s.setMonitor m).esr = s.esr := rfl
@[simp] theorem State.setMonitor_monitor (s : State) (m : Option Word)  : (s.setMonitor m).monitor = m := rfl
@[simp] theorem State.setMonitor_mem (s : State) (m : Option Word)  : (s.setMonitor m).mem = s.mem := rfl
@[simp] theorem State.setMonitor_ranges (s : State) (m : Option Word)  : (s.setMonitor m).ranges = s.ranges := rfl
@[simp] theorem State.setMonitor_text (s : State) (m : Option Word)  : (s.setMonitor m).text = s.text := rfl
@[simp] theorem State.setMonitor_haltPc (s : State) (m : Option Word)  : (s.setMonitor m).haltPc = s.haltPc := rfl
@[simp] theorem State.setMonitor_fault (s : State) (m : Option Word)  : (s.setMonitor m).fault = s.fault := rfl
@[simp] theorem State.setMonitor_params (s : State) (m : Option Word)  : (s.setMonitor m).params = s.params := rfl
@[simp] theorem State.setMonitor_draws (s : State) (m : Option Word)  : (s.setMonitor m).draws = s.draws := rfl
@[simp] theorem State.readX_setMonitor (s : State) (m : Option Word) (q : RegNum) : (s.setMonitor m).readX q = s.readX q := rfl
@[simp] theorem State.readD_setMonitor (s : State) (m : Option Word) (q : RegNum) : (s.setMonitor m).readD q = s.readD q := rfl
@[simp] theorem State.readS_setMonitor (s : State) (m : Option Word) (q : RegNum) : (s.setMonitor m).readS q = s.readS q := rfl
@[simp] theorem State.readByte_setMonitor (s : State) (m : Option Word) (addr : Nat) : (s.setMonitor m).readByte addr = s.readByte addr := rfl
@[simp] theorem State.admits_setMonitor (s : State) (m : Option Word) (addr : Nat) : (s.setMonitor m).admits addr = s.admits addr := rfl
@[simp] theorem State.admitted_setMonitor (s : State) (m : Option Word) (addr len : Nat) : (s.setMonitor m).admitted addr len = s.admitted addr len := rfl

/-! ### raise -/

@[simp] theorem State.raise_xregs (s : State) (c : ExceptionClass) (i : Word)  : (s.raise c i).xregs = s.xregs := rfl
@[simp] theorem State.raise_pc (s : State) (c : ExceptionClass) (i : Word)  : (s.raise c i).pc = s.pc := rfl
@[simp] theorem State.raise_flags (s : State) (c : ExceptionClass) (i : Word)  : (s.raise c i).flags = s.flags := rfl
@[simp] theorem State.raise_dregs (s : State) (c : ExceptionClass) (i : Word)  : (s.raise c i).dregs = s.dregs := rfl
@[simp] theorem State.raise_esr (s : State) (c : ExceptionClass) (i : Word)  : (s.raise c i).esr = esrOf (exceptionCode c) 1 (Config.freeIss s.draws) := rfl
@[simp] theorem State.raise_monitor (s : State) (c : ExceptionClass) (i : Word)  : (s.raise c i).monitor = none := rfl
@[simp] theorem State.raise_mem (s : State) (c : ExceptionClass) (i : Word)  : (s.raise c i).mem = s.mem := rfl
@[simp] theorem State.raise_ranges (s : State) (c : ExceptionClass) (i : Word)  : (s.raise c i).ranges = s.ranges := rfl
@[simp] theorem State.raise_text (s : State) (c : ExceptionClass) (i : Word)  : (s.raise c i).text = s.text := rfl
@[simp] theorem State.raise_haltPc (s : State) (c : ExceptionClass) (i : Word)  : (s.raise c i).haltPc = s.haltPc := rfl
@[simp] theorem State.raise_fault (s : State) (c : ExceptionClass) (i : Word)  : (s.raise c i).fault = some ⟨c, s.pc, i⟩ := rfl
@[simp] theorem State.raise_params (s : State) (c : ExceptionClass) (i : Word)  : (s.raise c i).params = s.params := rfl
@[simp] theorem State.raise_draws (s : State) (c : ExceptionClass) (i : Word)  : (s.raise c i).draws = s.draws + 1 := rfl
@[simp] theorem State.readX_raise (s : State) (c : ExceptionClass) (i : Word) (q : RegNum) : (s.raise c i).readX q = s.readX q := rfl
@[simp] theorem State.readD_raise (s : State) (c : ExceptionClass) (i : Word) (q : RegNum) : (s.raise c i).readD q = s.readD q := rfl
@[simp] theorem State.readS_raise (s : State) (c : ExceptionClass) (i : Word) (q : RegNum) : (s.raise c i).readS q = s.readS q := rfl
@[simp] theorem State.readByte_raise (s : State) (c : ExceptionClass) (i : Word) (addr : Nat) : (s.raise c i).readByte addr = s.readByte addr := rfl
@[simp] theorem State.admits_raise (s : State) (c : ExceptionClass) (i : Word) (addr : Nat) : (s.raise c i).admits addr = s.admits addr := rfl
@[simp] theorem State.admitted_raise (s : State) (c : ExceptionClass) (i : Word) (addr len : Nat) : (s.raise c i).admitted addr len = s.admitted addr len := rfl

end Sys2Proof.Machine
end

