-- ==== Sys2Proof/Laws/Memory.lean ====
section
/-! SUPPORT. Memory: what a byte reads after a write, the canonical form and that every operation keeps it, and what
the big-endian reads and writes of 20_memory.md R53 do. -/

namespace Sys2Proof.Machine

theorem Memory.above_iff (m : Memory) (a : Nat) : Memory.above m a = true ↔ ∀ c ∈ m, a < c.1 := by
  simp [Memory.above]

theorem Memory.wf_cons (k : Nat) (b : Byte) (t : Memory) :
    Memory.wf ((k, b) :: t) = true ↔ b ≠ 0 ∧ (∀ c ∈ t, k < c.1) ∧ Memory.wf t = true := by
  simp [Memory.wf, Memory.above, and_assoc]

/-- An address below every cell reads 0. -/
theorem Memory.read_of_above (m : Memory) (a : Nat) (h : ∀ c ∈ m, a < c.1) : Memory.read m a = 0 := by
  induction m with
  | nil => rfl
  | cons c t ih =>
    obtain ⟨k, b⟩ := c
    have hk : a < k := h (k, b) (by simp)
    simp only [Memory.read]
    rw [if_neg (by omega)]
    exact ih (fun c hc => h c (by simp [hc]))

/-- A cell after a write is the written one or an old one. -/
theorem Memory.mem_write {m : Memory} {a : Nat} {v : Byte} {c : Host.Cell} (h : c ∈ Memory.write m a v) :
    c = (a, v) ∨ c ∈ m := by
  induction m with
  | nil =>
    simp only [Memory.write] at h
    split at h <;> simp_all
  | cons d t ih =>
    obtain ⟨k, b⟩ := d
    simp only [Memory.write] at h
    split at h
    · split at h
      · exact .inr h
      · simpa using h
    · split at h
      · split at h
        · exact .inr (by simp [h])
        · rcases List.mem_cons.mp h with h | h
          · exact .inl h
          · exact .inr (by simp [h])
      · rcases List.mem_cons.mp h with h | h
        · exact .inr (by simp [h])
        · rcases ih h with h | h
          · exact .inl h
          · exact .inr (by simp [h])

/-- A byte write keeps the canonical form. -/
theorem Memory.wf_write {m : Memory} (a : Nat) (v : Byte) (h : Memory.wf m = true) :
    Memory.wf (Memory.write m a v) = true := by
  induction m with
  | nil =>
    simp only [Memory.write]
    split
    · rfl
    · simp_all [Memory.wf, Memory.above]
  | cons d t ih =>
    obtain ⟨k, b⟩ := d
    have h' := (Memory.wf_cons k b t).mp h
    simp only [Memory.write]
    split
    · rename_i hak
      split
      · exact h
      · rename_i hv
        refine (Memory.wf_cons _ _ _).mpr ⟨hv, fun c hc => ?_, h⟩
        rcases List.mem_cons.mp hc with rfl | hc
        · exact hak
        · exact Nat.lt_trans hak (h'.2.1 c hc)
    · split
      · rename_i hak
        subst hak
        split
        · exact h'.2.2
        · rename_i hv
          exact (Memory.wf_cons _ _ _).mpr ⟨hv, h'.2.1, h'.2.2⟩
      · refine (Memory.wf_cons _ _ _).mpr ⟨h'.1, fun c hc => ?_, ih h'.2.2⟩
        rcases Memory.mem_write hc with rfl | hc
        · simp only; omega
        · exact h'.2.1 c hc

/-- Reading a byte after writing one. -/
theorem Memory.read_write {m : Memory} (a b : Nat) (v : Byte) (h : Memory.wf m = true) :
    Memory.read (Memory.write m a v) b = if b = a then v else Memory.read m b := by
  induction m with
  | nil =>
    simp only [Memory.write, Memory.read]
    split
    · split <;> simp_all [Memory.read]
    · simp only [Memory.read]; simp [eq_comm]
  | cons d t ih =>
    obtain ⟨k, c⟩ := d
    have h' := (Memory.wf_cons k c t).mp h
    simp only [Memory.write]
    split
    · rename_i hak
      split
      · rename_i hv
        by_cases hb : b = a
        · subst hb
          simp only [if_true, hv]
          refine Memory.read_of_above _ _ (fun e he => ?_)
          rcases List.mem_cons.mp he with rfl | he
          · exact hak
          · exact Nat.lt_trans hak (h'.2.1 e he)
        · simp [hb]
      · rw [Memory.read]; simp [eq_comm]
    · split
      · rename_i hak
        subst hak
        split
        · rename_i hv
          by_cases hb : b = a
          · subst hb; simp only [if_true, hv]; exact Memory.read_of_above _ _ h'.2.1
          · rw [if_neg hb, Memory.read, if_neg (Ne.symm hb)]
        · simp only [Memory.read]
          by_cases hb : b = a
          · simp [hb]
          · rw [if_neg (Ne.symm hb), if_neg (Ne.symm hb), if_neg hb]
      · simp only [Memory.read, ih h'.2.2]
        by_cases hkb : k = b
        · subst hkb
          rw [if_pos rfl, if_pos rfl, if_neg (by omega)]
        · simp [hkb]

/-- Two canonical memories that read the same everywhere are equal. -/
theorem Memory.ext_of_wf {m m' : Memory} (h : Memory.wf m = true) (h' : Memory.wf m' = true)
    (hr : ∀ a, Memory.read m a = Memory.read m' a) : m = m' := by
  induction m generalizing m' with
  | nil =>
    cases m' with
    | nil => rfl
    | cons c t =>
      obtain ⟨k, b⟩ := c
      have := hr k
      simp only [Memory.read, if_true] at this
      exact absurd this.symm ((Memory.wf_cons k b t).mp h').1
  | cons c t ih =>
    obtain ⟨k, b⟩ := c
    have hw := (Memory.wf_cons k b t).mp h
    cases m' with
    | nil =>
      have := hr k
      simp only [Memory.read, if_true] at this
      exact absurd this hw.1
    | cons c' t' =>
      obtain ⟨k', b'⟩ := c'
      have hw' := (Memory.wf_cons k' b' t').mp h'
      have above : ∀ {x : Nat} {y : Byte} {u : Memory} {z : Nat}, z < x → (∀ e ∈ u, x < e.1) →
          Memory.read ((x, y) :: u) z = 0 := fun hz hu => Memory.read_of_above _ _ (fun e he => by
            rcases List.mem_cons.mp he with rfl | he
            · exact hz
            · exact Nat.lt_trans hz (hu e he))
      have hk : k = k' := by
        rcases Nat.lt_trichotomy k k' with hlt | heq | hgt
        · have := hr k
          rw [above hlt hw'.2.1] at this
          simp only [Memory.read, if_true] at this
          exact absurd this hw.1
        · exact heq
        · have := hr k'
          rw [above hgt hw.2.1] at this
          simp only [Memory.read, if_true] at this
          exact absurd this.symm hw'.1
      subst hk
      have hb : b = b' := by have := hr k; simpa [Memory.read] using this
      subst hb
      rw [ih hw.2.2 hw'.2.2 (fun a => ?_)]
      by_cases ha : k = a
      · subst ha
        rw [Memory.read_of_above _ _ hw.2.1, Memory.read_of_above _ _ hw'.2.1]
      · have := hr a
        simpa [Memory.read, ha] using this

/-- `ENDIAN` is big, so a read is big-endian (20_memory.md R53). -/
@[simp] theorem Memory.readIn_eq (e : Endian) (m : Memory) (a n : Nat) :
    Memory.readIn e m a n = Memory.readBE m a n := by
  cases e
  rfl

/-- `ENDIAN` is big, so a write is big-endian (R53). -/
@[simp] theorem Memory.writeIn_eq (e : Endian) (m : Memory) (a n v : Nat) :
    Memory.writeIn e m a n v = Memory.writeBE m a n v := by
  cases e
  rfl

/-- `MemRead` is the big-endian read (R53). -/
theorem State.memRead_eq (s : State) (ea : Word) (n : Nat) : s.memRead ea n = Memory.readBE s.mem ea.toNat n := by
  simp [State.memRead]

/-- A write of several bytes keeps the canonical form. -/
theorem Memory.wf_writeBE {m : Memory} (a n v : Nat) (h : Memory.wf m = true) :
    Memory.wf (Memory.writeBE m a n v) = true := by
  induction n generalizing v with
  | zero => exact h
  | succ n ih => exact Memory.wf_write _ _ (ih _)

/-- A cell after a write of several bytes is at one of them or an old one. -/
theorem Memory.mem_writeBE {m : Memory} {a n v : Nat} {c : Host.Cell} (h : c ∈ Memory.writeBE m a n v) :
    (∃ k, k < n ∧ c.1 = a + k) ∨ c ∈ m := by
  induction n generalizing v with
  | zero => exact .inr h
  | succ n ih =>
    rcases Memory.mem_write h with rfl | h
    · exact .inl ⟨n, by omega, rfl⟩
    · rcases ih h with ⟨k, hk, e⟩ | h
      · exact .inl ⟨k, by omega, e⟩
      · exact .inr h

/-- A byte outside a write of several bytes reads as before. -/
theorem Memory.read_writeBE_outside {m : Memory} (a n v b : Nat) (h : Memory.wf m = true)
    (hb : b < a ∨ a + n ≤ b) : Memory.read (Memory.writeBE m a n v) b = Memory.read m b := by
  induction n generalizing v with
  | zero => rfl
  | succ n ih =>
    rw [Memory.writeBE, Memory.read_write _ _ _ (Memory.wf_writeBE _ _ _ h), if_neg (by omega)]
    exact ih _ (by omega)

/-- Byte `k` of a write of `n` bytes is byte `n - 1 - k` of the value, counted from its least significant (R53). -/
theorem Memory.read_writeBE_inside {m : Memory} (a n v k : Nat) (h : Memory.wf m = true) (hk : k < n) :
    Memory.read (Memory.writeBE m a n v) (a + k) = BitVec.ofNat 8 (v / 256 ^ (n - 1 - k)) := by
  induction n generalizing v with
  | zero => omega
  | succ n ih =>
    rw [Memory.writeBE, Memory.read_write _ _ _ (Memory.wf_writeBE _ _ _ h)]
    by_cases e : k = n
    · subst e; simp
    · rw [if_neg (by omega), ih _ (by omega), Nat.div_div_eq_div_mul, ← Nat.pow_succ']
      congr 3
      omega

/-- `n` bytes hold a number below `256 ^ n`. -/
theorem Memory.readBE_lt (m : Memory) (a n : Nat) : Memory.readBE m a n < 256 ^ n := by
  induction n with
  | zero => simp [Memory.readBE]
  | succ n ih =>
    have := (Memory.read m (a + n)).isLt
    simp only [Memory.readBE, Nat.pow_succ]
    omega

/-- A read of several bytes depends on those bytes alone. -/
theorem Memory.readBE_congr {m m' : Memory} (a n : Nat)
    (h : ∀ k, k < n → Memory.read m (a + k) = Memory.read m' (a + k)) :
    Memory.readBE m a n = Memory.readBE m' a n := by
  induction n with
  | zero => rfl
  | succ n ih => rw [Memory.readBE, Memory.readBE, ih (fun k hk => h k (by omega)), h n (by omega)]

/-- Reading the bytes just written gives the low `8 * n` bits of the value. -/
theorem Memory.readBE_writeBE {m : Memory} (a n v : Nat) (h : Memory.wf m = true) :
    Memory.readBE (Memory.writeBE m a n v) a n = v % 256 ^ n := by
  induction n generalizing v with
  | zero => simp [Memory.readBE, Nat.mod_one]
  | succ n ih =>
    have hin := Memory.read_writeBE_inside (m := m) a (n + 1) v n h (by omega)
    have hc : Memory.readBE (Memory.writeBE m a (n + 1) v) a n = Memory.readBE (Memory.writeBE m a n (v / 256)) a n := by
      refine Memory.readBE_congr _ _ (fun k hk => ?_)
      rw [Memory.writeBE, Memory.read_write _ _ _ (Memory.wf_writeBE _ _ _ h), if_neg (by omega)]
    rw [Memory.readBE, hc, ih, hin]
    have e : (BitVec.ofNat 8 (v / 256 ^ (n + 1 - 1 - n))).toNat = v % 256 := by simp
    rw [e, Nat.pow_succ', Nat.mod_mul]
    omega

end Sys2Proof.Machine
end

