-- ==== Sys2Proof/Laws/Registers.lean ====
section
/-! SUPPORT. What a register reads after a register is written: 10_state.md R22, R37. -/

namespace Sys2Proof.Machine

/-- Register 31 reads 0 (R22). -/
@[simp] theorem State.readX_xzr (s : State) : s.readX 31#5 = 0#64 := by
  simp [State.readX]

/-- Reading an integer register after a write of one (R22). -/
theorem State.readX_writeX (s : State) (r q : RegNum) (v : Word) :
    (s.writeX r v).readX q = if q = r ∧ r ≠ 31 then v else s.readX q := by
  have hr := r.isLt
  have e31 : r = 31 ↔ r.toNat = 31 := by
    constructor
    · rintro rfl; rfl
    · intro h; exact BitVec.eq_of_toNat_eq h
  have eq : q = r ↔ q.toNat = r.toNat := by
    constructor
    · rintro rfl; rfl
    · intro h; exact BitVec.eq_of_toNat_eq h
  simp only [State.readX, State.writeX, writeXregs, ne_eq, e31, eq]
  by_cases h : r.toNat < 31
  · by_cases hq : q.toNat < 31
    · by_cases hqr : q.toNat = r.toNat
      · simp [h, hqr, show r.toNat ≠ 31 by omega]
      · simp [h, hq, hqr, Vector.getElem_set_ne _ _ (Ne.symm hqr)]
    · simp [hq, show q.toNat ≠ r.toNat by omega]
  · simp [show r.toNat = 31 by omega]

/-- The destination of a write reads the value, or 0 where it is register 31 (R22). -/
theorem State.readX_writeX_self (s : State) (r : RegNum) (v : Word) :
    (s.writeX r v).readX r = if r = 31 then 0 else v := by
  rw [State.readX_writeX]
  by_cases h : r = 31
  · subst h; simp
  · rw [if_pos ⟨rfl, h⟩, if_neg h]

/-- Every other register reads as before a write. -/
theorem State.readX_writeX_ne (s : State) {r q : RegNum} (v : Word) (h : q ≠ r) :
    (s.writeX r v).readX q = s.readX q := by
  simp [State.readX_writeX, h]

/-- A write of register 31 changes nothing (R22). -/
theorem State.writeX_xzr (s : State) (v : Word) : s.writeX 31 v = s := by
  simp [State.writeX, writeXregs]

/-- Reading a floating-point register after a write of one (R37). -/
theorem State.readD_writeD (s : State) (r q : RegNum) (v : Word) :
    (s.writeD r v).readD q = if q = r then v else s.readD q := by
  have eq : q = r ↔ q.toNat = r.toNat := by
    constructor
    · rintro rfl; rfl
    · intro h; exact BitVec.eq_of_toNat_eq h
  simp only [State.readD, State.writeD, eq]
  by_cases h : q.toNat = r.toNat
  · simp [h]
  · simp [h, Vector.getElem_set_ne _ _ (Ne.symm h)]

/-- Reading a floating-point register after a single-precision write (R37). -/
theorem State.readD_writeS (s : State) (r q : RegNum) (v : BitVec 32) :
    (s.writeS r v).readD q =
      if q = r then s.params.sWriteUpper.value (Config.freeUpperHalf s.draws) ++ v else s.readD q := by
  simp only [State.writeS, State.readD_drawIf]
  exact State.readD_writeD ..

/-- A single-precision register holds what was written to it (R37). -/
theorem State.readS_writeS (s : State) (r q : RegNum) (v : BitVec 32) :
    (s.writeS r v).readS q = if q = r then v else s.readS q := by
  simp only [State.readS, State.readD_writeS]
  split
  · exact BitVec.extractLsb'_append_eq_right
  · rfl

/-- A single-precision register is the low half of what was written to the double (R37). -/
theorem State.readS_writeD (s : State) (r q : RegNum) (v : Word) :
    (s.writeD r v).readS q = if q = r then v.extractLsb' 0 32 else s.readS q := by
  simp only [State.readS, State.readD_writeD]
  split <;> rfl

end Sys2Proof.Machine
end

