-- ==== Sys2Proof/Laws/Ops.lean ====
section
/-! SUPPORT. Each shared operation once: what it can answer and when. -/

namespace Sys2Proof.Machine

/-! ### Admission, alignment, text -/

theorem State.admits_iff (s : State) (a : Nat) :
    s.admits a = true ↔ ∃ r ∈ s.ranges, r.base ≤ a ∧ a < r.base + r.size := by
  simp [State.admits, MemRange.contains]

theorem State.admitted_iff (s : State) (a n : Nat) :
    s.admitted a n = true ↔ a + n ≤ 2 ^ 64 ∧ ∀ k, k < n → s.admits (a + k) = true := by
  simp [State.admitted]

theorem accessAdmitted_iff (s : State) (ea : Word) (n : Nat) :
    accessAdmitted s ea n ↔ s.admitted ea.toNat n = true := by
  rw [State.admitted_iff, accessAdmitted]
  simp only [State.admits_iff]

theorem accessAligned_iff (s : State) (ex : Bool) (ea : Word) (n : Nat) :
    accessAligned s ex ea n ↔ s.misaligned ex ea n = false := by
  cases ex <;> cases hm : s.params.misalignedData <;> simp [accessAligned, State.misaligned, hm]

theorem aborts_iff (s : State) (ex : Bool) (ea : Word) (n : Nat) :
    s.aborts ex ea n = true ↔ ¬ (accessAligned s ex ea n ∧ accessAdmitted s ea n) := by
  rw [accessAligned_iff, accessAdmitted_iff, State.aborts]
  cases s.misaligned ex ea n <;> cases s.admitted ea.toNat n <;> simp

theorem not_aborts_iff (s : State) (ex : Bool) (ea : Word) (n : Nat) :
    s.aborts ex ea n = false ↔ accessAligned s ex ea n ∧ accessAdmitted s ea n := by
  have := aborts_iff s ex ea n
  cases h : s.aborts ex ea n <;> simp_all

theorem touchesText_iff (s : State) (ea : Word) (n : Nat) :
    s.touchesText ea.toNat n = true ↔ accessTouchesText s ea n := by
  simp [State.touchesText, accessTouchesText, MemRange.contains]

theorem pcInText_iff (s : State) :
    (List.range 4).all (fun k => s.text.contains (s.pc.toNat + k)) = true ↔ pcInText s := by
  simp [pcInText, MemRange.contains]

/-- A byte access is always aligned (20_memory.md R60). -/
theorem accessAligned_one (s : State) (ex : Bool) (ea : Word) : accessAligned s ex ea 1 := .inl (Nat.mod_one _)

/-! ### ESR and taking an exception -/

@[simp] theorem esrEC_esrOf (ec : BitVec 6) (il : BitVec 1) (iss : BitVec 25) : esrEC (esrOf ec il iss) = ec := by
  apply BitVec.eq_of_getLsbD_eq
  intro i hi
  simp only [esrEC, esrOf, BitVec.getLsbD_extractLsb', BitVec.getLsbD_append, hi, decide_true, Bool.true_and]
  simp [show ¬ (26 + i < 25) by omega, show 26 + i - 25 ≠ 0 by omega, show 26 + i - 25 - 1 = i by omega]

@[simp] theorem esrIL_esrOf (ec : BitVec 6) (il : BitVec 1) (iss : BitVec 25) : esrIL (esrOf ec il iss) = il := by
  apply BitVec.eq_of_getLsbD_eq
  intro i hi
  simp only [esrIL, esrOf, BitVec.getLsbD_extractLsb', BitVec.getLsbD_append, hi, decide_true, Bool.true_and]
  simp [show i = 0 by omega]

@[simp] theorem esrISS_esrOf (ec : BitVec 6) (il : BitVec 1) (iss : BitVec 25) : esrISS (esrOf ec il iss) = iss := by
  apply BitVec.eq_of_getLsbD_eq
  intro i hi
  simp only [esrISS, esrOf, BitVec.getLsbD_extractLsb', BitVec.getLsbD_append, hi, decide_true, Bool.true_and]
  simp [hi]

/-- Taking an exception leaves what R290 to R292 say. -/
theorem raise_tookException (s : State) (c : ExceptionClass) (i : Word) : tookException c i s (s.raise c i) := by
  refine ⟨?_, ?_, rfl, rfl, rfl, fun _ => rfl, fun _ => rfl, rfl, fun _ => rfl, rfl, rfl, rfl, rfl⟩
  · simp
  · simp

/-! ### Loads and stores -/

/-- A load that may be made writes the value read and moves the pc on. -/
theorem loadAt_ok {s : State} {ex : Bool} {ea : Word} {n : Nat} {write : Nat → State → State}
    (h : accessAligned s ex ea n ∧ accessAdmitted s ea n) :
    loadAt s ex ea n write = .next (write (s.memRead ea n) s).advance := by
  rw [loadAt, (not_aborts_iff s ex ea n).mpr h]
  rfl

/-- A load that may not be made takes a Data Abort. -/
theorem loadAt_abort {s : State} {ex : Bool} {ea : Word} {n : Nat} {write : Nat → State → State}
    (h : ¬ (accessAligned s ex ea n ∧ accessAdmitted s ea n)) :
    loadAt s ex ea n write = .next (s.raise .dataAbort ea) := by
  rw [loadAt, (aborts_iff s ex ea n).mpr h]
  rfl

/-- All a load can answer. -/
theorem loadAt_cases {s t : State} {ex : Bool} {ea : Word} {n : Nat} {write : Nat → State → State}
    (h : loadAt s ex ea n write = .next t) :
    (s.aborts ex ea n = true ∧ t = s.raise .dataAbort ea) ∨
      (s.aborts ex ea n = false ∧ t = (write (s.memRead ea n) s).advance) := by
  unfold loadAt at h
  split at h
  · rename_i ha; injection h with h; exact .inl ⟨ha, h.symm⟩
  · rename_i ha; injection h with h; exact .inr ⟨by simpa using ha, h.symm⟩

/-- A store that may be made, outside the text, writes and moves the pc on. -/
theorem storeAt_ok {s : State} {ea : Word} {n v : Nat}
    (h : accessAligned s false ea n ∧ accessAdmitted s ea n) (ht : ¬ accessTouchesText s ea n) :
    storeAt s ea n v = .next (s.memWrite ea n v).advance := by
  have ht' : s.touchesText ea.toNat n = false := by
    rw [← touchesText_iff] at ht; simpa using ht
  rw [storeAt, (not_aborts_iff s false ea n).mpr h, ht']
  rfl

/-- A store that may not be made takes a Data Abort. -/
theorem storeAt_abort {s : State} {ea : Word} {n v : Nat}
    (h : ¬ (accessAligned s false ea n ∧ accessAdmitted s ea n)) :
    storeAt s ea n v = .next (s.raise .dataAbort ea) := by
  rw [storeAt, (aborts_iff s false ea n).mpr h]
  rfl

/-- A store that may be made but touches the text is refused. -/
theorem storeAt_text {s : State} {ea : Word} {n v : Nat}
    (h : accessAligned s false ea n ∧ accessAdmitted s ea n) (ht : accessTouchesText s ea n) :
    storeAt s ea n v = .refused (.storeIntoText ea) := by
  rw [storeAt, (not_aborts_iff s false ea n).mpr h, (touchesText_iff s ea n).mpr ht]
  rfl

/-- All a store can answer as a next state. -/
theorem storeAt_cases {s t : State} {ea : Word} {n v : Nat} (h : storeAt s ea n v = .next t) :
    (s.aborts false ea n = true ∧ t = s.raise .dataAbort ea) ∨
      (s.aborts false ea n = false ∧ s.touchesText ea.toNat n = false ∧ t = (s.memWrite ea n v).advance) := by
  unfold storeAt at h
  split at h
  · rename_i ha; injection h with h; exact .inl ⟨ha, h.symm⟩
  · split at h
    · cases h
    · rename_i ha ht
      injection h with h
      exact .inr ⟨by simpa using ha, by simpa using ht, h.symm⟩

/-- All STXR can answer as a next state (42_core_load_store.md R190). -/
theorem execStxr_cases {s t : State} {rt rn : RegNum} {dt : BitVec 9} (h : execStxr rt rn dt s = .next t) :
    (s.aborts true (stxrAddr s rn dt) 8 = true ∧ t = s.raise .dataAbort (stxrAddr s rn dt)) ∨
      (s.aborts true (stxrAddr s rn dt) 8 = false ∧ t = stxrEnd s dt 1) ∨
      (s.aborts true (stxrAddr s rn dt) 8 = false ∧ s.touchesText (stxrAddr s rn dt).toNat 8 = false ∧
        stxrSucceeds s (stxrAddr s rn dt) = true ∧
        t = stxrEnd (s.memWrite (stxrAddr s rn dt) 8 (s.readX rt).toNat) dt 0) := by
  unfold execStxr at h
  split at h
  · cases h
  · split at h
    · rename_i ha; injection h with h; exact .inl ⟨ha, h.symm⟩
    · rename_i ha
      have ha' : s.aborts true (stxrAddr s rn dt) 8 = false := by simpa using ha
      split at h
      · injection h with h; exact .inr (.inl ⟨ha', h.symm⟩)
      · rename_i hs
        split at h
        · cases h
        · rename_i ht
          injection h with h
          exact .inr (.inr ⟨ha', by simpa using ht, by simpa using hs, h.symm⟩)

/-! ### Fetch and step -/

/-- All a fetch can answer (20_memory.md R64, in the order of 60_exceptions.md R289). -/
theorem fetch_cases (s : State) :
    (s.pc.toNat % 4 ≠ 0 ∧ s.fetch = .error .misalignedPC) ∨
      (s.pc.toNat % 4 = 0 ∧ ¬ pcInText s ∧ s.fetch = .error .instructionAbort) ∨
      (s.pc.toNat % 4 = 0 ∧ pcInText s ∧ s.fetch = .ok (BitVec.ofNat 32 (Memory.readBE s.mem s.pc.toNat 4))) := by
  by_cases h : s.pc.toNat % 4 = 0
  · by_cases ht : pcInText s
    · refine .inr (.inr ⟨h, ht, ?_⟩)
      rw [State.fetch, if_neg (by simp [h]), if_pos ((pcInText_iff s).mpr ht), State.memRead_eq]
    · refine .inr (.inl ⟨h, ht, ?_⟩)
      rw [State.fetch, if_neg (by simp [h]), if_neg (fun hh => ht ((pcInText_iff s).mp hh))]
  · exact .inl ⟨h, by rw [State.fetch, if_pos h]⟩

/-- All a step can answer as a next state (00_scope.md R5): the fetch's exception, the decoder's, or the instruction. -/
theorem step_cases {s t : State} (h : step s = .next t) :
    s.fault = none ∧ s.haltPc ≠ some s.pc ∧
      ((∃ c, s.fetch = .error c ∧ t = s.raise c s.pc) ∨
        (∃ w e, s.fetch = .ok w ∧ decodeWord s.params w = .error e ∧ t = s.raise .unknown (w.setWidth 64)) ∨
        (∃ w i, s.fetch = .ok w ∧ decodeWord s.params w = .ok i ∧ exec i s = .next t)) := by
  unfold step at h
  split at h
  · cases h
  · rename_i hf
    split at h
    · cases h
    · rename_i hh
      refine ⟨hf, hh, ?_⟩
      split at h
      · rename_i c hc; injection h with h; exact .inl ⟨c, hc, h.symm⟩
      · rename_i w hw
        split at h
        · rename_i e he; injection h with h; exact .inr (.inl ⟨w, e, hw, he, h.symm⟩)
        · rename_i i hi; exact .inr (.inr ⟨w, i, hw, hi, h⟩)

end Sys2Proof.Machine
end

