-- ==== Sys2Proof/Laws/Exec.lean ====
section
/-! SUPPORT. Every next state an instruction can answer, by its shape: one case analysis of exec for all the statements
that hold of every instruction. -/

namespace Sys2Proof.Machine

/-- The shapes of a next state of an instruction. -/
inductive ExecShape (s : State) : Instr → State → Prop where
  /-- An integer result, and the flags untouched. -/
  | result (i : Instr) (rd : RegNum) (v : Word) (hd : destX i = some rd)
      (hf : destD i = none) (hw : writesFlags i = false) (hl : isLoad i = false) (hs : isStore i = false)
      (hb : isBranch i = false) : ExecShape s i (s.writeX rd v).advance
  /-- An integer result and the flags. -/
  | resultFlags (i : Instr) (rd : RegNum) (v : Word) (f : Flags) (b : Bool) (hd : destX i = some rd)
      (hf : destD i = none) (hw : writesFlags i = true) (hl : isLoad i = false) (hs : isStore i = false)
      (hb : isBranch i = false) :
      ExecShape s i (((s.writeX rd v).setFlags f).drawIf b).advance
  /-- A floating-point compare: the flags alone. -/
  | compare (i : Instr) (f : Flags) (b : Bool) (hd : destX i = none) (hf : destD i = none) (hw : writesFlags i = true)
      (hl : isLoad i = false) (hs : isStore i = false) (hb : isBranch i = false) :
      ExecShape s i ((s.setFlags f).drawIf b).advance
  /-- A single-precision result, computed or loaded. -/
  | single (i : Instr) (rd : RegNum) (v : BitVec 32) (hd : destX i = none) (hf : destD i = some rd)
      (hw : writesFlags i = false) (hs : isStore i = false) (hb : isBranch i = false) :
      ExecShape s i (s.writeS rd v).advance
  /-- A double-precision result, computed or loaded. -/
  | double (i : Instr) (rd : RegNum) (v : Word) (hd : destX i = none) (hf : destD i = some rd)
      (hw : writesFlags i = false) (hs : isStore i = false) (hb : isBranch i = false) :
      ExecShape s i (s.writeD rd v).advance
  /-- An integer load, but for LDXR. -/
  | load (i : Instr) (rt : RegNum) (v : Word) (hd : destX i = some rt)
      (hf : destD i = none) (hw : writesFlags i = false) (hl : isLoad i = true) (hs : isStore i = false)
      (hb : isBranch i = false) (hx : ∀ a b c, i ≠ .ldxr a b c) :
      ExecShape s i (s.writeX rt v).advance
  /-- LDXR. -/
  | ldxr (rt rn : RegNum) (dt : BitVec 9) (v : Word) (ha : s.aborts true (s.effAddr rn dt) 8 = false) :
      ExecShape s (.ldxr rt rn dt) ((s.writeX rt v).setMonitor (some (s.effAddr rn dt))).advance
  /-- A store, but for STXR. -/
  | store (i : Instr) (ea : Word) (n v : Nat) (hd : destX i = none)
      (hf : destD i = none) (hw : writesFlags i = false) (hl : isLoad i = false) (hs : isStore i = true)
      (hb : isBranch i = false) (hx : ∀ a b c, i ≠ .stxr a b c)
      (ha : s.aborts false ea n = false) (ht : s.touchesText ea.toNat n = false) :
      ExecShape s i (s.memWrite ea n v).advance
  /-- STXR that stores nothing. -/
  | stxrFailure (rt rn : RegNum) (dt : BitVec 9) : ExecShape s (.stxr rt rn dt) (stxrEnd s dt 1)
  /-- STXR that stores. -/
  | stxrSuccess (rt rn : RegNum) (dt : BitVec 9) (ha : s.aborts true (stxrAddr s rn dt) 8 = false)
      (ht : s.touchesText (stxrAddr s rn dt).toNat 8 = false) :
      ExecShape s (.stxr rt rn dt) (stxrEnd (s.memWrite (stxrAddr s rn dt) 8 (s.readX rt).toNat) dt 0)
  /-- A load or store that takes a Data Abort; LDXR's is at its effective address. -/
  | abort (i : Instr) (ea : Word) (hw : writesFlags i = false) (hl : isLoad i = true ∨ isStore i = true)
      (hb : isBranch i = false) (hx : ∀ a b c, i = .ldxr a b c → ea = s.effAddr b c) :
      ExecShape s i (s.raise .dataAbort ea)
  /-- A branch not taken. -/
  | notTaken (i : Instr) (hd : destX i = none)
      (hf : destD i = none) (hw : writesFlags i = false) (hl : isLoad i = false) (hs : isStore i = false)
      (hb : isBranch i = true) : ExecShape s i s.advance
  /-- A branch taken, but for BL and BR: `off` is a multiple of 4. -/
  | taken (i : Instr) (off : Word) (ho : off.toNat % 4 = 0) (hd : destX i = none) (hf : destD i = none)
      (hw : writesFlags i = false) (hl : isLoad i = false) (hs : isStore i = false) (hb : isBranch i = true) :
      ExecShape s i (s.setPc (s.pc + off))
  /-- BL. -/
  | bl (addr : BitVec 26) : ExecShape s (.bl addr) ((s.writeX RegNum.lr (s.pc + 4)).setPc (s.pc + branchAddr addr))
  /-- BR. -/
  | br (rt : RegNum) : ExecShape s (.br rt) (s.setPc (s.readX rt))

/-- The low two bits of a branch offset are 0 (30_encoding.md R91, R92). -/
theorem signExtend_append_mod_four {n : Nat} (a : BitVec n) : ((a ++ (0 : BitVec 2)).signExtend 64).toNat % 4 = 0 := by
  have h : ((a ++ (0 : BitVec 2)).signExtend 64).setWidth 2 = 0 := by
    apply BitVec.eq_of_getLsbD_eq
    intro i hi
    rw [BitVec.getLsbD_setWidth, BitVec.getLsbD_signExtend, BitVec.getLsbD_append, if_pos (by omega), if_pos hi]
    simp
  simpa [BitVec.toNat_setWidth] using congrArg BitVec.toNat h

/-- An integer result and the flags, with nothing drawn. -/
theorem ExecShape.plainFlags {s : State} {i : Instr} {rd : RegNum} {v : Word} {f : Flags} (hd : destX i = some rd)
    (hf : destD i = none) (hw : writesFlags i = true) (hl : isLoad i = false) (hs : isStore i = false)
    (hb : isBranch i = false) : ExecShape s i ((s.writeX rd v).setFlags f).advance :=
  .resultFlags i rd v f false hd hf hw hl hs hb

/-- The shape of a load, but for LDXR. -/
theorem loadAt_shape {s t : State} {i : Instr} {ea : Word} {n : Nat} {write : Nat → State → State}
    (h : loadAt s false ea n write = .next t) (hw : writesFlags i = false) (hl : isLoad i = true)
    (hb : isBranch i = false) (hx : ∀ a b c, i ≠ .ldxr a b c)
    (ok : ExecShape s i (write (s.memRead ea n) s).advance) :
    ExecShape s i t := by
  rcases loadAt_cases h with ⟨_, rfl⟩ | ⟨_, rfl⟩
  · exact .abort _ _ hw (.inl hl) hb (fun a b c h => absurd h (hx a b c))
  · exact ok

/-- The shape of a store, but for STXR. -/
theorem storeAt_shape {s t : State} {i : Instr} {ea : Word} {n v : Nat} (h : storeAt s ea n v = .next t)
    (hd : destX i = none) (hf : destD i = none) (hw : writesFlags i = false) (hl : isLoad i = false)
    (hs : isStore i = true) (hb : isBranch i = false) (hx : ∀ a b c, i ≠ .stxr a b c) : ExecShape s i t := by
  rcases storeAt_cases h with ⟨_, rfl⟩ | ⟨ha, ht, rfl⟩
  · refine .abort _ _ hw (.inr hs) hb (fun a b c h => ?_)
    subst h
    cases hl
  · exact .store _ _ _ _ hd hf hw hl hs hb hx ha ht

/-- Every next state of every instruction has one of the shapes. -/
theorem exec_shape {i : Instr} {s t : State} (h : exec i s = .next t) : ExecShape s i t := by
  cases i with
  | add => injection h with h; subst h; exact .result _ _ _ rfl rfl rfl rfl rfl rfl
  | addi => injection h with h; subst h; exact .result _ _ _ rfl rfl rfl rfl rfl rfl
  | and => injection h with h; subst h; exact .result _ _ _ rfl rfl rfl rfl rfl rfl
  | andi => injection h with h; subst h; exact .result _ _ _ rfl rfl rfl rfl rfl rfl
  | eor => injection h with h; subst h; exact .result _ _ _ rfl rfl rfl rfl rfl rfl
  | eori => injection h with h; subst h; exact .result _ _ _ rfl rfl rfl rfl rfl rfl
  | lsl => injection h with h; subst h; exact .result _ _ _ rfl rfl rfl rfl rfl rfl
  | lsr => injection h with h; subst h; exact .result _ _ _ rfl rfl rfl rfl rfl rfl
  | movk => injection h with h; subst h; exact .result _ _ _ rfl rfl rfl rfl rfl rfl
  | movz => injection h with h; subst h; exact .result _ _ _ rfl rfl rfl rfl rfl rfl
  | orr => injection h with h; subst h; exact .result _ _ _ rfl rfl rfl rfl rfl rfl
  | orri => injection h with h; subst h; exact .result _ _ _ rfl rfl rfl rfl rfl rfl
  | sub => injection h with h; subst h; exact .result _ _ _ rfl rfl rfl rfl rfl rfl
  | subi => injection h with h; subst h; exact .result _ _ _ rfl rfl rfl rfl rfl rfl
  | mul => injection h with h; subst h; exact .result _ _ _ rfl rfl rfl rfl rfl rfl
  | sdiv => injection h with h; subst h; exact .result _ _ _ rfl rfl rfl rfl rfl rfl
  | smulh => injection h with h; subst h; exact .result _ _ _ rfl rfl rfl rfl rfl rfl
  | udiv => injection h with h; subst h; exact .result _ _ _ rfl rfl rfl rfl rfl rfl
  | umulh => injection h with h; subst h; exact .result _ _ _ rfl rfl rfl rfl rfl rfl
  | addis => injection h with h; subst h; exact .plainFlags rfl rfl rfl rfl rfl rfl
  | adds => injection h with h; subst h; exact .plainFlags rfl rfl rfl rfl rfl rfl
  | andis => injection h with h; subst h; exact .resultFlags _ _ _ _ _ rfl rfl rfl rfl rfl rfl
  | ands => injection h with h; subst h; exact .resultFlags _ _ _ _ _ rfl rfl rfl rfl rfl rfl
  | subis => injection h with h; subst h; exact .plainFlags rfl rfl rfl rfl rfl rfl
  | subs => injection h with h; subst h; exact .plainFlags rfl rfl rfl rfl rfl rfl
  | fcmps => injection h with h; subst h; exact .compare _ _ _ rfl rfl rfl rfl rfl rfl
  | fcmpd => injection h with h; subst h; exact .compare _ _ _ rfl rfl rfl rfl rfl rfl
  | fadds => injection h with h; subst h; exact .single _ _ _ rfl rfl rfl rfl rfl
  | fsubs => injection h with h; subst h; exact .single _ _ _ rfl rfl rfl rfl rfl
  | fmuls => injection h with h; subst h; exact .single _ _ _ rfl rfl rfl rfl rfl
  | fdivs => injection h with h; subst h; exact .single _ _ _ rfl rfl rfl rfl rfl
  | faddd => injection h with h; subst h; exact .double _ _ _ rfl rfl rfl rfl rfl
  | fsubd => injection h with h; subst h; exact .double _ _ _ rfl rfl rfl rfl rfl
  | fmuld => injection h with h; subst h; exact .double _ _ _ rfl rfl rfl rfl rfl
  | fdivd => injection h with h; subst h; exact .double _ _ _ rfl rfl rfl rfl rfl
  | ldur =>
    simp only [exec, execLdur] at h
    exact loadAt_shape h rfl rfl rfl (fun _ _ _ h => nomatch h) 
      (.load _ _ _ rfl rfl rfl rfl rfl rfl (fun _ _ _ h => nomatch h))
  | ldurb =>
    simp only [exec, execLdurb] at h
    exact loadAt_shape h rfl rfl rfl (fun _ _ _ h => nomatch h) 
      (.load _ _ _ rfl rfl rfl rfl rfl rfl (fun _ _ _ h => nomatch h))
  | ldurh =>
    simp only [exec, execLdurh] at h
    exact loadAt_shape h rfl rfl rfl (fun _ _ _ h => nomatch h) 
      (.load _ _ _ rfl rfl rfl rfl rfl rfl (fun _ _ _ h => nomatch h))
  | ldursw =>
    simp only [exec, execLdursw] at h
    exact loadAt_shape h rfl rfl rfl (fun _ _ _ h => nomatch h) 
      (.load _ _ _ rfl rfl rfl rfl rfl rfl (fun _ _ _ h => nomatch h))
  | ldurs =>
    simp only [exec, execLdurs] at h
    exact loadAt_shape h rfl rfl rfl (fun _ _ _ h => nomatch h) (.single _ _ _ rfl rfl rfl rfl rfl)
  | ldurd =>
    simp only [exec, execLdurd] at h
    exact loadAt_shape h rfl rfl rfl (fun _ _ _ h => nomatch h) (.double _ _ _ rfl rfl rfl rfl rfl)
  | ldxr rt rn dt =>
    simp only [exec, execLdxr] at h
    rcases loadAt_cases h with ⟨_, rfl⟩ | ⟨ha, rfl⟩
    · exact .abort _ _ rfl (.inl rfl) rfl (fun a b c h => by cases h; rfl)
    · exact .ldxr rt rn dt _ ha
  | stur =>
    simp only [exec, execStur] at h
    exact storeAt_shape h rfl rfl rfl rfl rfl rfl (fun _ _ _ h => nomatch h)
  | sturb =>
    simp only [exec, execSturb] at h
    exact storeAt_shape h rfl rfl rfl rfl rfl rfl (fun _ _ _ h => nomatch h)
  | sturh =>
    simp only [exec, execSturh] at h
    exact storeAt_shape h rfl rfl rfl rfl rfl rfl (fun _ _ _ h => nomatch h)
  | sturw =>
    simp only [exec, execSturw] at h
    exact storeAt_shape h rfl rfl rfl rfl rfl rfl (fun _ _ _ h => nomatch h)
  | sturs =>
    simp only [exec, execSturs] at h
    exact storeAt_shape h rfl rfl rfl rfl rfl rfl (fun _ _ _ h => nomatch h)
  | sturd =>
    simp only [exec, execSturd] at h
    exact storeAt_shape h rfl rfl rfl rfl rfl rfl (fun _ _ _ h => nomatch h)
  | stxr rt rn dt =>
    simp only [exec] at h
    rcases execStxr_cases h with ⟨_, rfl⟩ | ⟨_, rfl⟩ | ⟨ha, ht, _, rfl⟩
    · exact .abort _ _ rfl (.inr rfl) rfl (fun _ _ _ h => nomatch h)
    · exact .stxrFailure rt rn dt
    · exact .stxrSuccess rt rn dt ha ht
  | b => injection h with h; subst h; exact .taken _ _ (signExtend_append_mod_four _) rfl rfl rfl rfl rfl rfl
  | bl addr => injection h with h; subst h; exact .bl addr
  | br rt => injection h with h; subst h; exact .br rt
  | bCond =>
    injection h with h
    subst h
    split
    · exact .taken _ _ (signExtend_append_mod_four _) rfl rfl rfl rfl rfl rfl
    · exact .notTaken _ rfl rfl rfl rfl rfl rfl
  | cbnz =>
    injection h with h
    subst h
    split
    · exact .taken _ _ (signExtend_append_mod_four _) rfl rfl rfl rfl rfl rfl
    · exact .notTaken _ rfl rfl rfl rfl rfl rfl
  | cbz =>
    injection h with h
    subst h
    split
    · exact .taken _ _ (signExtend_append_mod_four _) rfl rfl rfl rfl rfl rfl
    · exact .notTaken _ rfl rfl rfl rfl rfl rfl

end Sys2Proof.Machine
end

