-- ==== Sys2Proof/Laws/Flags.lean ====
section
/-! SUPPORT. `COND_TABLE` as a parameter: what a condition means by default, and that every predicate of the flags is a
meaning (41_core_branch.md R161, R165). -/

namespace Sys2Proof.Machine

/-- An assigned condition holds as its meaning does. -/
theorem branchHolds_of_entry {t : CondTable} {c : BitVec 4} {m : CondMeaning} (h : condEntry t c = some m) (f : Flags) :
    branchHolds t c f = meaningHolds m f := by
  simp [branchHolds, h]

/-- By default the condition that encodes a suffix holds as R161's row says. -/
@[simp] theorem branchHolds_encodeCond (c : Cond) (f : Flags) :
    branchHolds defaultCondTable (encodeCond c) f = condHolds c f :=
  branchHolds_of_entry (condEntry_encodeCond c) f

/-- Every predicate of the four flags is the meaning of some truth table. -/
theorem exists_meaning (p : Flags → Bool) : ∃ m : CondMeaning, ∀ f, meaningHolds m f = p f := by
  let row (k : Nat) : Bool := p ⟨k.testBit 3, k.testBit 2, k.testBit 1, k.testBit 0⟩
  refine ⟨.truth ((BitVec.ofBoolListLE ((List.range 16).map row)).cast (by simp)), ?_⟩
  rintro ⟨n, z, c, v⟩
  have h : (⟨n, z, c, v⟩ : Flags).index < 16 := by cases n <;> cases z <;> cases c <;> cases v <;> decide
  simp only [meaningHolds, BitVec.getLsbD_cast, BitVec.getLsbD_ofBoolListLE]
  rw [List.getD_eq_getElem _ _ (by simpa using h)]
  simp only [List.getElem_map, List.getElem_range, row]
  cases n <;> cases z <;> cases c <;> cases v <;> rfl

end Sys2Proof.Machine
end

