-- ==== Sys2Proof/Laws/Float.lean ====
section
/-! SUPPORT. The numerics record `FP` as a parameter: what it gives by default and for a listed case, and that every record
is a setting (44_arith_float.md R235). -/

namespace Sys2Proof.Machine

@[simp] theorem fpListed_nil {w : Nat} (op : FpOp) (a b d : BitVec w) : fpListed [] op a b d = d := rfl

/-- By default the record is the default instance. -/
@[simp] theorem numerics32_default (op : FpOp) (a b : BitVec 32) : numerics32 Params.default.fp op a b = fp32 op a b := rfl
@[simp] theorem numerics64_default (op : FpOp) (a b : BitVec 64) : numerics64 Params.default.fp op a b = fp64 op a b := rfl

/-- The first case that matches counts. -/
theorem fpListed_cons_same {w : Nat} (c : FpCase w) (t : List (FpCase w)) (d : BitVec w) :
    fpListed (c :: t) c.op c.a c.b d = c.result := by
  simp [fpListed]

/-- A list of cases that all agree with a record gives that record on every case that it lists. -/
theorem fpListed_of_agrees {w : Nat} (f : FpOp → BitVec w → BitVec w → BitVec w) (op : FpOp) (a b d : BitVec w)
    (cases : List (FpCase w)) (h : ∀ c ∈ cases, c.result = f c.op c.a c.b)
    (m : ∃ c ∈ cases, c.op = op ∧ c.a = a ∧ c.b = b) : fpListed cases op a b d = f op a b := by
  induction cases with
  | nil => simp at m
  | cons c t ih =>
    unfold fpListed
    split
    · rename_i e
      rw [h c List.mem_cons_self, e.1, e.2.1, e.2.2]
    · rename_i e
      refine ih (fun c hc => h c (List.mem_cons_of_mem _ hc)) ?_
      obtain ⟨x, hx, hm⟩ := m
      rcases List.mem_cons.mp hx with rfl | hx
      · exact absurd hm e
      · exact ⟨x, hx, hm⟩

/-- What is not listed is the default. -/
theorem fpListed_of_not_listed {w : Nat} (op : FpOp) (a b d : BitVec w) (cases : List (FpCase w))
    (h : ∀ c ∈ cases, ¬ (c.op = op ∧ c.a = a ∧ c.b = b)) : fpListed cases op a b d = d := by
  induction cases with
  | nil => rfl
  | cons c t ih =>
    rw [fpListed, if_neg (h c List.mem_cons_self)]
    exact ih fun x hx => h x (List.mem_cons_of_mem _ hx)

/-- Every case of a record, once. -/
def allCases {w : Nat} (f : FpOp → BitVec w → BitVec w → BitVec w) : List (FpCase w) :=
  [FpOp.add, .sub, .mul, .div].flatMap (fun op =>
    (List.range (2 ^ w)).flatMap (fun i => (List.range (2 ^ w)).map (fun j =>
      ⟨op, BitVec.ofNat w i, BitVec.ofNat w j, f op (BitVec.ofNat w i) (BitVec.ofNat w j)⟩)))

theorem fpListed_allCases {w : Nat} (f : FpOp → BitVec w → BitVec w → BitVec w) (op : FpOp) (a b d : BitVec w) :
    fpListed (allCases f) op a b d = f op a b := by
  refine fpListed_of_agrees f op a b d _ ?_ ⟨⟨op, a, b, f op a b⟩, ?_, rfl, rfl, rfl⟩
  · intro c hc
    simp only [allCases, List.mem_flatMap, List.mem_map] at hc
    obtain ⟨_, _, _, _, _, _, rfl⟩ := hc
    rfl
  · simp only [allCases, List.mem_flatMap, List.mem_map, List.mem_range]
    exact ⟨op, by cases op <;> simp, a.toNat, a.isLt, b.toNat, b.isLt, by simp⟩

/-- Every numerics record of R235, eight total functions of bit patterns, is a setting of the parameter. -/
theorem exists_setting (f : FpOp → BitVec 32 → BitVec 32 → BitVec 32) (g : FpOp → BitVec 64 → BitVec 64 → BitVec 64) :
    ∃ fp : FpSetting, numerics32 fp = f ∧ numerics64 fp = g := by
  have h (op : FpOp) (a b d : BitVec 32) := fpListed_allCases f op a b d
  have k (op : FpOp) (a b d : BitVec 64) := fpListed_allCases g op a b d
  generalize allCases f = single at h
  generalize allCases g = double at k
  exact ⟨⟨single, double⟩, by funext op a b; exact h op a b _, by funext op a b; exact k op a b _⟩

end Sys2Proof.Machine
end

