-- ==== Sys2Proof/Tests/Slice0.lean ====
section
/-! SUPPORT. Our own tests: the smoke test of WellFormed, every constructor's decoding from a word of 95_test_vectors.md
section 2, one-step results from its section 3, and a witness for the hypotheses of every statement. -/

namespace Sys2Proof.Tests

open Sys2Proof Sys2Proof.Machine

-- Each test waits for the kernel's answer: elaborated side by side, they would hold a thread each.
set_option Elab.async false

/-! ### WellFormed: STXR under each setting of STXR_OFFSET (42_core_load_store.md R190), B.cond under COND_TABLE (R161) -/

/-- The default parameters but for `STXR_OFFSET`. -/
def withOffset (o : StxrOffset) : Params := { Params.default with stxrOffset := o }

theorem test_wf_stxr_agree_only_refuses : (Instr.stxr 9 10 0x010).wellFormed (withOffset .agreeOnly) = false := by decide
theorem test_wf_stxr_agree_only_admits : (Instr.stxr 9 10 0).wellFormed (withOffset .agreeOnly) = true := by decide
theorem test_wf_stxr_zero_refuses : (Instr.stxr 9 10 0x011).wellFormed (withOffset .zero) = false := by decide
theorem test_wf_stxr_zero_admits : (Instr.stxr 9 10 0x1F0).wellFormed (withOffset .zero) = true := by decide
theorem test_wf_stxr_dtaddr_admits : (Instr.stxr 9 10 0x1FF).wellFormed (withOffset .dtaddr) = true := by decide
theorem test_wf_bCond_refuses : (Instr.bCond 0b1110 3).wellFormed Params.default = false := by decide
theorem test_wf_bCond_admits : (Instr.bCond 0b1101 3).wellFormed Params.default = true := by decide
theorem test_wf_others : (Instr.stur 9 10 0x1FF).wellFormed Params.default = true := by decide

/-! ### Decoding: the words of 95_test_vectors.md section 2, every constructor at least once -/

/-- 8B0B0149 is 10001011000 01011 000000 01010 01001: ADD X9, X10, X11. -/
theorem test_decode_add :
    decodeTableWord 32 0b10001011000_01011_000000_01010_01001 = some (.add 9 10 11) := by decide
/-- F100145F is 1111000100 000000000101 00010 11111: SUBIS XZR, X2, #5. -/
theorem test_decode_subis :
    decodeTableWord 32 0b1111000100_000000000101_00010_11111 = some (.subis 31 2 5) := by decide
/-- 54FFFFCB is 01010100 1111111111111111110 01011: B.LT -8. -/
theorem test_decode_bCond :
    decodeTableWord 32 0b01010100_1111111111111111110_01011 = some (.bCond 0b1011 0x7FFFE) := by decide
/-- F85F8149 is 11111000010 111111000 00 01010 01001: LDUR X9, [X10, #-8]. -/
theorem test_decode_ldur :
    decodeTableWord 32 0b11111000010_111111000_00_01010_01001 = some (.ldur 9 10 0x1F8) := by decide
/-- 9B437C41 is 10011011010 00011 011111 00010 00001: SMULH X1, X2, X3. -/
theorem test_decode_smulh :
    decodeTableWord 32 0b10011011010_00011_011111_00010_00001 = some (.smulh 1 2 3) := by decide
/-- 1E633841 is 00011110011 00011 001110 00010 00001: FSUBD D1, D2, D3. -/
theorem test_decode_fsubd :
    decodeTableWord 32 0b00011110011_00011_001110_00010_00001 = some (.fsubd 1 2 3) := by decide

theorem test_decode_arith_register :
    decodeTableWord 32 0xAB030041 = some (.adds 1 2 3) ∧ decodeTableWord 32 0x8A030041 = some (.and 1 2 3) ∧
    decodeTableWord 32 0xEA030041 = some (.ands 1 2 3) ∧ decodeTableWord 32 0xCA030041 = some (.eor 1 2 3) ∧
    decodeTableWord 32 0xAA030041 = some (.orr 1 2 3) ∧ decodeTableWord 32 0xCB030041 = some (.sub 1 2 3) ∧
    decodeTableWord 32 0xEB030041 = some (.subs 1 2 3) ∧ decodeTableWord 32 0xEB03005F = some (.subs 31 2 3) ∧
    decodeTableWord 32 0xD360FC41 = some (.lsl 1 2 63) ∧ decodeTableWord 32 0xD3400441 = some (.lsr 1 2 1) := by decide

theorem test_decode_arith_immediate :
    decodeTableWord 32 0x913FFD49 = some (.addi 9 10 0xFFF) ∧ decodeTableWord 32 0xB1000441 = some (.addis 1 2 1) ∧
    decodeTableWord 32 0x9203FC41 = some (.andi 1 2 255) ∧ decodeTableWord 32 0xF2000441 = some (.andis 1 2 1) ∧
    decodeTableWord 32 0xD23FFC41 = some (.eori 1 2 0xFFF) ∧ decodeTableWord 32 0xB2000441 = some (.orri 1 2 1) ∧
    decodeTableWord 32 0xD1000441 = some (.subi 1 2 1) ∧ decodeTableWord 32 0xF1000441 = some (.subis 1 2 1) ∧
    decodeTableWord 32 0xF2B7DDE1 = some (.movk 1 1 0xBEEF) ∧ decodeTableWord 32 0xD2FBD5A1 = some (.movz 1 3 0xDEAD) := by
  decide

theorem test_decode_branches :
    decodeTableWord 32 0x17FFFFFF = some (.b 0x3FFFFFF) ∧ decodeTableWord 32 0x94000040 = some (.bl 0x40) ∧
    decodeTableWord 32 0x54000060 = some (.bCond 0b0000 3) ∧ decodeTableWord 32 0x5400004D = some (.bCond 0b1101 2) ∧
    decodeTableWord 32 0xD600001E = some (.br 30) ∧ decodeTableWord 32 0xB5FFFFA9 = some (.cbnz 9 0x7FFFD) ∧
    decodeTableWord 32 0xB4000089 = some (.cbz 9 4) := by decide

/-- D60003C0 is BR X30 under `BR_TARGET_FIELD = bits[9:5]`, and D600001E is not BR there (30_encoding.md R103). -/
theorem test_decode_br_other_field :
    let p := { Params.default with brTargetField := .bits9to5 }
    decodeWord p 0xD60003C0 = .ok (.br 30) ∧ decodeWord p 0xD600001E = .error .unusedFieldNotZero := by decide

theorem test_decode_loads_stores :
    decodeTableWord 32 0x38401149 = some (.ldurb 9 10 1) ∧ decodeTableWord 32 0x78402149 = some (.ldurh 9 10 2) ∧
    decodeTableWord 32 0xB89FC041 = some (.ldursw 1 2 0x1FC) ∧ decodeTableWord 32 0xC8400149 = some (.ldxr 9 10 0) ∧
    decodeTableWord 32 0xF8100041 = some (.stur 1 2 0x100) ∧ decodeTableWord 32 0x38100149 = some (.sturb 9 10 0x100) ∧
    decodeTableWord 32 0x78002149 = some (.sturh 9 10 2) ∧ decodeTableWord 32 0xB8004149 = some (.sturw 9 10 4) ∧
    decodeTableWord 32 0xC8000149 = some (.stxr 9 10 0) := by decide

theorem test_decode_mul_div :
    decodeTableWord 32 0x9B037C41 = some (.mul 1 2 3) ∧ decodeTableWord 32 0x9AC30841 = some (.sdiv 1 2 3) ∧
    decodeTableWord 32 0x9AC30C41 = some (.udiv 1 2 3) ∧ decodeTableWord 32 0x9BC37C41 = some (.umulh 1 2 3) := by decide

theorem test_decode_float :
    decodeTableWord 32 0x1E232841 = some (.fadds 1 2 3) ∧ decodeTableWord 32 0x1E632841 = some (.faddd 1 2 3) ∧
    decodeTableWord 32 0x1E232040 = some (.fcmps 2 3) ∧ decodeTableWord 32 0x1E632040 = some (.fcmpd 2 3) ∧
    decodeTableWord 32 0x1E231841 = some (.fdivs 1 2 3) ∧ decodeTableWord 32 0x1E631841 = some (.fdivd 1 2 3) ∧
    decodeTableWord 32 0x1E230841 = some (.fmuls 1 2 3) ∧ decodeTableWord 32 0x1E630841 = some (.fmuld 1 2 3) ∧
    decodeTableWord 32 0x1E233841 = some (.fsubs 1 2 3) ∧ decodeTableWord 32 0xBC404041 = some (.ldurs 1 2 4) ∧
    decodeTableWord 32 0xFC408041 = some (.ldurd 1 2 8) ∧ decodeTableWord 32 0xBC004041 = some (.sturs 1 2 4) ∧
    decodeTableWord 32 0xFC008041 = some (.sturd 1 2 8) := by decide

/-- The words that must not decode, each with the reason the decoder names. -/
theorem test_decode_refuses :
    let d (w : IWord) := decodeWord Params.default w
    d 0x00000000 = .error .unlistedOpcode ∧ d 0xFFFFFFFF = .error .unlistedOpcode ∧
    d 0xD6200000 = .error .unlistedOpcode ∧ d 0x1E230041 = .error .unlistedShamt ∧
    d 0x9AC30441 = .error .unlistedShamt ∧ d 0x9B030041 = .error .unlistedShamt ∧
    d 0x8B030441 = .error .unusedFieldNotZero ∧ d 0xF8400C41 = .error .unusedFieldNotZero ∧
    d 0x5400006E = .error .unassignedCondition ∧ d 0x54000070 = .error .unusedFieldNotZero ∧
    d 0xD61F03C0 = .error .unusedFieldNotZero ∧ d 0x1E232041 = .error .unusedFieldNotZero ∧
    decodeBytes Params.default [0x8B, 0x0B, 0x01] = .error .notOneWord := by decide

/-- Under `UNUSED_FIELD_POLICY = ignore` the unused fields are not looked at (30_encoding.md R101); MUL's shamt is, that of
SMULH and UMULH is not (D32, log 23). -/
theorem test_decode_ignore_policy :
    let p := { Params.default with unusedFieldPolicy := .ignore }
    decodeWord p 0x8B030441 = .ok (.add 1 2 3) ∧ decodeWord p 0xF8400C41 = .ok (.ldur 1 2 0) ∧
    decodeWord p 0x9B030041 = .error .unlistedShamt ∧ decodeWord p 0x9B430041 = .ok (.smulh 1 2 3) ∧
    decodeWord p 0x9BC30041 = .ok (.umulh 1 2 3) ∧
    decodeWord Params.default 0x9BC30041 = .error .unlistedShamt := by decide

/-! ### The small states of the tests -/

/-- Text at 1000..100F, data at 8000..800F with byte k at 8000 + k (95_test_vectors.md 3.3), and some integer registers. -/
def st (regs : List (RegNum × Word)) : State :=
  regs.foldl (fun s p => s.writeX p.1 p.2)
    { State.reset with
      ranges := [⟨0x1000, 16⟩, ⟨0x8000, 16⟩]
      text := ⟨0x1000, 16⟩
      mem := (List.range 15).map (fun k => (0x8001 + k, BitVec.ofNat 8 (k + 1))) }

/-- The same with some floating-point registers. -/
def stD (dregs : List (RegNum × Word)) : State := dregs.foldl (fun s p => s.writeD p.1 p.2) (st [])

/-- What `f` reads of the next state, where there is one. -/
def after {α : Type} (o : Host.Outcome State Fault Refusal) (f : State → α) : Option α :=
  match o with
  | .next t => some (f t)
  | _ => none

/-- Flags written as N Z C V. -/
def nzcv (f : Flags) : List Bool := [f.n, f.z, f.c, f.v]

/-- The bytes from an address. -/
def bytesAt (a n : Nat) (s : State) : List Byte := (List.range n).map (fun k => s.readByte (a + k))

/-! ### One step each: the vectors of 95_test_vectors.md section 3 -/

theorem test_adds_carry :
    after (exec (.adds 1 2 3) (st [(2, 0xFFFFFFFFFFFFFFFF), (3, 1)])) (fun t => (t.readX 1, nzcv t.flags, t.pc)) =
      some (0, [false, true, true, false], 0x1004) := by decide +kernel
theorem test_adds_overflow :
    after (exec (.adds 1 2 3) (st [(2, 0x8000000000000000), (3, 0xFFFFFFFFFFFFFFFF)])) (fun t => (t.readX 1, nzcv t.flags)) =
      some (0x7FFFFFFFFFFFFFFF, [false, false, true, true]) := by decide +kernel
theorem test_addis :
    after (exec (.addis 1 2 1) (st [(2, 0x7FFFFFFFFFFFFFFF)])) (fun t => (t.readX 1, nzcv t.flags)) =
      some (0x8000000000000000, [true, false, false, true]) := by decide +kernel
theorem test_subs_borrow :
    after (exec (.subs 1 2 3) (st [(2, 3), (3, 5)])) (fun t => (t.readX 1, nzcv t.flags)) =
      some (0xFFFFFFFFFFFFFFFE, [true, false, false, false]) := by decide +kernel
theorem test_subs_equal_into_xzr :
    after (exec (.subs 31 2 3) (st [(2, 5), (3, 5)])) (fun t => (t.readX 31, t.xregs == (st [(2, 5), (3, 5)]).xregs,
      nzcv t.flags)) = some (0, true, [false, true, true, false]) := by decide +kernel
theorem test_subis :
    after (exec (.subis 1 2 1) (st [(2, 0x8000000000000000)])) (fun t => (t.readX 1, nzcv t.flags)) =
      some (0x7FFFFFFFFFFFFFFF, [false, false, true, true]) := by decide +kernel
theorem test_add_addi_sub_subi :
    after (exec (.add 1 31 31) (st [(1, 5)])) (·.readX 1) = some 0 ∧
    after (exec (.addi 9 10 0xFFF) (st [(10, 1)])) (·.readX 9) = some 0x1000 ∧
    after (exec (.sub 1 2 3) (st [(2, 3), (3, 5)])) (·.readX 1) = some 0xFFFFFFFFFFFFFFFE ∧
    after (exec (.subi 1 2 1) (st [])) (·.readX 1) = some 0xFFFFFFFFFFFFFFFF := by decide +kernel
theorem test_and_orr_eor :
    let s := st [(2, 0xFF00FF00FF00FF00), (3, 0x0FF00FF00FF00FF0)]
    after (exec (.and 1 2 3) s) (·.readX 1) = some 0x0F000F000F000F00 ∧
    after (exec (.orr 1 2 3) s) (·.readX 1) = some 0xFFF0FFF0FFF0FFF0 ∧
    after (exec (.eor 1 2 3) s) (·.readX 1) = some 0xF0F0F0F0F0F0F0F0 := by decide +kernel
theorem test_andi_eori_orri :
    after (exec (.andi 1 2 255) (st [(2, 0x123456789ABCDEF0)])) (·.readX 1) = some 0xF0 ∧
    after (exec (.eori 1 2 0xFFF) (st [(2, 0xFFFFFFFFFFFFFFFF)])) (·.readX 1) = some 0xFFFFFFFFFFFFF000 ∧
    after (exec (.orri 1 2 1) (st [(2, 0x10)])) (·.readX 1) = some 0x11 := by decide +kernel
theorem test_ands :
    after (exec (.ands 1 2 3) (st [(2, 0x8000000000000001), (3, 0x8000000000000000)]))
      (fun t => (t.readX 1, nzcv t.flags)) = some (0x8000000000000000, [true, false, false, false]) := by decide +kernel
theorem test_andis :
    after (exec (.andis 1 2 1) (st [(2, 0xF0)])) (fun t => (t.readX 1, nzcv t.flags)) =
      some (0, [false, true, false, false]) := by decide +kernel
theorem test_lsl_lsr :
    after (exec (.lsl 1 2 4) (st [(2, 0x123456789ABCDEF0)])) (·.readX 1) = some 0x23456789ABCDEF00 ∧
    after (exec (.lsl 1 2 63) (st [(2, 3)])) (·.readX 1) = some 0x8000000000000000 ∧
    after (exec (.lsr 1 2 1) (st [(2, 0x8000000000000000)])) (·.readX 1) = some 0x4000000000000000 ∧
    after (exec (.lsr 1 2 63) (st [(2, 0x8000000000000000)])) (·.readX 1) = some 1 := by decide +kernel
theorem test_movz_movk :
    after (exec (.movz 1 3 0xDEAD) (st [(1, 7)])) (·.readX 1) = some 0xDEAD000000000000 ∧
    after (exec (.movk 1 1 0xBEEF) (st [(1, 0xDEAD000000000000)])) (·.readX 1) = some 0xDEAD0000BEEF0000 ∧
    after (exec (.movk 1 2 0) (st [(1, 0xFFFFFFFFFFFFFFFF)])) (·.readX 1) = some 0xFFFF0000FFFFFFFF := by decide +kernel

theorem test_b_bl_br :
    after (exec (.b 0x3FFFFFF) (st [])) (·.pc) = some 0xFFC ∧
    after (exec (.bl 0x40) (st [])) (fun t => (t.pc, t.readX 30)) = some (0x1100, 0x1004) ∧
    after (exec (.br 1) (st [(1, 0x102)])) (·.pc) = some 0x102 := by decide +kernel
theorem test_cbz_cbnz :
    after (exec (.cbz 9 4) (st [])) (·.pc) = some 0x1010 ∧
    after (exec (.cbz 9 4) (st [(9, 0x100000000)])) (·.pc) = some 0x1004 ∧
    after (exec (.cbnz 9 0x7FFFD) (st [(9, 1)])) (·.pc) = some 0xFF4 ∧
    after (exec (.cbnz 9 0x7FFFD) (st [])) (·.pc) = some 0x1004 := by decide +kernel
theorem test_bCond :
    after (exec (.bCond 0b1011 0x7FFFE) ((st []).setFlags ⟨true, false, false, false⟩)) (·.pc) = some 0xFF8 ∧
    after (exec (.bCond 0b1011 0x7FFFE) ((st []).setFlags ⟨true, false, false, true⟩)) (·.pc) = some 0x1004 := by
  decide +kernel
/-- Default parameters but for COND_TABLE, which gives 1110 the meaning "N and Z" (bits 12 to 15) and takes 0000's away. -/
def otherConditions : Params :=
  { Params.default with condTable := (defaultCondTable.set 14 (some (.truth 0xF000))).set 0 none }
/-- With another COND_TABLE (41_core_branch.md R161) 5400006E is a B.cond, 54000060 is none, and the table decides. -/
theorem test_other_condition_table :
    decodeWord otherConditions 0x5400006E = .ok (.bCond 0b1110 3) ∧
    decodeWord otherConditions 0x54000060 = .error .unassignedCondition ∧
    after (exec (.bCond 0b1110 3) ({ st [] with params := otherConditions }.setFlags ⟨true, true, false, false⟩)) (·.pc) =
      some 0x100C ∧
    after (exec (.bCond 0b1110 3) ({ st [] with params := otherConditions }.setFlags ⟨false, true, true, true⟩)) (·.pc) =
      some 0x1004 := by decide +kernel
/-- The five rows of the condition truth table (95_test_vectors.md 3.2). -/
theorem test_condition_table :
    let all : List Cond := [.eq, .ne, .hs, .lo, .mi, .pl, .vs, .vc, .hi, .ls, .ge, .lt, .gt, .le]
    let holding (f : Flags) := all.filter (fun c => condHolds c f)
    holding ⟨false, true, true, false⟩ = [.eq, .hs, .pl, .vc, .ls, .ge, .le] ∧
    holding ⟨true, false, false, false⟩ = [.ne, .lo, .mi, .vc, .ls, .lt, .le] ∧
    holding ⟨false, false, true, false⟩ = [.ne, .hs, .pl, .vc, .hi, .ge, .gt] ∧
    holding ⟨true, false, false, true⟩ = [.ne, .lo, .mi, .vs, .ls, .ge, .gt] ∧
    holding ⟨false, false, true, true⟩ = [.ne, .hs, .pl, .vs, .hi, .lt, .le] := by decide

theorem test_ldur :
    after (exec (.ldur 1 2 0x1F8) (st [(2, 0x8008)])) (·.readX 1) = some 0x0001020304050607 := by decide +kernel
theorem test_ldur_misaligned :
    after (exec (.ldur 1 2 1) (st [(2, 0x8008)])) (fun t => (t.readX 1, t.fault, t.pc)) =
      some (0, some ⟨.dataAbort, 0x1000, 0x8009⟩, 0x1000) := by decide +kernel
/-- ESR after a Data Abort: EC 36, IL 1; ISS is a free value. -/
theorem test_data_abort_esr (s : State) (ea : Word) :
    esrEC (s.raise .dataAbort ea).esr = 36 ∧ esrIL (s.raise .dataAbort ea).esr = 1 := by
  simp [exceptionCode]
theorem test_ldurb_ldurh :
    after (exec (.ldurb 1 2 0x1FF) (st [(2, 0x8008)])) (·.readX 1) = some 0x07 ∧
    after (exec (.ldurh 1 2 2) (st [(2, 0x8008)])) (·.readX 1) = some 0x0A0B := by decide +kernel
theorem test_ldur_past_the_range_into_xzr :
    after (exec (.ldur 31 2 8) (st [(2, 0x8008)])) (·.fault) = some (some ⟨.dataAbort, 0x1000, 0x8010⟩) := by
  decide +kernel
/-- LDURSW after the byte at 8008 has become 88: the byte at the lowest address holds the sign. -/
theorem test_ldursw :
    after (exec (.ldursw 1 2 0) ((st [(2, 0x8008)]).memWrite 0x8008 1 0x88)) (·.readX 1) = some 0xFFFFFFFF88090A0B := by
  decide +kernel
theorem test_stur :
    after (exec (.stur 9 2 0) (st [(2, 0x8008), (9, 0x1122334455667788)])) (bytesAt 0x8008 8) =
      some [0x11, 0x22, 0x33, 0x44, 0x55, 0x66, 0x77, 0x88] := by decide +kernel
/-- Storing zeros leaves the canonical form: no cell is listed for them. -/
theorem test_stur_zero :
    after (exec (.stur 31 2 0) (st [(2, 0x8008)])) (fun t => (t.mem.length, Memory.wf t.mem)) = some (7, true) := by
  decide +kernel
theorem test_sturb_sturh_sturw :
    let s := st [(2, 0x8008), (9, 0x1122334455667788)]
    after (exec (.sturw 9 2 0) s) (bytesAt 0x8008 5) = some [0x55, 0x66, 0x77, 0x88, 0x0C] ∧
    after (exec (.sturh 9 2 6) s) (bytesAt 0x800D 3) = some [0x0D, 0x77, 0x88] ∧
    after (exec (.sturb 9 2 0x1F8) s) (bytesAt 0x8000 2) = some [0x88, 0x01] := by decide +kernel
theorem test_store_into_text_is_refused :
    (match exec (.sturb 9 2 15) (st [(2, 0x1000)]) with
      | .refused r => r == .storeIntoText 0x100F
      | _ => false) = true := by decide +kernel
theorem test_ldxr :
    after (exec (.ldxr 9 10 0) (st [(10, 0x8000)])) (fun t => (t.readX 9, t.monitor)) =
      some (0x0001020304050607, some 0x8000) := by decide +kernel
/-- LDXR's address must be a multiple of 8 under `bytewise` as well (42_core_load_store.md R185). -/
theorem test_ldxr_misaligned_bytewise :
    after (exec (.ldxr 9 10 4)
      { st [(10, 0x8000)] with params := { Params.default with misalignedData := .bytewise } }) (·.fault) =
        some (some ⟨.dataAbort, 0x1000, 0x8004⟩) := by decide +kernel
theorem test_stxr_without_reservation :
    after (exec (.stxr 9 10 0) (st [(10, 0x8000), (9, 0x2A)])) (fun t => (t.readX 0, t.monitor, bytesAt 0x8000 8 t)) =
      some (1, none, [0, 1, 2, 3, 4, 5, 6, 7]) := by decide +kernel
/-- With the reservation the draw decides (95_test_vectors.md 3.3, the first two rows of the exclusive pair). -/
theorem test_stxr_with_reservation :
    after (exec (.stxr 9 10 0) ((st [(10, 0x8000), (9, 0x2A)]).setMonitor (some 0x8000)))
      (fun t => (t.readX 0, t.monitor, bytesAt 0x8000 8 t)) =
      some (if Config.drawSuccess 0 = true then (0, none, [0, 0, 0, 0, 0, 0, 0, 0x2A])
        else (1, none, [0, 1, 2, 3, 4, 5, 6, 7])) := by
  have h : stxrSucceeds ((st [(10, 0x8000), (9, 0x2A)]).setMonitor (some 0x8000)) 0x8000 = Config.drawSuccess 0 := rfl
  have e : stxrAddr ((st [(10, 0x8000), (9, 0x2A)]).setMonitor (some 0x8000)) 10 0 = 0x8000 := by decide +kernel
  simp only [exec, execStxr, e, h]
  cases Config.drawSuccess 0 <;> decide +kernel

theorem test_mul_umulh_smulh :
    let s := st [(2, 0x123456789ABCDEF0), (3, 0x0FEDCBA987654321)]
    let m := st [(2, 0x8000000000000000), (3, 2)]
    after (exec (.mul 1 2 3) s) (·.readX 1) = some 0x2236D88FE5618CF0 ∧
    after (exec (.umulh 1 2 3) s) (·.readX 1) = some 0x0121FA00AD77D742 ∧
    after (exec (.umulh 1 2 3) m) (·.readX 1) = some 1 ∧
    after (exec (.smulh 1 2 3) m) (·.readX 1) = some 0xFFFFFFFFFFFFFFFF := by decide +kernel
theorem test_sdiv_udiv :
    let s := st [(2, 0xFFFFFFFFFFFFFFF9), (3, 2)]
    after (exec (.sdiv 1 2 3) s) (·.readX 1) = some 0xFFFFFFFFFFFFFFFD ∧
    after (exec (.udiv 1 2 3) s) (·.readX 1) = some 0x7FFFFFFFFFFFFFFC := by decide +kernel
theorem test_sdiv_udiv_corners :
    let s := st [(2, 0x8000000000000000), (3, 0xFFFFFFFFFFFFFFFF)]
    after (exec (.sdiv 1 2 3) s) (·.readX 1) = some 0x8000000000000000 ∧
    after (exec (.udiv 1 2 3) s) (·.readX 1) = some 0 ∧
    after (exec (.sdiv 1 2 31) s) (·.readX 1) = some 0 ∧ after (exec (.udiv 1 2 31) s) (·.readX 1) = some 0 := by
  decide +kernel

theorem test_fadds_fsubs_fmuls_fdivs :
    let s := stD [(2, 0x3FC00000), (3, 0x40100000)]
    after (exec (.fadds 1 2 3) s) (·.readD 1) = some 0x40700000 ∧
    after (exec (.fsubs 1 2 3) s) (·.readD 1) = some 0xBF400000 ∧
    after (exec (.fmuls 1 2 3) s) (·.readD 1) = some 0x40580000 ∧
    after (exec (.fdivs 1 2 3) s) (·.readD 1) = some 0x3F2AAAAB := by decide +kernel
theorem test_faddd_fsubd_fmuld_fdivd :
    let s := stD [(2, 0x3FF8000000000000), (3, 0x4002000000000000)]
    after (exec (.faddd 1 2 3) s) (·.readD 1) = some 0x400E000000000000 ∧
    after (exec (.fsubd 1 2 3) s) (·.readD 1) = some 0xBFE8000000000000 ∧
    after (exec (.fmuld 1 2 3) s) (·.readD 1) = some 0x400B000000000000 ∧
    after (exec (.fdivd 1 2 3) s) (·.readD 1) = some 0x3FE5555555555555 := by decide +kernel
theorem test_float_rounding :
    fp32 .add 0x3DCCCCCD 0x3E4CCCCD = 0x3E99999A ∧ fp64 .add 0x3FB999999999999A 0x3FC999999999999A = 0x3FD3333333333334 ∧
    fp32 .div 0x3F800000 0x40400000 = 0x3EAAAAAB ∧ fp64 .div 0x3FF0000000000000 0x4008000000000000 = 0x3FD5555555555555 ∧
    fp32 .mul 0x7F7FFFFF 0x40000000 = 0x7F800000 ∧ fp32 .div 0x3F800000 0 = 0x7F800000 ∧ fp32 .sub 5 5 = 0 := by
  decide +kernel
/-- A record FP that gives 7 for 1 + 2 in single precision, and is the default elsewhere (44_arith_float.md R235). -/
def otherFp : FpSetting := { single := [⟨.add, 0x3F800000, 0x40000000, 7⟩] }
theorem test_other_numerics_record :
    let s := { stD [(2, 0x3F800000), (3, 0x40000000)] with params := { Params.default with fp := otherFp } }
    after (exec (.fadds 1 2 3) s) (·.readD 1) = some 7 ∧ after (exec (.fadds 1 3 2) s) (·.readD 1) = some 0x40400000 ∧
    after (exec (.fsubs 1 3 2) s) (·.readD 1) = some 0x3F800000 := by decide +kernel
theorem test_fcmps :
    let f (a b : Word) := after (exec (.fcmps 2 3) (stD [(2, a), (3, b)])) (fun t => nzcv t.flags)
    f 0x3FC00000 0x40100000 = some [true, false, false, false] ∧
    f 0x40100000 0x3FC00000 = some [false, false, true, false] ∧
    f 0x80000000 0 = some [false, true, true, false] := by decide +kernel
theorem test_fcmpd :
    let f (a b : Word) := after (exec (.fcmpd 2 3) (stD [(2, a), (3, b)])) (fun t => nzcv t.flags)
    f 0xFFF0000000000000 0x0010000000000000 = some [true, false, false, false] ∧
    f 0x7FF8000000000000 0 = some [false, false, true, true] := by decide +kernel
/-- LDURS writes 0 above the single by default (10_state.md R37). -/
theorem test_ldurs_ldurd :
    let s := ((stD [(1, 0xFFFFFFFFFFFFFFFF)]).writeX 2 0x8000)
    after (exec (.ldurs 1 2 4) s) (·.readD 1) = some 0x04050607 ∧
    after (exec (.ldurs 1 2 2) s) (·.fault) = some (some ⟨.dataAbort, 0x1000, 0x8002⟩) ∧
    after (exec (.ldurd 1 2 8) s) (·.readD 1) = some 0x08090A0B0C0D0E0F := by decide +kernel
theorem test_sturs_sturd :
    let s := ((stD [(1, 0x400E000012345678)]).writeX 2 0x8000)
    after (exec (.sturs 1 2 4) s) (bytesAt 0x8003 6) = some [3, 0x12, 0x34, 0x56, 0x78, 8] ∧
    after (exec (.sturd 1 2 8) s) (bytesAt 0x8008 8) = some [0x40, 0x0E, 0, 0, 0x12, 0x34, 0x56, 0x78] := by decide +kernel

/-! ### Steps, reset and the loader -/

/-- At reset nothing is placed: the first fetch is outside the (empty) text (log 3). -/
theorem test_step_at_reset :
    after (step State.reset) (·.fault) = some (some ⟨.instructionAbort, 0x1000, 0x1000⟩) := by decide +kernel
/-- A placed word runs as the first instruction after reset. -/
theorem test_placed_word_runs :
    after (step (State.reset.withFetchWord 32 0x910017E9)) (fun t => (t.readX 9, t.pc)) = some (5, 0x1004) := by
  decide +kernel
theorem test_pseudo_lda :
    pseudoLda 1 2 0x1F8 = .subi 1 2 8 ∧ pseudoLda 1 2 8 = .addi 1 2 8 ∧ pseudoLda 1 2 0x100 = .subi 1 2 0x100 := by
  decide

/-! ### Witnesses: for every statement with hypotheses, states and operands that meet them -/

/-- A state whose integer register 2 is the address the memory witnesses use. -/
def at2 (ea : Word) : State := st [(2, ea)]

/-- The same under `MISALIGNED_DATA = bytewise`. -/
def at2b (ea : Word) : State := { at2 ea with params := { Params.default with misalignedData := .bytewise } }

/-- An `n`-byte access at `[X2, #0]` that may be made. -/
def mayAccess (s : State) (n : Nat) : Prop :=
  accessAligned s false (s.effAddr 2 0) n ∧ accessAdmitted s (s.effAddr 2 0) n

theorem mayAccess_of {s : State} {n : Nat} (h : s.aborts false (s.effAddr 2 0) n = false) : mayAccess s n :=
  (not_aborts_iff ..).mp h
theorem not_mayAccess_of {s : State} {n : Nat} (h : s.aborts false (s.effAddr 2 0) n = true) : ¬ mayAccess s n :=
  (aborts_iff ..).mp h
theorem touches_of {s : State} {ea : Word} {n : Nat} (h : s.touchesText ea.toNat n = true) : accessTouchesText s ea n :=
  (touchesText_iff ..).mp h
theorem not_touches_of {s : State} {ea : Word} {n : Nat} (h : s.touchesText ea.toNat n = false) :
    ¬ accessTouchesText s ea n := by
  rw [← touchesText_iff, h]
  decide
theorem reservation_of {s : State} {a : Word} (hm : s.monitor = some a) (hg : s.params.monitorGranule = .address) :
    reservationFor s a := ⟨a, hm, by rw [hg]⟩

/-- The last access of each width inside the data range, and under `bytewise` a misaligned one that ends with it. -/
theorem witness_LoadsExtendBigEndianBytes_completes :
    mayAccess (at2 0x8008) 8 ∧ mayAccess (at2 0x800F) 1 ∧ mayAccess (at2 0x800E) 2 ∧ mayAccess (at2 0x800C) 4 ∧
    mayAccess (at2b 0x8005) 8 :=
  ⟨mayAccess_of (by decide +kernel), mayAccess_of (by decide +kernel), mayAccess_of (by decide +kernel),
    mayAccess_of (by decide +kernel), mayAccess_of (by decide +kernel)⟩
/-- Misaligned by one, the first access past the range, the byte after it, and one past address 2^64 - 1. -/
theorem witness_LoadsExtendBigEndianBytes_aborts :
    ¬ mayAccess (at2 0x8007) 8 ∧ ¬ mayAccess (at2 0x8010) 8 ∧ ¬ mayAccess (at2 0x8010) 1 ∧ ¬ mayAccess (at2 0x8009) 2 ∧
    ¬ mayAccess (at2b 0x8009) 8 ∧ ¬ mayAccess (at2b 0xFFFFFFFFFFFFFFFF) 4 :=
  ⟨not_mayAccess_of (by decide +kernel), not_mayAccess_of (by decide +kernel), not_mayAccess_of (by decide +kernel),
    not_mayAccess_of (by decide +kernel), not_mayAccess_of (by decide +kernel), not_mayAccess_of (by decide +kernel)⟩
theorem witness_LdxrLoadsAndArmsMonitor_completes :
    ((at2 0x8008).effAddr 2 0).toNat % 8 = 0 ∧ accessAdmitted (at2 0x8008) ((at2 0x8008).effAddr 2 0) 8 :=
  ⟨by decide +kernel, (accessAdmitted_iff ..).mpr (by decide +kernel)⟩
theorem witness_LdxrLoadsAndArmsMonitor_aborts :
    ¬ (((at2b 0x8004).effAddr 2 0).toNat % 8 = 0 ∧ accessAdmitted (at2b 0x8004) ((at2b 0x8004).effAddr 2 0) 8) :=
  fun h => absurd h.1 (by decide +kernel)
/-- A store that completes, just past the text too; one whose last byte is the text's first; one that aborts. -/
theorem witness_StoresWriteOnlyTheirBytes :
    let low : State := { at2b 0x0FF9 with ranges := [⟨0, 0x8000⟩] }
    Memory.wf (at2 0x8008).mem = true ∧
    (mayAccess (at2 0x8008) 8 ∧ ¬ accessTouchesText (at2 0x8008) ((at2 0x8008).effAddr 2 0) 8) ∧
    (mayAccess { low with text := ⟨0x1001, 15⟩ } 8 ∧
      ¬ accessTouchesText { low with text := ⟨0x1001, 15⟩ } (low.effAddr 2 0) 8) ∧
    (mayAccess low 8 ∧ accessTouchesText low (low.effAddr 2 0) 8) ∧ ¬ mayAccess (at2 0x8010) 8 :=
  ⟨by decide +kernel, ⟨mayAccess_of (by decide +kernel), not_touches_of (by decide +kernel)⟩,
    ⟨mayAccess_of (by decide +kernel), not_touches_of (by decide +kernel)⟩,
    ⟨mayAccess_of (by decide +kernel), touches_of (by decide +kernel)⟩, not_mayAccess_of (by decide +kernel)⟩
/-- STXR under each setting: what is allowed and what is not, at the nearest values. -/
theorem witness_StxrStoresOnlyOnSuccess_allowed :
    (Params.default.stxrOffset = .agreeOnly ∧ (0 : BitVec 9) = 0 ∧ (1 : BitVec 9) ≠ 0) ∧
    ((withOffset .zero).stxrOffset = .zero ∧ (0x1F0 : BitVec 9).toNat % 16 = 0 ∧ (0x1EF : BitVec 9).toNat % 16 ≠ 0) ∧
    (withOffset .dtaddr).stxrOffset = .dtaddr := by decide
/-- STXR at an aligned admitted doubleword: no reservation; one for another address; one for it; and in the text. -/
theorem witness_StxrStoresOnlyOnSuccess_cases :
    (¬ reservationFor (at2 0x8008) 0x8008 ∧ ¬ reservationFor ((at2 0x8008).setMonitor (some 0x8000)) 0x8008) ∧
    (reservationFor ((at2 0x8008).setMonitor (some 0x8008)) 0x8008 ∧ ¬ accessTouchesText (at2 0x8008) 0x8008 8) ∧
    (accessAdmitted (at2 0x1000) 0x1000 8 ∧ reservationFor ((at2 0x1000).setMonitor (some 0x1000)) 0x1000 ∧
      accessTouchesText (at2 0x1000) 0x1000 8) := by
  refine ⟨⟨?_, ?_⟩, ⟨reservation_of rfl rfl, not_touches_of (by decide +kernel)⟩,
    (accessAdmitted_iff ..).mpr (by decide +kernel), reservation_of rfl rfl, touches_of (by decide +kernel)⟩
  · rintro ⟨a, h, _⟩
    exact nomatch (show (none : Option Word) = some a from h)
  · rintro ⟨a, h, ha⟩
    have h' : a = 0x8000 := by injection (show some (0x8000 : Word) = some a from h) with h; exact h.symm
    subst h'
    exact absurd (show (0x8000 : Word) = 0x8008 from ha) (by decide)
/-- STXR at an address that is no multiple of 8, under `bytewise` too, and past the admitted range. -/
theorem witness_StxrStoresOnlyOnSuccess_aborts :
    let ea (s : State) := s.readX 2 + BitVec.ofInt 64 0
    ¬ ((ea (at2b 0x8004)).toNat % 8 = 0 ∧ accessAdmitted (at2b 0x8004) (ea (at2b 0x8004)) 8) ∧
    ¬ ((ea (at2 0x8010)).toNat % 8 = 0 ∧ accessAdmitted (at2 0x8010) (ea (at2 0x8010)) 8) := by
  refine ⟨fun h => absurd h.1 (by decide +kernel), fun h => ?_⟩
  exact absurd ((accessAdmitted_iff ..).mp h.2) (by decide +kernel)
theorem witness_FloatLoadsMoveBitsUnchanged :
    mayAccess (at2 0x800C) 4 ∧ ¬ mayAccess (at2 0x800E) 4 ∧ mayAccess (at2 0x8008) 8 ∧ ¬ mayAccess (at2 0x800C) 8 :=
  ⟨mayAccess_of (by decide +kernel), not_mayAccess_of (by decide +kernel), mayAccess_of (by decide +kernel),
    not_mayAccess_of (by decide +kernel)⟩
theorem witness_FloatStoresWriteOnlyTheirBytes :
    Memory.wf (at2 0x800C).mem = true ∧
    (mayAccess (at2 0x800C) 4 ∧ ¬ accessTouchesText (at2 0x800C) ((at2 0x800C).effAddr 2 0) 4) ∧
    (mayAccess (at2 0x100C) 4 ∧ accessTouchesText (at2 0x100C) ((at2 0x100C).effAddr 2 0) 4) ∧
    ¬ mayAccess (at2 0x1010) 4 :=
  ⟨by decide +kernel, ⟨mayAccess_of (by decide +kernel), not_touches_of (by decide +kernel)⟩,
    ⟨mayAccess_of (by decide +kernel), touches_of (by decide +kernel)⟩, not_mayAccess_of (by decide +kernel)⟩
theorem witness_MemoryIsBigEndian : Memory.wf (st []).mem = true ∧ 7 < 8 := by decide +kernel
/-- The last doubleword of the address space and its last byte. -/
theorem witness_NarrowReadSeesPartOfWiderStore :
    Memory.wf (st []).mem = true ∧ 7 + 1 ≤ 8 ∧ (0xFFFFFFFFFFFFFFF8 : Word).toNat + 8 ≤ 2 ^ 64 ∧ 0 < 1 := by decide +kernel
theorem witness_LoadReturnsLatestStore :
    Memory.wf (at2 0x8008).mem = true ∧
    (mayAccess (at2 0x8008) 8 ∧ ¬ accessTouchesText (at2 0x8008) ((at2 0x8008).effAddr 2 0) 8) ∧
    (mayAccess (at2 0x800C) 4 ∧ ¬ accessTouchesText (at2 0x800C) ((at2 0x800C).effAddr 2 0) 4) ∧
    (mayAccess (at2 0x800E) 2 ∧ ¬ accessTouchesText (at2 0x800E) ((at2 0x800E).effAddr 2 0) 2) ∧
    (mayAccess (at2 0x800F) 1 ∧ ¬ accessTouchesText (at2 0x800F) ((at2 0x800F).effAddr 2 0) 1) :=
  ⟨by decide +kernel, ⟨mayAccess_of (by decide +kernel), not_touches_of (by decide +kernel)⟩,
    ⟨mayAccess_of (by decide +kernel), not_touches_of (by decide +kernel)⟩,
    ⟨mayAccess_of (by decide +kernel), not_touches_of (by decide +kernel)⟩,
    ⟨mayAccess_of (by decide +kernel), not_touches_of (by decide +kernel)⟩⟩

theorem witness_DividesTruncateTowardZero :
    (st [(3, 0xFFFFFFFFFFFFFFFF)]).readX 3 ≠ 0 ∧ (st []).readX 3 = 0 ∧ (st []).params.divZero = .fixed 0 := by
  decide +kernel
theorem witness_AndsSetsFlagsOfLogicalResult :
    (st []).params.logicalFlagsCV = Params.default.logicalFlagsCV ∧
    ({ Params.default with logicalFlagsCV := .fixed (true, false) } : Params).logicalFlagsCV = .fixed (true, false) := by
  decide +kernel
/-- The last assigned condition by default, and one with a truth table. -/
theorem witness_CondBranchFollowsFlags :
    condAssigned Params.default.condTable 0b1101 = true ∧ condEntry (st []).params.condTable 0b1101 = some (.suffix .le) ∧
    condEntry otherConditions.condTable 0b1110 = some (.truth 0xF000) := by decide +kernel
/-- The last assigned condition, the first unassigned one, and a set bit 4. -/
theorem witness_ConditionTableAndUnassigned :
    Params.default.unusedFieldPolicy = .strict ∧ (0x5400006D : IWord).extractLsb' 24 8 = 0b01010100 ∧
    (0x5400006E : IWord).extractLsb' 24 8 = 0b01010100 ∧ (0x5400007D : IWord).extractLsb' 24 8 = 0b01010100 := by decide
/-- Each condition holds for one comparison and fails for another: equal, signed less and unsigned less operands. -/
theorem witness_CompareThenBranchDecidesComparison :
    (st []).params.condTable = Params.default.condTable ∧ (5 : Word) = 5 ∧ (0x8000000000000000 : Word).toInt < (1 : Word).toInt ∧
    ¬ (0x8000000000000000 : Word).toNat < (1 : Word).toNat := by decide +kernel

/-- A listed case that all its like agree with, and an operation that is not listed. -/
theorem witness_SingleArithmeticWritesOnlyDestination :
    let listed (op : FpOp) (a b : BitVec 32) (c : FpCase 32) : Prop := c ∈ otherFp.single ∧ c.op = op ∧ c.a = a ∧ c.b = b
    (∃ c, listed .add 0x3F800000 0x40000000 c) ∧ (∀ c, listed .add 0x3F800000 0x40000000 c → c.result = 7) ∧
    ∀ c, ¬ listed .sub 0x3F800000 0x40000000 c := by
  simp [otherFp]
theorem witness_DoubleArithmeticWritesOnlyDestination :
    ∀ c, ¬ (c ∈ Params.default.fp.double ∧ c.op = .add ∧ c.a = 0 ∧ c.b = 0) := by
  simp [Params.default]
theorem witness_FloatComparesSetOnlyFlags :
    fpCompare .single ((stD [(2, 0x7FC00000)]).readS 2).toNat ((stD []).readS 3).toNat = .unordered ∧
    (stD []).params.fcmpUnorderedFlags = .fixed 0b0011 := by decide +kernel
theorem finite_single {x : Nat} (h : x < 2 ^ 32 ∧ fpExponent .single x ≠ 255) : fpFinite .single x := h
/-- The largest finite single and the largest denormal are finite, the next pattern after the largest finite is the
infinity and the one after that a NaN. -/
theorem witness_FloatCompareOrdersIeeeValues :
    fpFinite .single 0x7F7FFFFF ∧ fpFinite .single 0x007FFFFF ∧ fpFinite .single 0x80000000 ∧
    fpObject .single 0x7F800000 = .infinity ∧ fpObject .single 0xFF800000 = .infinity ∧
    fpObject .single 0x7F800001 = .nan :=
  ⟨finite_single (by decide +kernel), finite_single (by decide +kernel), finite_single (by decide +kernel),
    by decide +kernel, by decide +kernel, by decide +kernel⟩
/-- The largest finite single plus half its unit in the last place stands exactly at the overflow threshold, and plus the
next smaller single below it. -/
theorem witness_FloatArithmeticIsCorrectlyRounded :
    fpFinite .single 0x7F7FFFFF ∧ fpFinite .single 0x73000000 ∧ fpFinite .single 0x72FFFFFF ∧
    ¬ |exactResult .add (fpRat .single 0x7F7FFFFF) (fpRat .single 0x73000000)| <
      (2 - 1 / 2 ^ (FpFormat.single.fracBits + 1)) * 2 ^ FpFormat.single.bias ∧
    |exactResult .add (fpRat .single 0x7F7FFFFF) (fpRat .single 0x72FFFFFF)| <
      (2 - 1 / 2 ^ (FpFormat.single.fracBits + 1)) * 2 ^ FpFormat.single.bias ∧
    fpRat .single 0x3F800000 ≠ 0 := by
  have e1 : fpRat .single 0x7F7FFFFF = (2 ^ 24 - 1) * 2 ^ 104 := by
    norm_num [fpRat, fpSign, fpExponent, fpFraction, FpFormat.single, FpFormat.bias, zpow_ofNat]
  have e2 : fpRat .single 0x73000000 = 2 ^ 103 := by
    norm_num [fpRat, fpSign, fpExponent, fpFraction, FpFormat.single, FpFormat.bias]
  have e3 : fpRat .single 0x72FFFFFF = (2 ^ 24 - 1) * 2 ^ 79 := by
    norm_num [fpRat, fpSign, fpExponent, fpFraction, FpFormat.single, FpFormat.bias]
  refine ⟨finite_single (by decide +kernel), finite_single (by decide +kernel), finite_single (by decide +kernel),
    ?_, ?_, ?_⟩
  · rw [e1, e2]
    norm_num [exactResult, FpFormat.single, FpFormat.bias, abs_of_pos]
  · rw [e1, e3]
    norm_num [exactResult, FpFormat.single, FpFormat.bias, abs_of_pos]
  · norm_num [fpRat, fpSign, fpExponent, fpFraction, FpFormat.single, FpFormat.bias]
theorem witness_FloatSpecialOperands :
    fpObject .single (0x7FC00000 : BitVec 32).toNat = .nan ∧ fpObject .single (0x80000000 : BitVec 32).toNat = .zero ∧
    fpObject .single (0xFF800000 : BitVec 32).toNat = .infinity ∧ fpObject .single (1 : BitVec 32).toNat = .denorm ∧
    fpObject .single (0x00800000 : BitVec 32).toNat = .number ∧
    fpObject .double (0x7FF8000000000000 : BitVec 64).toNat = .nan ∧
    fpObject .double (0x8000000000000000 : BitVec 64).toNat = .zero ∧
    fpObject .double (0x7FF0000000000000 : BitVec 64).toNat = .infinity ∧
    fpObject .double (0x000FFFFFFFFFFFFF : BitVec 64).toNat = .denorm ∧
    fpObject .double (0x0010000000000000 : BitVec 64).toNat = .number ∧
    (0xFF800000 : BitVec 32).msb ≠ (0x7F800000 : BitVec 32).msb := by decide +kernel
/-- An infinity and a finite number; 1 and -1, whose sum is zero; and the two zeros, whose values are equal. -/
theorem witness_FloatSpecialOperands_signs :
    fpObject .single (0x7F800000 : BitVec 32).toNat = .infinity ∧ fpFinite .single (0xBF800000 : BitVec 32).toNat ∧
    fpRat .single (0x3F800000 : BitVec 32).toNat + fpRat .single (0xBF800000 : BitVec 32).toNat = 0 ∧
    fpRat .single (0x80000000 : BitVec 32).toNat = fpRat .single (0 : BitVec 32).toNat ∧
    fpRat .single (0xBF800000 : BitVec 32).toNat ≠ 0 := by
  refine ⟨by decide +kernel, finite_single (by decide +kernel),
    show fpRat .single 0x3F800000 + fpRat .single 0xBF800000 = 0 from ?_,
    show fpRat .single 0x80000000 = fpRat .single 0 from ?_, show fpRat .single 0xBF800000 ≠ 0 from ?_⟩ <;>
    norm_num [fpRat, fpSign, fpExponent, fpFraction, FpFormat.single, FpFormat.bias]
theorem witness_EveryNaNPatternIsADraw :
    0x7F800001 < 2 ^ 32 ∧ fpObject .single 0x7F800001 = .nan ∧ 0xFFFFFFFF < 2 ^ 32 ∧ fpObject .single 0xFFFFFFFF = .nan ∧
    fpObject .double 0xFFFFFFFFFFFFFFFF = .nan := by decide +kernel
theorem witness_SingleIsLowHalfOfDouble : (st []).params.sWriteUpper = Params.default.sWriteUpper := by decide +kernel

/-- The first state of a step that fetches: no fault and no end of run at its pc. -/
def atPc (pc : Word) : State := { st [] with pc := pc }

theorem witness_MisalignedPcIsTakenAtFetch :
    (atPc 0x1003).fault = none ∧ (atPc 0x1003).haltPc ≠ some (atPc 0x1003).pc ∧ (atPc 0x1003).pc.toNat % 4 ≠ 0 := by
  decide +kernel
theorem pcInText_of {s : State} (h : (List.range 4).all (fun k => s.text.contains (s.pc.toNat + k)) = true) : pcInText s :=
  (pcInText_iff s).mp h
theorem not_pcInText_of {s : State} (h : (List.range 4).all (fun k => s.text.contains (s.pc.toNat + k)) = false) :
    ¬ pcInText s := by
  rw [← pcInText_iff, h]
  decide
/-- The words before and after the text. -/
theorem witness_FetchOutsideTextAborts :
    (atPc 0x1010).fault = none ∧ (atPc 0x1010).haltPc ≠ some 0x1010 ∧ (atPc 0x1010).pc.toNat % 4 = 0 ∧
    ¬ pcInText (atPc 0x1010) ∧ ¬ pcInText (atPc 0x0FFC) :=
  ⟨by decide +kernel, by decide +kernel, by decide +kernel, not_pcInText_of (by decide +kernel),
    not_pcInText_of (by decide +kernel)⟩
/-- The last word of the text, which is 0 there. -/
theorem witness_UnallocatedWordTakesUnknown :
    (atPc 0x100C).fault = none ∧ (atPc 0x100C).haltPc ≠ some 0x100C ∧ (atPc 0x100C).pc.toNat % 4 = 0 ∧
    pcInText (atPc 0x100C) ∧
    decodeWord (atPc 0x100C).params (BitVec.ofNat 32 (bytesValue (atPc 0x100C) (atPc 0x100C).pc 4)) =
      .error .unlistedOpcode :=
  ⟨by decide +kernel, by decide +kernel, by decide +kernel, pcInText_of (by decide +kernel), by decide +kernel⟩
/-- The word of ADD X9, X10, X11 placed at the last word of the text. -/
def placedAdd : State := (atPc 0x100C).withFetchWord 32 0x8B0B0149
theorem witness_StepRunsTheDecodedInstruction :
    placedAdd.fault = none ∧ placedAdd.haltPc ≠ some placedAdd.pc ∧ placedAdd.pc.toNat % 4 = 0 ∧ pcInText placedAdd ∧
    decodeWord placedAdd.params (BitVec.ofNat 32 (bytesValue placedAdd placedAdd.pc 4)) = .ok (.add 9 10 11) :=
  ⟨by decide +kernel, by decide +kernel, by decide +kernel, pcInText_of (by decide +kernel), by decide +kernel⟩
theorem witness_PlacedWordRunsNext :
    Memory.wf (atPc 0x100C).mem = true ∧ decodeWord (atPc 0x100C).params 0x8B0B0149 = .ok (.add 9 10 11) := by
  decide +kernel
/-- Steps that take each of the four classes that are raised; the last is LDUR X31, [XZR, #1]. -/
theorem witness_RaisedClassIsTheFirstThatApplies :
    after (step (atPc 0x1001)) (fun t => t.fault.map (·.cls)) = some (some .misalignedPC) ∧
    after (step (atPc 0x1010)) (fun t => t.fault.map (·.cls)) = some (some .instructionAbort) ∧
    after (step (atPc 0x1000)) (fun t => t.fault.map (·.cls)) = some (some .unknown) ∧
    after (step ((atPc 0x1000).withFetchWord 32 0xF84013FF)) (fun t => t.fault.map (·.cls)) = some (some .dataAbort) := by
  decide +kernel
theorem witness_ExceptionIsTerminal :
    ({ st [] with fault := some ⟨.unknown, 0x1000, 0⟩ } : State).fault = some ⟨.unknown, 0x1000, 0⟩ := rfl
theorem witness_RunEndsExactlyAtHaltPc : ({ st [] with haltPc := some 0x1000 } : State).final := ⟨rfl, rfl⟩

/-- A load, a store, an arithmetic instruction, a branch, a compare and STXR each have a next state. -/
theorem witness_next_states :
    (∃ t, exec (.ldur 1 2 0) (at2 0x8008) = .next t) ∧ (∃ t, exec (.stur 1 2 0) (at2 0x8008) = .next t) ∧
    (∃ t, exec (.add 1 2 3) (at2 0x8008) = .next t) ∧ (∃ t, exec (.cbz 1 3) (at2 0x8008) = .next t) ∧
    (∃ t, exec (.fcmpd 1 2) (at2 0x8008) = .next t) ∧ (∃ t, exec (.stxr 1 2 0) (at2 0x8008) = .next t) ∧
    (∃ t, exec (.ldxr 1 2 0) (at2 0x8008) = .next t) :=
  ⟨⟨_, rfl⟩, ⟨_, rfl⟩, ⟨_, rfl⟩, ⟨_, rfl⟩, ⟨_, rfl⟩, ⟨_, rfl⟩, ⟨_, rfl⟩⟩
theorem witness_OnlyMemoryInstructionsRaise : ∃ t, exec (.ldur 1 2 1) (at2 0x8008) = .next t := ⟨_, rfl⟩
theorem witness_OnlyBranchesRedirectThePc :
    isBranch (.add 1 2 3) = false ∧ (∃ t, exec (.add 1 2 3) (st []) = .next t) ∧ (∀ rt, Instr.b 1 ≠ .br rt) ∧
    (st []).pc.toNat % 4 = 0 :=
  ⟨rfl, ⟨_, rfl⟩, fun _ h => (nomatch h), by decide +kernel⟩
theorem witness_OnlyNamedInstructionsTouchFlags :
    writesFlags (.adds 1 2 3) = true ∧ writesFlags (.add 1 2 3) = false ∧ (∃ t, exec (.add 1 2 3) (st []) = .next t) ∧
    (∀ c a, Instr.add 1 2 3 ≠ .bCond c a) ∧
    exec (.stur 1 2 0) (at2 0x1000) = .refused (.storeIntoText ((at2 0x1000).effAddr 2 0)) :=
  ⟨rfl, rfl, ⟨_, rfl⟩, fun _ _ h => (nomatch h),
    show storeAt (at2 0x1000) ((at2 0x1000).effAddr 2 0) 8 ((at2 0x1000).readX 1).toNat = _ from
      storeAt_text (mayAccess_of (by decide +kernel)) (touches_of (by decide +kernel))⟩
theorem witness_OnlyLoadsAndStoresTouchMemory :
    isStore (.ldur 1 2 0) = false ∧ isLoad (.add 1 2 3) = false ∧ isStore (.add 1 2 3) = false ∧
    (∃ t, exec (.add 1 2 3) (st []) = .next t) ∧ placedAdd.fetch = .ok 0x8B0B0149 :=
  ⟨rfl, rfl, rfl, ⟨_, rfl⟩, by decide +kernel⟩
theorem witness_MonitorChangesOnlyByThePair :
    (∃ t, exec (.ldxr 1 2 0) (at2 0x8008) = .next t) ∧ (∃ t, exec (.stxr 1 2 0) (at2 0x8008) = .next t) ∧
    (∀ rt rn dt, Instr.add 1 2 3 ≠ .ldxr rt rn dt ∧ Instr.add 1 2 3 ≠ .stxr rt rn dt) :=
  ⟨⟨_, rfl⟩, ⟨_, rfl⟩, fun _ _ _ => ⟨fun h => (nomatch h), fun h => (nomatch h)⟩⟩
theorem witness_OnlyDestinationRegistersChange :
    destX (.add 1 2 3) ≠ some 2 ∧ destD (.faddd 1 2 3) ≠ some 2 ∧ ∃ t, exec (.add 1 2 3) (st []) = .next t :=
  ⟨by decide, by decide, _, rfl⟩
theorem witness_ZeroRegisterIsConstant :
    destX (.add 31 2 3) = some 31 ∧ ∃ t, exec (.add 31 2 3) (st []) = .next t := ⟨rfl, _, rfl⟩
/-- The invariant holds of a state with a reservation whose next step runs an ADD. -/
theorem witness_StepKeepsInvariant :
    (placedAdd.setMonitor (some 0x8008)).inv ∧ ∃ t, step (placedAdd.setMonitor (some 0x8008)) = .next t := by
  refine ⟨⟨⟨by decide +kernel, by decide +kernel⟩, ?_, ?_⟩, ?_⟩
  · intro a h
    have h' : a = 0x8008 := by injection (show some (0x8008 : Word) = some a from h) with h; exact h.symm
    subst h'
    decide +kernel
  · intro r h
    exact nomatch (show (none : Option FaultRecord) = some r from h)
  · cases h : step (placedAdd.setMonitor (some 0x8008)) with
    | next t => exact ⟨t, rfl⟩
    | fault r =>
      have k : after (step (placedAdd.setMonitor (some 0x8008))) (·.pc) = some 0x1010 := by decide +kernel
      rw [h] at k
      exact nomatch k
    | refused r =>
      have k : after (step (placedAdd.setMonitor (some 0x8008))) (·.pc) = some 0x1010 := by decide +kernel
      rw [h] at k
      exact nomatch k
theorem witness_ProgramTextNeverChanges :
    Memory.wf placedAdd.mem = true ∧ after (Sys2Proof.core.run 1 placedAdd) (fun t => State.pc t) = some 0x1010 ∧
    placedAdd.text.contains 0x100F = true := by decide +kernel
/-- A launch record with a text, an adjacent data range of one byte, registers and flags. -/
def record : Launch where
  entry := 0x1000
  regs := [(30, 0x2000), (0, 7)]
  fregs := [(31, 9)]
  flags := some ⟨true, false, true, false⟩
  mem := [⟨0x1000, [0x8B, 0x1F, 0x03, 0xFF]⟩, ⟨0x1004, [0x55]⟩]
  text := ⟨0x1000, 4⟩
  haltPc := 0x2000
  params := Params.default
theorem witness_LaunchStateHoldsTheRecord :
    launchWellFormed record = true ∧ record.flags = some ⟨true, false, true, false⟩ ∧
    record.regs.find? (fun e => e.1 == 30) = some (30, 0x2000) ∧ record.fregs.find? (fun e => e.1 == 31) = some (31, 9) ∧
    (⟨0x1004, [0x55]⟩ : LaunchRange) ∈ record.mem ∧ 0 < [(0x55 : Byte)].length ∧
    (∀ g ∈ record.mem, 0x1005 < g.base ∨ g.base + g.bytes.length ≤ 0x1005) := by decide +kernel
theorem witness_DecodeOfEncodeIsIdentity :
    (∀ c a, Instr.bCond 0b1101 3 = .bCond c a → condAssigned Params.default.condTable c = true) ∧
    ∀ c a, Instr.add 1 2 3 = .bCond c a → condAssigned Params.default.condTable c = true := by
  refine ⟨fun c a h => ?_, fun c a h => nomatch h⟩
  cases h
  decide
/-- The word of CMPI X2, #5. -/
theorem witness_StrictWordIsItsEncoding :
    Params.default.unusedFieldPolicy = .strict ∧ decodeWord Params.default 0xF100145F = .ok (.subis 31 2 5) := by decide
theorem witness_DecodingAgreesWithOpcodeTable :
    decodeWord Params.default 0x8B0B0149 = .ok (.add 9 10 11) ∧
    (⟨"ADD", 0x8B000000, 0xFFE0FC00⟩ : OpcodeRow) ∈ opcodeTable ∧
    (⟨"ADD", 0x8B000000, 0xFFE0FC00⟩ : OpcodeRow).covers 0x8B0B0149 = true ∧
    (⟨"B.cond", 0x54000000, 0xFF000010⟩ : OpcodeRow) ∈ opcodeTable ∧
    (⟨"B.cond", 0x54000000, 0xFF000010⟩ : OpcodeRow).covers 0x5400006D = true ∧
    ((0x5400006D : IWord).extractLsb' 0 4).toNat < 14 := by decide +kernel

end Sys2Proof.Tests
end

section
/-! PROOF of O43 (10_state.md R31). The idea: run an instruction on a state and on the same state with other flags.
Every state operation commutes with the replacement of the flags, so each shared shape does, so every instruction does
that neither writes nor reads them. -/

namespace Sys2Proof.Machine

/-! ### The flags pass through every state operation -/

section Operations

variable (s : State) (f : Flags)

theorem State.setFlags_writeX (r : RegNum) (v : Word) : (s.setFlags f).writeX r v = (s.writeX r v).setFlags f := rfl
theorem State.setFlags_writeD (r : RegNum) (v : Word) : (s.setFlags f).writeD r v = (s.writeD r v).setFlags f := rfl
theorem State.setFlags_writeS (r : RegNum) (v : BitVec 32) :
    (s.setFlags f).writeS r v = (s.writeS r v).setFlags f := rfl
theorem State.setFlags_setPc (t : Word) : (s.setFlags f).setPc t = (s.setPc t).setFlags f := rfl
theorem State.setFlags_advance : (s.setFlags f).advance = s.advance.setFlags f := rfl
theorem State.setFlags_memWrite (ea : Word) (n v : Nat) :
    (s.setFlags f).memWrite ea n v = (s.memWrite ea n v).setFlags f := rfl
theorem State.setFlags_raise (c : ExceptionClass) (info : Word) :
    (s.setFlags f).raise c info = (s.raise c info).setFlags f := rfl
@[simp] theorem stxrEnd_flags (dt : BitVec 9) (status : Word) : (stxrEnd s dt status).flags = s.flags := rfl
theorem stxrEnd_setFlags (dt : BitVec 9) (status : Word) :
    stxrEnd (s.setFlags f) dt status = (stxrEnd s dt status).setFlags f := rfl

@[simp] theorem State.memRead_setFlags (ea : Word) (n : Nat) : (s.setFlags f).memRead ea n = s.memRead ea n := rfl
@[simp] theorem State.effAddr_setFlags (rn : RegNum) (dt : BitVec 9) :
    (s.setFlags f).effAddr rn dt = s.effAddr rn dt := rfl
@[simp] theorem State.aborts_setFlags (ex : Bool) (ea : Word) (n : Nat) :
    (s.setFlags f).aborts ex ea n = s.aborts ex ea n := rfl
@[simp] theorem State.touchesText_setFlags (a n : Nat) : (s.setFlags f).touchesText a n = s.touchesText a n := rfl
@[simp] theorem stxrAddr_setFlags (rn : RegNum) (dt : BitVec 9) :
    stxrAddr (s.setFlags f) rn dt = stxrAddr s rn dt := rfl
@[simp] theorem stxrSucceeds_setFlags (ea : Word) : stxrSucceeds (s.setFlags f) ea = stxrSucceeds s ea := rfl

end Operations

/-! ### The flags pass through an outcome -/

/-- An outcome whose next state, where there is one, carries the flags `f`. -/
def carryFlags (f : Flags) : Host.Outcome State Fault Refusal → Host.Outcome State Fault Refusal
  | .next t => .next (t.setFlags f)
  | .fault r => .fault r
  | .refused r => .refused r

@[simp] theorem carryFlags_next (f : Flags) (t : State) : carryFlags f (.next t) = .next (t.setFlags f) := rfl
@[simp] theorem carryFlags_refused (f : Flags) (r : Refusal) : carryFlags f (.refused r) = .refused r := rfl

/-! ### The shapes that the loads and stores share -/

theorem loadAt_setFlags (s : State) (f : Flags) (ex : Bool) (ea : Word) (n : Nat) (write : Nat → State → State)
    (hwrite : ∀ v, write v (s.setFlags f) = (write v s).setFlags f) :
    loadAt (s.setFlags f) ex ea n write = carryFlags f (loadAt s ex ea n write) := by
  unfold loadAt
  rw [State.aborts_setFlags, State.memRead_setFlags, hwrite]
  split
  · exact congrArg _ (State.setFlags_raise s f _ _)
  · exact congrArg _ (State.setFlags_advance _ f)

theorem storeAt_setFlags (s : State) (f : Flags) (ea : Word) (n v : Nat) :
    storeAt (s.setFlags f) ea n v = carryFlags f (storeAt s ea n v) := by
  unfold storeAt
  rw [State.aborts_setFlags, State.touchesText_setFlags]
  split
  · exact congrArg _ (State.setFlags_raise s f _ _)
  · split
    · rfl
    · rw [State.setFlags_memWrite, State.setFlags_advance, carryFlags_next]

theorem execStxr_setFlags (s : State) (f : Flags) (rt rn : RegNum) (dt : BitVec 9) :
    execStxr rt rn dt (s.setFlags f) = carryFlags f (execStxr rt rn dt s) := by
  unfold execStxr
  rw [State.setFlags_params, stxrAddr_setFlags, State.aborts_setFlags, stxrSucceeds_setFlags,
    State.touchesText_setFlags, State.readX_setFlags]
  split
  · rfl
  · split
    · exact congrArg _ (State.setFlags_raise s f _ _)
    · split
      · exact congrArg _ (stxrEnd_setFlags s f dt 1)
      · split
        · rfl
        · rw [State.setFlags_memWrite, stxrEnd_setFlags, carryFlags_next]

/-! ### Results and branches -/

theorem resultX_setFlags (s : State) (f : Flags) (rd : RegNum) (v : Word) :
    .next ((s.setFlags f).writeX rd v).advance = carryFlags f (.next (s.writeX rd v).advance) := by
  rw [State.setFlags_writeX, State.setFlags_advance, carryFlags_next]

theorem resultS_setFlags (s : State) (f : Flags) (rd : RegNum) (v : BitVec 32) :
    .next ((s.setFlags f).writeS rd v).advance = carryFlags f (.next (s.writeS rd v).advance) := by
  rw [State.setFlags_writeS, State.setFlags_advance, carryFlags_next]

theorem resultD_setFlags (s : State) (f : Flags) (rd : RegNum) (v : Word) :
    .next ((s.setFlags f).writeD rd v).advance = carryFlags f (.next (s.writeD rd v).advance) := by
  rw [State.setFlags_writeD, State.setFlags_advance, carryFlags_next]

theorem jump_setFlags (s : State) (f : Flags) (t : Word) :
    .next ((s.setFlags f).setPc t) = carryFlags f (.next (s.setPc t)) := by
  rw [State.setFlags_setPc, carryFlags_next]

/-- A branch that the flags do not decide. -/
theorem branchIf_setFlags (s : State) (f : Flags) (p : Prop) [Decidable p] (t : Word) :
    .next (if p then (s.setFlags f).setPc t else (s.setFlags f).advance) =
      carryFlags f (.next (if p then s.setPc t else s.advance)) := by
  split
  · exact jump_setFlags s f t
  · rw [State.setFlags_advance, carryFlags_next]

/-! ### Every instruction -/

/-- An instruction that does not write the flags leaves them. -/
theorem exec_keeps_flags {i : Instr} {s t : State} (hw : writesFlags i = false) (h : exec i s = .next t) :
    t.flags = s.flags := by
  cases exec_shape h with
  | resultFlags _ _ _ _ _ _ _ hw' => exact absurd (hw.symm.trans hw') Bool.false_ne_true
  | compare _ _ _ _ _ hw' => exact absurd (hw.symm.trans hw') Bool.false_ne_true
  | result | single | double | load | ldxr | store | abort | notTaken | taken | bl | br => rfl
  | stxrFailure | stxrSuccess => simp

/-- An instruction that writes the flags answers the same whatever they were: it writes all four and reads none. -/
theorem exec_setFlags_of_writesFlags {i : Instr} (hw : writesFlags i = true) (s : State) (f : Flags) :
    exec i (s.setFlags f) = exec i s := by
  cases i with
  | adds | addis | subs | subis | ands | andis | fcmps | fcmpd => rfl
  | _ => exact nomatch hw

/-- An instruction that neither writes nor reads the flags answers the same but for the flags it carries along. -/
theorem exec_setFlags_of_not_writesFlags {i : Instr} (hw : writesFlags i = false) (hc : ∀ c a, i ≠ .bCond c a)
    (s : State) (f : Flags) : exec i (s.setFlags f) = carryFlags f (exec i s) := by
  cases i with
  | adds | addis | subs | subis | ands | andis | fcmps | fcmpd => exact nomatch hw
  | bCond c a => exact absurd rfl (hc c a)
  | add | addi | sub | subi | and | andi | orr | orri | eor | eori | lsl | lsr | movk | movz
  | mul | sdiv | smulh | udiv | umulh => exact resultX_setFlags s f _ _
  | fadds | fsubs | fmuls | fdivs => exact resultS_setFlags s f _ _
  | faddd | fsubd | fmuld | fdivd => exact resultD_setFlags s f _ _
  | b | br => exact jump_setFlags s f _
  | bl => exact jump_setFlags (s.writeX RegNum.lr (s.pc + 4)) f _
  | cbnz | cbz => exact branchIf_setFlags s f _ _
  | ldur | ldurb | ldurh | ldursw | ldxr | ldurs | ldurd =>
    simp only [exec, execLdur, execLdurb, execLdurh, execLdursw, execLdxr, execLdurs, execLdurd,
      State.effAddr_setFlags]
    exact loadAt_setFlags s f _ _ _ _ fun v => rfl
  | stur | sturb | sturh | sturw | sturs | sturd => exact storeAt_setFlags s f _ _ _
  | stxr rt rn dt => exact execStxr_setFlags s f rt rn dt

/-- Settles O43: the frame of the flags from the shapes of a next state, the two-run part from the instructions'
commuting with the replacement of the flags. -/
theorem onlyNamedInstructionsTouchFlags : Obligations.OnlyNamedInstructionsTouchFlags := by
  intro i s
  refine ⟨fun t hw h => exec_keeps_flags hw h, fun hc f =>
    ⟨fun hw => exec_setFlags_of_writesFlags hw s f, fun hw => ?_⟩⟩
  have hrun := exec_setFlags_of_not_writesFlags hw hc s f
  exact ⟨fun t h => by rw [hrun, h, carryFlags_next], fun r h => by rw [hrun, h, carryFlags_refused]⟩

end Sys2Proof.Machine
end

section
/-! PROOF of O59 (10_state.md R40, 60_exceptions.md R281). -/

namespace Sys2Proof.Machine

/-- A concatenation as a number: the upper part weighs two to the width of the lower. -/
theorem toNat_append_eq_add {m n : Nat} (a : BitVec m) (b : BitVec n) :
    (a ++ b).toNat = a.toNat * 2 ^ n + b.toNat := by
  rw [BitVec.toNat_append, ← Nat.shiftLeft_add_eq_or_of_lt b.isLt, Nat.shiftLeft_eq]

/-- The fields of ESR stand at bits 31:26, 25 and 24:0 (R40). -/
theorem toNat_esrOf (ec : BitVec 6) (il : BitVec 1) (iss : BitVec 25) :
    (esrOf ec il iss).toNat = ec.toNat * 2 ^ 26 + il.toNat * 2 ^ 25 + iss.toNat := by
  rw [esrOf, toNat_append_eq_add, toNat_append_eq_add]
  omega

/-- Settles O59: the fields by concatenation as a sum, the class values by evaluating the table. -/
theorem esrFieldsAndClassValues : Obligations.EsrFieldsAndClassValues :=
  ⟨toNat_esrOf, rfl⟩

end Sys2Proof.Machine
end

section
/-! PROOF of O23 (20_memory.md R53). A read of one byte more is 256 times the read before it plus the new byte, and so
is the sum of the bytes; what a write leaves is Laws/Memory.lean's. -/

namespace Sys2Proof.Machine

/-- The number that one byte more holds: every byte before it moves up one place. -/
theorem bytesValue_succ (s : State) (ea : Word) (n : Nat) :
    bytesValue s ea (n + 1) = 256 * bytesValue s ea n + (s.readByte (ea.toNat + n)).toNat := by
  have hup : ∀ k ∈ List.range n, (s.readByte (ea.toNat + k)).toNat * 256 ^ (n + 1 - 1 - k) =
      256 * ((s.readByte (ea.toNat + k)).toNat * 256 ^ (n - 1 - k)) := by
    intro k hk
    have hlt : k < n := List.mem_range.mp hk
    rw [show n + 1 - 1 - k = n - 1 - k + 1 by omega, Nat.pow_succ]
    ring
  unfold bytesValue
  rw [List.range_succ, List.map_append, List.sum_append, List.map_congr_left hup, List.sum_map_mul_left]
  simp

/-- `MemRead` is the number that the bytes hold (R53). -/
theorem memRead_eq_bytesValue (s : State) (ea : Word) (n : Nat) : s.memRead ea n = bytesValue s ea n := by
  rw [State.memRead_eq]
  induction n with
  | zero => rfl
  | succ n ih => rw [Memory.readBE, ih, bytesValue_succ, State.readByte]

/-- Settles O23: the read by induction on its width, the write by the two rules of a byte inside and outside it. -/
theorem memoryIsBigEndian : Obligations.MemoryIsBigEndian := by
  intro s ea n v hwf
  exact ⟨memRead_eq_bytesValue s ea n, fun k hk => Memory.read_writeBE_inside ea.toNat n v k hwf hk,
    fun b hb => Memory.read_writeBE_outside ea.toNat n v b hwf hb⟩

end Sys2Proof.Machine
end

section
/-! PROOF of O44 (20_memory.md R52, R56, R64). The frame of memory is read off the shapes of a next state. For the
dependence, an instruction that is neither load nor store is run on a state and on the same state with another memory:
its next state is made of updates that do not look at memory. -/

namespace Sys2Proof.Machine

/-- An instruction that is no store leaves every byte. -/
theorem exec_keepsMem {i : Instr} {s t : State} (hs : isStore i = false) (h : exec i s = .next t) : keepsMem s t := by
  cases exec_shape h with
  | store _ _ _ _ _ _ _ _ hs' => exact absurd (hs.symm.trans hs') Bool.false_ne_true
  | stxrFailure | stxrSuccess => exact nomatch hs
  | result | resultFlags | compare | single | double | load | ldxr | abort | notTaken | taken | bl | br =>
    exact fun a => rfl

/-- A conditional branch carries another memory along, where its condition does not look at memory. -/
theorem branchIf_setMem (s : State) (m : Memory) (p : Prop) [Decidable p] (t : Word) :
    (if p then (s.setMem m).setPc t else (s.setMem m).advance) = (if p then s.setPc t else s.advance).setMem m :=
  (apply_ite (State.setMem · m) p (s.setPc t) s.advance).symm

/-- An instruction that is neither load nor store has a next state in every state, and with another memory the same one
with that memory. -/
theorem exec_setMem {i : Instr} (hl : isLoad i = false) (hs : isStore i = false) (s : State) :
    ∃ t, exec i s = .next t ∧ ∀ m, exec i (s.setMem m) = .next (t.setMem m) := by
  cases i with
  | ldur | ldurb | ldurh | ldursw | ldxr | ldurs | ldurd => exact nomatch hl
  | stur | sturb | sturh | sturw | stxr | sturs | sturd => exact nomatch hs
  | bCond | cbnz | cbz => exact ⟨_, rfl, fun m => congrArg Host.Outcome.next (branchIf_setMem s m _ _)⟩
  | add | addi | sub | subi | and | andi | orr | orri | eor | eori | lsl | lsr | movk | movz
  | mul | sdiv | smulh | udiv | umulh => exact ⟨_, rfl, fun m => rfl⟩
  | adds | addis | subs | subis | ands | andis | fcmps | fcmpd => exact ⟨_, rfl, fun m => rfl⟩
  | fadds | fsubs | fmuls | fdivs | faddd | fsubd | fmuld | fdivd => exact ⟨_, rfl, fun m => rfl⟩
  | b | bl | br => exact ⟨_, rfl, fun m => rfl⟩

/-- A fetch that succeeds gives the four bytes at the pc, in the byte order of data (R56). -/
theorem fetch_eq_bytesValue {s : State} {w : IWord} (h : s.fetch = .ok w) :
    w = BitVec.ofNat 32 (bytesValue s s.pc 4) := by
  rw [← memRead_eq_bytesValue, State.memRead_eq]
  rcases fetch_cases s with ⟨_, hf⟩ | ⟨_, _, hf⟩ | ⟨_, _, hf⟩
  · exact nomatch hf.symm.trans h
  · exact nomatch hf.symm.trans h
  · exact (Except.ok.inj (hf.symm.trans h)).symm

/-- Settles O44: the frame of memory, the run on another memory, and the fetch. -/
theorem onlyLoadsAndStoresTouchMemory : Obligations.OnlyLoadsAndStoresTouchMemory := by
  refine ⟨fun i s t h => ⟨fun hs => exec_keepsMem hs h, fun hl hs m => ?_⟩, fun s w h => fetch_eq_bytesValue h⟩
  obtain ⟨t', ht', hother⟩ := exec_setMem hl hs s
  have ht : t' = t := Host.Outcome.next.inj (ht'.symm.trans h)
  exact ht ▸ hother m

end Sys2Proof.Machine
end

section
/-! SUPPORT. The words of the R- and I-format rows of 30_encoding.md R98 that need no shamt: a base word with its fields
in place (40_core_arith_logic.md R120) is the encoding, and it decodes to its instruction. Then what a result in one
integer register leaves unchanged. -/

namespace Sys2Proof.Machine

/-! ### A base word with its fields in place

Bit by bit: each bit lies in one field, and every other field, moved to its place, is 0 there. -/

/-- The base word is the word with zero in every operand field (R82, R120). -/
theorem layoutR_encodeR (op : BitVec 11) (shamt : BitVec 6) (rm rn rd : RegNum) :
    layoutR (encodeR op 0 shamt 0 0) rm rn rd = encodeR op rm shamt rn rd := by
  apply BitVec.eq_of_getLsbD_eq
  intro i hi
  simp only [layoutR, encodeR, BitVec.getLsbD_or, BitVec.getLsbD_shiftLeft, BitVec.getLsbD_setWidth,
    BitVec.getLsbD_append]
  grind

/-- The base word is the word with zero in every operand field (R83, R120). -/
theorem layoutI_encodeI (op : BitVec 10) (imm : BitVec 12) (rn rd : RegNum) :
    layoutI (encodeI op 0 0 0) imm rn rd = encodeI op imm rn rd := by
  apply BitVec.eq_of_getLsbD_eq
  intro i hi
  simp only [layoutI, encodeI, BitVec.getLsbD_or, BitVec.getLsbD_shiftLeft, BitVec.getLsbD_setWidth,
    BitVec.getLsbD_append]
  grind

/-! ### The rows -/

/-- The R-format rows of R98 that use all three registers and no shamt: the opcode and the instruction. -/
inductive RegisterRow : BitVec 11 → (RegNum → RegNum → RegNum → Instr) → Prop where
  | and : RegisterRow 0x450 .and
  | add : RegisterRow 0x458 .add
  | orr : RegisterRow 0x550 .orr
  | adds : RegisterRow 0x558 .adds
  | eor : RegisterRow 0x650 .eor
  | sub : RegisterRow 0x658 .sub
  | ands : RegisterRow 0x750 .ands
  | subs : RegisterRow 0x758 .subs

/-- The I-format rows of R98: the opcode and the instruction. -/
inductive ImmediateRow : BitVec 10 → (RegNum → RegNum → BitVec 12 → Instr) → Prop where
  | addi : ImmediateRow 0b1001000100 .addi
  | andi : ImmediateRow 0b1001001000 .andi
  | addis : ImmediateRow 0b1011000100 .addis
  | orri : ImmediateRow 0b1011001000 .orri
  | subi : ImmediateRow 0b1101000100 .subi
  | eori : ImmediateRow 0b1101001000 .eori
  | subis : ImmediateRow 0b1111000100 .subis
  | andis : ImmediateRow 0b1111001000 .andis

/-- The word of a register row, its shamt zero, decodes to the row's instruction under either policy (R100, R101). -/
theorem RegisterRow.decodeWord_encodeR {op : BitVec 11} {mk : RegNum → RegNum → RegNum → Instr}
    (h : RegisterRow op mk) (p : Params) (rd rn rm : RegNum) :
    decodeWord p (encodeR op rm 0 rn rd) = .ok (mk rd rn rm) := by
  cases h <;> simp [decodeWord, decodeOp10, decodeOp11, decodeRegister, decodeR]

/-- The word of an immediate row decodes to the row's instruction (R100). -/
theorem ImmediateRow.decodeWord_encodeI {op : BitVec 10} {mk : RegNum → RegNum → BitVec 12 → Instr}
    (h : ImmediateRow op mk) (p : Params) (rd rn : RegNum) (imm : BitVec 12) :
    decodeWord p (encodeI op imm rn rd) = .ok (mk rd rn imm) := by
  cases h <;> simp [decodeWord, decodeOp10]

/-- The instruction of a register row has the row's base word with its fields in place, and that word decodes to it. -/
theorem RegisterRow.encodesAs_layoutR {op : BitVec 11} {mk : RegNum → RegNum → RegNum → Instr} {base : IWord}
    (h : RegisterRow op mk) (hbase : base = encodeR op 0 0 0 0) (rd rn rm : RegNum) :
    encodesAs (mk rd rn rm) (layoutR base rm rn rd) := by
  intro p
  rw [hbase, layoutR_encodeR]
  refine ⟨?_, h.decodeWord_encodeR p rd rn rm⟩
  cases h <;> rfl

/-- The instruction of an immediate row has the row's base word with its fields in place, and the word decodes to it. -/
theorem ImmediateRow.encodesAs_layoutI {op : BitVec 10} {mk : RegNum → RegNum → BitVec 12 → Instr} {base : IWord}
    (h : ImmediateRow op mk) (hbase : base = encodeI op 0 0 0) (rd rn : RegNum) (imm : BitVec 12) :
    encodesAs (mk rd rn imm) (layoutI base imm rn rd) := by
  intro p
  rw [hbase, layoutI_encodeI]
  refine ⟨?_, h.decodeWord_encodeI p rd rn imm⟩
  cases h <;> rfl

/-! ### The result and the immediate -/

/-- A result written to an integer register, and the pc moved on: nothing else changes (R22, R120). -/
theorem writesOnlyX_writeX_advance (rd : RegNum) (v : Word) (s : State) :
    writesOnlyX rd v s (s.writeX rd v).advance :=
  ⟨State.readX_writeX_self s rd v, fun _ hr => State.readX_writeX_ne s v hr, fun _ => rfl, rfl, fun _ => rfl,
    ⟨rfl, rfl⟩, rfl, ⟨rfl, rfl, rfl, rfl⟩, rfl⟩

/-- ALUImm keeps the number (30_encoding.md R90). -/
@[simp] theorem toNat_aluImm (imm : BitVec 12) : (aluImm imm).toNat = imm.toNat :=
  BitVec.toNat_setWidth_of_le (by decide)

/-- ALUImm keeps the bits, and those above bit 11 are zero (R90). -/
@[simp] theorem getLsbD_aluImm (imm : BitVec 12) (j : Nat) : (aluImm imm).getLsbD j = imm.getLsbD j := by
  rw [BitVec.getLsbD, BitVec.getLsbD, toNat_aluImm]

end Sys2Proof.Machine
end

section
/-! PROOF of O1 (40_core_arith_logic.md R124, R125, R140, R141). -/

namespace Sys2Proof.Machine

/-- A difference of words is the difference of their numbers modulo 2^64. -/
theorem ofInt_toNat_sub_toNat (a b : Word) : BitVec.ofInt 64 (a.toNat - b.toNat : Int) = a - b := by
  simp [Int.sub_eq_add_neg, BitVec.ofInt_add, BitVec.ofInt_neg, BitVec.sub_eq_add_neg]

/-- Settles O1: the words by their rows of R98, the results by the arithmetic of words. -/
theorem addSubWriteSumOrDifference : Obligations.AddSubWriteSumOrDifference := by
  intro s rd rn rm imm
  rw [← toNat_aluImm, ← BitVec.add_def, ← BitVec.add_def, ofInt_toNat_sub_toNat, ofInt_toNat_sub_toNat]
  exact
    ⟨⟨RegisterRow.add.encodesAs_layoutR rfl rd rn rm, _, rfl, writesOnlyX_writeX_advance ..⟩,
      ⟨ImmediateRow.addi.encodesAs_layoutI rfl rd rn imm, _, rfl, writesOnlyX_writeX_advance ..⟩,
      ⟨RegisterRow.sub.encodesAs_layoutR rfl rd rn rm, _, rfl, writesOnlyX_writeX_advance ..⟩,
      ⟨ImmediateRow.subi.encodesAs_layoutI rfl rd rn imm, _, rfl, writesOnlyX_writeX_advance ..⟩⟩

end Sys2Proof.Machine
end

section
/-! PROOF of O2 (40_core_arith_logic.md R128, R129, R132, R133, R138, R139). -/

namespace Sys2Proof.Machine

/-- Settles O2: the words by their rows of R98, the results by the bits of the three operations. -/
theorem logicalOpsWriteBitwiseResult : Obligations.LogicalOpsWriteBitwiseResult := by
  intro s rd rn rm imm
  simp only [← getLsbD_aluImm]
  exact
    ⟨⟨RegisterRow.and.encodesAs_layoutR rfl rd rn rm, _, _, rfl, writesOnlyX_writeX_advance ..,
        fun _ => BitVec.getLsbD_and⟩,
      ⟨ImmediateRow.andi.encodesAs_layoutI rfl rd rn imm, _, _, rfl, writesOnlyX_writeX_advance ..,
        fun _ => BitVec.getLsbD_and⟩,
      ⟨RegisterRow.eor.encodesAs_layoutR rfl rd rn rm, _, _, rfl, writesOnlyX_writeX_advance ..,
        fun _ => BitVec.getLsbD_xor⟩,
      ⟨ImmediateRow.eori.encodesAs_layoutI rfl rd rn imm, _, _, rfl, writesOnlyX_writeX_advance ..,
        fun _ => BitVec.getLsbD_xor⟩,
      ⟨RegisterRow.orr.encodesAs_layoutR rfl rd rn rm, _, _, rfl, writesOnlyX_writeX_advance ..,
        fun _ => BitVec.getLsbD_or⟩,
      ⟨ImmediateRow.orri.encodesAs_layoutI rfl rd rn imm, _, _, rfl, writesOnlyX_writeX_advance ..,
        fun _ => BitVec.getLsbD_or⟩⟩

end Sys2Proof.Machine
end

section
/-! SUPPORT. The words of the B-format rows and of CBZ and CBNZ (30_encoding.md R86, R87, R98), the offsets of the
branches as signed numbers (R91, R92), and what a jump, taken or not, leaves unchanged (41_core_branch.md R160). -/

namespace Sys2Proof.Machine

/-! ### A base word with its fields in place -/

/-- The base word is the word with zero in the address field (R86, R120). -/
theorem layoutB_encodeB (op : BitVec 6) (addr : BitVec 26) : layoutB (encodeB op 0) addr = encodeB op addr := by
  apply BitVec.eq_of_getLsbD_eq
  intro i hi
  simp only [layoutB, encodeB, BitVec.getLsbD_or, BitVec.getLsbD_setWidth, BitVec.getLsbD_append]
  grind

/-- The base word is the word with zero in the address field and in bits 4:0 (R87, R120). -/
theorem layoutCB_encodeCB (op : BitVec 8) (addr : BitVec 19) (low : BitVec 5) :
    layoutCB (encodeCB op 0 0) addr low = encodeCB op addr low := by
  apply BitVec.eq_of_getLsbD_eq
  intro i hi
  simp only [layoutCB, encodeCB, BitVec.getLsbD_or, BitVec.getLsbD_shiftLeft, BitVec.getLsbD_setWidth,
    BitVec.getLsbD_append]
  grind

/-! ### The rows -/

/-- The B-format rows of R98: the opcode and the instruction. -/
inductive JumpRow : BitVec 6 → (BitVec 26 → Instr) → Prop where
  | b : JumpRow 0b000101 .b
  | bl : JumpRow 0b100101 .bl

/-- The CB-format rows of R98 whose bits 4:0 are a register: the opcode and the instruction. -/
inductive CompareBranchRow : BitVec 8 → (RegNum → BitVec 19 → Instr) → Prop where
  | cbz : CompareBranchRow 0b10110100 .cbz
  | cbnz : CompareBranchRow 0b10110101 .cbnz

/-- The word of a B-format row decodes to the row's instruction (R100). -/
theorem JumpRow.decodeWord_encodeB {op : BitVec 6} {mk : BitVec 26 → Instr} (h : JumpRow op mk) (p : Params)
    (addr : BitVec 26) : decodeWord p (encodeB op addr) = .ok (mk addr) := by
  cases h <;> simp [decodeWord]

/-- The word of a CBZ or CBNZ row decodes to the row's instruction (R100). -/
theorem CompareBranchRow.decodeWord_encodeCB {op : BitVec 8} {mk : RegNum → BitVec 19 → Instr}
    (h : CompareBranchRow op mk) (p : Params) (rt : RegNum) (addr : BitVec 19) :
    decodeWord p (encodeCB op addr rt) = .ok (mk rt addr) := by
  cases h <;> simp [decodeWord]

/-- The instruction of a B-format row has the row's base word with its field in place, and the word decodes to it. -/
theorem JumpRow.encodesAs_layoutB {op : BitVec 6} {mk : BitVec 26 → Instr} {base : IWord} (h : JumpRow op mk)
    (hbase : base = encodeB op 0) (addr : BitVec 26) : encodesAs (mk addr) (layoutB base addr) := by
  intro p
  rw [hbase, layoutB_encodeB]
  refine ⟨?_, h.decodeWord_encodeB p addr⟩
  cases h <;> rfl

/-- CBZ and CBNZ have their row's base word with its fields in place, and the word decodes to them. -/
theorem CompareBranchRow.encodesAs_layoutCB {op : BitVec 8} {mk : RegNum → BitVec 19 → Instr} {base : IWord}
    (h : CompareBranchRow op mk) (hbase : base = encodeCB op 0 0) (rt : RegNum) (addr : BitVec 19) :
    encodesAs (mk rt addr) (layoutCB base addr rt) := by
  intro p
  rw [hbase, layoutCB_encodeCB]
  refine ⟨?_, h.decodeWord_encodeCB p rt addr⟩
  cases h <;> rfl

/-! ### The offsets -/

/-- Two zero bits below a field and its sign above it: 4 times the signed field, which no word is too narrow for. -/
theorem toInt_signExtend_append_zero {n : Nat} (h : n + 2 ≤ 64) (a : BitVec n) :
    ((a ++ (0 : BitVec 2)).signExtend 64).toInt = 4 * a.toInt := by
  rw [BitVec.toInt_signExtend_of_le h]
  exact BitVec.toInt_append_zero

/-- BranchAddr is 4 times the signed field (R91). -/
theorem branchAddr_eq_ofInt (addr : BitVec 26) : branchAddr addr = BitVec.ofInt 64 (4 * addr.toInt) := by
  rw [← toInt_signExtend_append_zero (by decide) addr, BitVec.ofInt_toInt, branchAddr]

/-- CondBranchAddr is 4 times the signed field (R92). -/
theorem condBranchAddr_eq_ofInt (addr : BitVec 19) : condBranchAddr addr = BitVec.ofInt 64 (4 * addr.toInt) := by
  rw [← toInt_signExtend_append_zero (by decide) addr, BitVec.ofInt_toInt, condBranchAddr]

/-! ### The jump -/

/-- A new pc changes nothing else. -/
theorem writesOnlyPc_setPc (s : State) (target : Word) : writesOnlyPc target s (s.setPc target) :=
  ⟨fun _ => rfl, fun _ => rfl, rfl, fun _ => rfl, ⟨rfl, rfl⟩, rfl, ⟨rfl, rfl, rfl, rfl⟩, rfl⟩

/-- A branch not taken moves the pc on by 4 and changes nothing else. -/
theorem writesOnlyPc_advance (s : State) : writesOnlyPc (s.pc + 4) s s.advance :=
  writesOnlyPc_setPc s (s.pc + 4)

/-- A conditional branch changes the pc alone, to its target or by 4. -/
theorem writesOnlyPc_branchIf (s : State) (p : Prop) [Decidable p] (target : Word) :
    writesOnlyPc (if p then target else s.pc + 4) s (if p then s.setPc target else s.advance) := by
  split
  · exact writesOnlyPc_setPc s target
  · exact writesOnlyPc_advance s

end Sys2Proof.Machine
end

section
/-! PROOF of O11 (41_core_branch.md R162, R163). -/

namespace Sys2Proof.Machine

/-- Settles O11: the words by their rows of R98; BL's link is the only register written, and the link and the target
are both of the pc before the step. -/
theorem branchAndLinkSetPc : Obligations.BranchAndLinkSetPc := by
  intro s addr
  rw [← branchAddr_eq_ofInt]
  have link : (s.writeX RegNum.lr (s.pc + 4)).readX 30 = s.pc + 4 := State.readX_writeX_self s 30 (s.pc + 4)
  have others : keepsXBut 30 s (s.writeX RegNum.lr (s.pc + 4)) := fun _ hr => State.readX_writeX_ne s _ hr
  exact
    ⟨⟨JumpRow.b.encodesAs_layoutB rfl addr, _, rfl, writesOnlyPc_setPc s _⟩,
      ⟨JumpRow.bl.encodesAs_layoutB rfl addr, _, rfl, link, others, fun _ => rfl, rfl, fun _ => rfl, ⟨rfl, rfl⟩, rfl,
        ⟨rfl, rfl, rfl, rfl⟩, rfl⟩⟩

end Sys2Proof.Machine
end

section
/-! PROOF of O15 (41_core_branch.md R166, R167). -/

namespace Sys2Proof.Machine

/-- Settles O15: the words by their rows of R98, and either outcome of the test changes the pc alone. -/
theorem compareBranchesTestWholeRegister : Obligations.CompareBranchesTestWholeRegister := by
  intro s rt addr
  rw [← condBranchAddr_eq_ofInt]
  exact
    ⟨⟨CompareBranchRow.cbnz.encodesAs_layoutCB rfl rt addr, _, rfl, writesOnlyPc_branchIf s (s.readX rt ≠ 0) _⟩,
      ⟨CompareBranchRow.cbz.encodesAs_layoutCB rfl rt addr, _, rfl, writesOnlyPc_branchIf s (s.readX rt = 0) _⟩⟩

end Sys2Proof.Machine
end

section
/-! SUPPORT. One lemma per field of the state that an STXR ends in (42_core_load_store.md R190, R191), as Laws/State.lean
has for the other updates. -/

namespace Sys2Proof.Machine

section StxrEnd

variable (s : State) (dt : BitVec 9) (status : Word)

@[simp] theorem stxrEnd_pc : (stxrEnd s dt status).pc = s.pc + 4 := rfl
@[simp] theorem stxrEnd_esr : (stxrEnd s dt status).esr = s.esr := rfl
@[simp] theorem stxrEnd_monitor : (stxrEnd s dt status).monitor = none := rfl
@[simp] theorem stxrEnd_mem : (stxrEnd s dt status).mem = s.mem := rfl
@[simp] theorem stxrEnd_ranges : (stxrEnd s dt status).ranges = s.ranges := rfl
@[simp] theorem stxrEnd_text : (stxrEnd s dt status).text = s.text := rfl
@[simp] theorem stxrEnd_haltPc : (stxrEnd s dt status).haltPc = s.haltPc := rfl
@[simp] theorem stxrEnd_fault : (stxrEnd s dt status).fault = s.fault := rfl
@[simp] theorem stxrEnd_params : (stxrEnd s dt status).params = s.params := rfl
@[simp] theorem readD_stxrEnd (q : RegNum) : (stxrEnd s dt status).readD q = s.readD q := rfl

/-- Every register but the status register reads as before. -/
theorem readX_stxrEnd_ne {q : RegNum} (h : q ≠ stxrStatusReg dt) : (stxrEnd s dt status).readX q = s.readX q :=
  State.readX_writeX_ne ((s.drawIf true).setMonitor none) status h

end StxrEnd

end Sys2Proof.Machine
end

section
/-! PROOF of O48 (20_memory.md R50, R51, 42_core_load_store.md R185, 60_exceptions.md R287, R291). Each part of the
invariant speaks of few fields: an update that leaves them keeps it. What remains is one argument for each part: the
bytes of a store were admitted, LDXR checked its address, and taking an exception leaves what the record says. -/

namespace Sys2Proof.Machine

/-! ### Each part depends on few fields -/

/-- The part on memory depends on memory and the admitted ranges. -/
theorem invMemory_congr {s t : State} (hm : t.mem = s.mem) (hr : t.ranges = s.ranges) (h : invMemory s) :
    invMemory t := by
  unfold invMemory State.admits
  rw [hm, hr]
  exact h

/-- The part on the monitor depends on the monitor and the admitted ranges. -/
theorem invMonitor_congr {s t : State} (hm : t.monitor = s.monitor) (hr : t.ranges = s.ranges) (h : invMonitor s) :
    invMonitor t := by
  unfold invMonitor State.admitted State.admits
  rw [hm, hr]
  exact h

theorem invMonitor_of_none {t : State} (hm : t.monitor = none) : invMonitor t := by
  intro a ha
  exact nomatch hm.symm.trans ha

theorem invFault_of_none {t : State} (hf : t.fault = none) : invFault t := by
  intro r hr
  exact nomatch hf.symm.trans hr

/-! ### One argument for each part -/

/-- An access that raises nothing lies in admitted bytes below 2^64 (20_memory.md R58). -/
theorem admitted_of_not_aborts {s : State} {ex : Bool} {ea : Word} {n : Nat} (h : s.aborts ex ea n = false) :
    s.admitted ea.toNat n = true :=
  (accessAdmitted_iff s ea n).mp ((not_aborts_iff s ex ea n).mp h).2

/-- A store of admitted bytes lists no other byte. -/
theorem invMemory_memWrite {s : State} {ea : Word} {n : Nat} (v : Nat) (ha : s.admitted ea.toNat n = true)
    (h : invMemory s) : invMemory (s.memWrite ea n v) := by
  obtain ⟨hwf, hcells⟩ := h
  obtain ⟨hend, hbytes⟩ := (State.admitted_iff s ea.toNat n).mp ha
  have hmem : (s.memWrite ea n v).mem = Memory.writeBE s.mem ea.toNat n v := Memory.writeIn_eq s.params.endian ..
  refine ⟨hmem ▸ Memory.wf_writeBE ea.toNat n v hwf, fun c hc => ?_⟩
  rcases Memory.mem_writeBE (hmem ▸ hc) with ⟨k, hk, hck⟩ | hold
  · rw [hck]
    exact ⟨by omega, hbytes k hk⟩
  · exact hcells c hold

/-- The exclusive pair's address, where it raises nothing, is a multiple of 8 (42_core_load_store.md R185). -/
theorem aligned_of_not_aborts {s : State} {ea : Word} (h : s.aborts true ea 8 = false) : ea.toNat % 8 = 0 := by
  rcases ((not_aborts_iff s true ea 8).mp h).1 with hal | ⟨hex, _⟩
  · exact hal
  · exact nomatch hex

/-- The classes that are raised (60_exceptions.md R287). -/
def raisedClass (c : ExceptionClass) : Prop :=
  c = .unknown ∨ c = .instructionAbort ∨ c = .misalignedPC ∨ c = .dataAbort

/-- Taking an exception of a class that is raised keeps the invariant (60_exceptions.md R290 to R292). -/
theorem inv_raise {s : State} {c : ExceptionClass} (info : Word) (hc : raisedClass c) (h : s.inv) :
    (s.raise c info).inv := by
  obtain ⟨hmem, -, -⟩ := h
  refine ⟨invMemory_congr rfl rfl hmem, invMonitor_of_none rfl, fun r hr => ?_⟩
  obtain rfl : ⟨c, s.pc, info⟩ = r := Option.some.inj hr
  exact ⟨esrEC_esrOf .., esrIL_esrOf .., rfl, rfl, hc⟩

/-- The class of a fetch's exception is one that is raised. -/
theorem raisedClass_of_fetch {s : State} {c : ExceptionClass} (h : s.fetch = .error c) : raisedClass c := by
  rcases fetch_cases s with ⟨-, hf⟩ | ⟨-, -, hf⟩ | ⟨-, -, hf⟩
  · cases hf.symm.trans h
    exact .inr (.inr (.inl rfl))
  · cases hf.symm.trans h
    exact .inr (.inl rfl)
  · exact nomatch hf.symm.trans h

/-! ### The instructions and the step -/

/-- An instruction run on a state without a fault record keeps the invariant. -/
theorem exec_keeps_inv {i : Instr} {s t : State} (hf : s.fault = none) (h : s.inv) (hx : exec i s = .next t) :
    t.inv := by
  obtain ⟨hmem, hmon, -⟩ := id h
  cases exec_shape hx with
  | result | resultFlags | compare | single | double | load | notTaken | taken | bl | br =>
    exact ⟨invMemory_congr rfl rfl hmem, invMonitor_congr rfl rfl hmon, invFault_of_none hf⟩
  | ldxr _ _ _ _ ha =>
    refine ⟨invMemory_congr rfl rfl hmem, fun a hm => ?_, invFault_of_none hf⟩
    obtain rfl := Option.some.inj hm
    exact ⟨aligned_of_not_aborts ha, admitted_of_not_aborts ha⟩
  | store _ _ _ v _ _ _ _ _ _ _ ha _ =>
    exact ⟨invMemory_congr rfl rfl (invMemory_memWrite v (admitted_of_not_aborts ha) hmem),
      invMonitor_congr rfl rfl hmon, invFault_of_none hf⟩
  | stxrFailure =>
    exact ⟨invMemory_congr (stxrEnd_mem ..) (stxrEnd_ranges ..) hmem, invMonitor_of_none (stxrEnd_monitor ..),
      invFault_of_none ((stxrEnd_fault ..).trans hf)⟩
  | stxrSuccess _ _ _ ha _ =>
    exact ⟨invMemory_congr (stxrEnd_mem ..) (stxrEnd_ranges ..)
        (invMemory_memWrite _ (admitted_of_not_aborts ha) hmem),
      invMonitor_of_none (stxrEnd_monitor ..), invFault_of_none ((stxrEnd_fault ..).trans hf)⟩
  | abort => exact inv_raise _ (.inr (.inr (.inr rfl))) h

/-- Settles O48: a step takes the fetch's exception, the decoder's, or runs an instruction. -/
theorem stepKeepsInvariant : Obligations.StepKeepsInvariant := by
  intro s t h hs
  obtain ⟨hf, -, ⟨c, hc, rfl⟩ | ⟨w, e, -, -, rfl⟩ | ⟨w, i, -, -, hx⟩⟩ := step_cases hs
  · exact inv_raise _ (raisedClass_of_fetch hc) h
  · exact inv_raise _ (.inl rfl) h
  · exact exec_keeps_inv hf h hx

end Sys2Proof.Machine
end

section
/-! SUPPORT. The words of the other rows of 30_encoding.md R98, as the R- and I-format rows have theirs above: the base
word with its fields in place is the encoding, and it decodes to its instruction. -/

namespace Sys2Proof.Machine

/-! ### A base word with its fields in place -/

/-- The base word is the word with zero in every operand field (R82, R120). -/
theorem layoutShift_encodeR (op : BitVec 11) (shamt : BitVec 6) (rn rd : RegNum) :
    layoutShift (encodeR op 0 0 0 0) shamt rn rd = encodeR op 0 shamt rn rd := by
  apply BitVec.eq_of_getLsbD_eq
  intro i hi
  simp only [layoutShift, encodeR, BitVec.getLsbD_or, BitVec.getLsbD_shiftLeft, BitVec.getLsbD_setWidth,
    BitVec.getLsbD_append]
  grind

/-- The base word is the word with zero in every operand field (R85, R120). -/
theorem layoutD_encodeD (op : BitVec 11) (dt : BitVec 9) (rn rt : RegNum) :
    layoutD (encodeD op 0 0 0) dt rn rt = encodeD op dt rn rt := by
  apply BitVec.eq_of_getLsbD_eq
  intro i hi
  simp only [layoutD, encodeD, BitVec.getLsbD_or, BitVec.getLsbD_shiftLeft, BitVec.getLsbD_setWidth,
    BitVec.getLsbD_append]
  grind

/-- The base word is the word with zero in every operand field (R88, R120). -/
theorem layoutIM_encodeIM (op : BitVec 9) (hw : BitVec 2) (imm : BitVec 16) (rd : RegNum) :
    layoutIM (encodeIM op 0 0 0) hw imm rd = encodeIM op hw imm rd := by
  apply BitVec.eq_of_getLsbD_eq
  intro i hi
  simp only [layoutIM, encodeIM, BitVec.getLsbD_or, BitVec.getLsbD_shiftLeft, BitVec.getLsbD_setWidth,
    BitVec.getLsbD_append]
  grind

/-! ### The rows -/

/-- The R-format rows of R98 that a shamt selects (R99): the opcode, the shamt and the instruction. -/
inductive ShamtRow : BitVec 11 → BitVec 6 → (RegNum → RegNum → RegNum → Instr) → Prop where
  | fmuls : ShamtRow 0x0F1 0x02 .fmuls
  | fdivs : ShamtRow 0x0F1 0x06 .fdivs
  | fadds : ShamtRow 0x0F1 0x0A .fadds
  | fsubs : ShamtRow 0x0F1 0x0E .fsubs
  | fmuld : ShamtRow 0x0F3 0x02 .fmuld
  | fdivd : ShamtRow 0x0F3 0x06 .fdivd
  | faddd : ShamtRow 0x0F3 0x0A .faddd
  | fsubd : ShamtRow 0x0F3 0x0E .fsubd
  | sdiv : ShamtRow 0x4D6 0x02 .sdiv
  | udiv : ShamtRow 0x4D6 0x03 .udiv
  | mul : ShamtRow 0x4D8 0x1F .mul
  | smulh : ShamtRow 0x4DA 0x1F .smulh
  | umulh : ShamtRow 0x4DE 0x1F .umulh

/-- The floating-point compares, which a shamt selects and whose Rd is unused (R99, R101). -/
inductive FloatCompareRow : BitVec 11 → (RegNum → RegNum → Instr) → Prop where
  | fcmps : FloatCompareRow 0x0F1 .fcmps
  | fcmpd : FloatCompareRow 0x0F3 .fcmpd

/-- LSL and LSR, whose shamt is an operand and whose Rm is unused (R95, R101). -/
inductive ShiftRow : BitVec 11 → (RegNum → RegNum → BitVec 6 → Instr) → Prop where
  | lsr : ShiftRow 0x69A .lsr
  | lsl : ShiftRow 0x69B .lsl

/-- The IM-format rows of R98: the opcode and the instruction. -/
inductive MoveRow : BitVec 9 → (RegNum → BitVec 2 → BitVec 16 → Instr) → Prop where
  | movz : MoveRow 0b110100101 .movz
  | movk : MoveRow 0b111100101 .movk

/-- The D-format rows of R98: the opcode and the instruction. -/
inductive DataRow : BitVec 11 → (RegNum → RegNum → BitVec 9 → Instr) → Prop where
  | ldurb : DataRow 0x1C2 .ldurb
  | ldurh : DataRow 0x3C2 .ldurh
  | ldursw : DataRow 0x5C4 .ldursw
  | ldurs : DataRow 0x5E2 .ldurs
  | ldxr : DataRow 0x642 .ldxr
  | ldur : DataRow 0x7C2 .ldur
  | ldurd : DataRow 0x7E2 .ldurd
  | sturb : DataRow 0x1C0 .sturb
  | sturh : DataRow 0x3C0 .sturh
  | sturw : DataRow 0x5C0 .sturw
  | sturs : DataRow 0x5E0 .sturs
  | stxr : DataRow 0x640 .stxr
  | stur : DataRow 0x7C0 .stur
  | sturd : DataRow 0x7E0 .sturd

/-! ### The word of a row decodes to its instruction -/

/-- The word of a row that a shamt selects decodes to the row's instruction under either policy (R100). -/
theorem ShamtRow.decodeWord_encodeR {op : BitVec 11} {shamt : BitVec 6} {mk : RegNum → RegNum → RegNum → Instr}
    (h : ShamtRow op shamt mk) (p : Params) (rd rn rm : RegNum) :
    decodeWord p (encodeR op rm shamt rn rd) = .ok (mk rd rn rm) := by
  cases h <;>
    simp [decodeWord, decodeOp10, decodeOp11, decodeFpSingle, decodeFpDouble, decodeDivide, decodeMultiply,
      decodeMultiplyHigh]

/-- The word of a compare, its Rd zero, decodes to the compare under either policy (R100, R101). -/
theorem FloatCompareRow.decodeWord_encodeR {op : BitVec 11} {mk : RegNum → RegNum → Instr}
    (h : FloatCompareRow op mk) (p : Params) (rn rm : RegNum) :
    decodeWord p (encodeR op rm 0x08 rn 0) = .ok (mk rn rm) := by
  cases h <;> simp [decodeWord, decodeOp10, decodeOp11, decodeFpSingle, decodeFpDouble]

/-- The word of a shift, its Rm zero, decodes to the shift under either policy (R100, R101). -/
theorem ShiftRow.decodeWord_encodeR {op : BitVec 11} {mk : RegNum → RegNum → BitVec 6 → Instr}
    (h : ShiftRow op mk) (p : Params) (rd rn : RegNum) (shamt : BitVec 6) :
    decodeWord p (encodeR op 0 shamt rn rd) = .ok (mk rd rn shamt) := by
  cases h <;> simp [decodeWord, decodeOp10, decodeOp11, decodeRegister, decodeShift]

/-- The word of an IM-format row decodes to the row's instruction (R100). -/
theorem MoveRow.decodeWord_encodeIM {op : BitVec 9} {mk : RegNum → BitVec 2 → BitVec 16 → Instr}
    (h : MoveRow op mk) (p : Params) (rd : RegNum) (hw : BitVec 2) (imm : BitVec 16) :
    decodeWord p (encodeIM op hw imm rd) = .ok (mk rd hw imm) := by
  cases h <;> simp [decodeWord]

/-- The word of a D-format row, its op zero, decodes to the row's instruction under either policy (R100, R102). -/
theorem DataRow.decodeWord_encodeD {op : BitVec 11} {mk : RegNum → RegNum → BitVec 9 → Instr}
    (h : DataRow op mk) (p : Params) (rt rn : RegNum) (dt : BitVec 9) :
    decodeWord p (encodeD op dt rn rt) = .ok (mk rt rn dt) := by
  cases h <;> simp [decodeWord, decodeOp10, decodeOp11, decodeRegister, decodeLoad, decodeStore, decodeD]

/-- BR's word decodes to BR, wherever `BR_TARGET_FIELD` puts its register (R103). -/
theorem decodeWord_encodeBr (p : Params) (rt : RegNum) : decodeWord p (encodeBr p rt) = .ok (.br rt) := by
  cases hb : p.brTargetField <;>
    simp [encodeBr, hb, decodeWord, decodeOp10, decodeOp11, decodeRegister, decodeBr]

/-- B.cond's word decodes to B.cond where COND_TABLE assigns its condition (R100, R161). -/
theorem decodeWord_encode_bCond {p : Params} {c : BitVec 4} (h : condAssigned p.condTable c = true)
    (addr : BitVec 19) : decodeWord p (encode p (.bCond c addr)) = .ok (.bCond c addr) := by
  rw [encode]
  simp only [decodeWord, opcode6_encodeCB, opcode8_encodeCB, decodeBCond, fieldCond_encodeCB, h,
    fieldBit4_encodeCB, fieldCondBrAddr_encodeCB]
  simp

/-! ### The word of an instruction in the layout of its row -/

/-- The instruction of a row that a shamt selects has the row's base word with its fields in place. -/
theorem ShamtRow.encodesAs_layoutR {op : BitVec 11} {shamt : BitVec 6} {mk : RegNum → RegNum → RegNum → Instr}
    {base : IWord} (h : ShamtRow op shamt mk) (hbase : base = encodeR op 0 shamt 0 0) (rd rn rm : RegNum) :
    encodesAs (mk rd rn rm) (layoutR base rm rn rd) := by
  intro p
  rw [hbase, layoutR_encodeR]
  refine ⟨?_, h.decodeWord_encodeR p rd rn rm⟩
  cases h <;> rfl

/-- A compare has its row's base word with its fields in place, Rd zero. -/
theorem FloatCompareRow.encodesAs_layoutR {op : BitVec 11} {mk : RegNum → RegNum → Instr} {base : IWord}
    (h : FloatCompareRow op mk) (hbase : base = encodeR op 0 0x08 0 0) (rn rm : RegNum) :
    encodesAs (mk rn rm) (layoutR base rm rn 0) := by
  intro p
  rw [hbase, layoutR_encodeR]
  refine ⟨?_, h.decodeWord_encodeR p rn rm⟩
  cases h <;> rfl

/-- A shift has its row's base word with its fields in place. -/
theorem ShiftRow.encodesAs_layoutShift {op : BitVec 11} {mk : RegNum → RegNum → BitVec 6 → Instr} {base : IWord}
    (h : ShiftRow op mk) (hbase : base = encodeR op 0 0 0 0) (rd rn : RegNum) (shamt : BitVec 6) :
    encodesAs (mk rd rn shamt) (layoutShift base shamt rn rd) := by
  intro p
  rw [hbase, layoutShift_encodeR]
  refine ⟨?_, h.decodeWord_encodeR p rd rn shamt⟩
  cases h <;> rfl

/-- The instruction of an IM-format row has the row's base word with its fields in place. -/
theorem MoveRow.encodesAs_layoutIM {op : BitVec 9} {mk : RegNum → BitVec 2 → BitVec 16 → Instr} {base : IWord}
    (h : MoveRow op mk) (hbase : base = encodeIM op 0 0 0) (rd : RegNum) (hw : BitVec 2) (imm : BitVec 16) :
    encodesAs (mk rd hw imm) (layoutIM base hw imm rd) := by
  intro p
  rw [hbase, layoutIM_encodeIM]
  refine ⟨?_, h.decodeWord_encodeIM p rd hw imm⟩
  cases h <;> rfl

/-- The instruction of a D-format row has the row's base word with its fields in place. -/
theorem DataRow.encodesAs_layoutD {op : BitVec 11} {mk : RegNum → RegNum → BitVec 9 → Instr} {base : IWord}
    (h : DataRow op mk) (hbase : base = encodeD op 0 0 0) (rt rn : RegNum) (dt : BitVec 9) :
    encodesAs (mk rt rn dt) (layoutD base dt rn rt) := by
  intro p
  rw [hbase, layoutD_encodeD]
  refine ⟨?_, h.decodeWord_encodeD p rt rn dt⟩
  cases h <;> rfl

end Sys2Proof.Machine
end

section
/-! PROOF of O54 (30_encoding.md R98 to R104). -/

namespace Sys2Proof.Machine

/-- Settles O54: each instruction by its row of R98. -/
theorem decodeOfEncodeIsIdentity : Obligations.DecodeOfEncodeIsIdentity := by
  intro p i hc
  cases i with
  | add | adds | and | ands | eor | orr | sub | subs =>
    exact RegisterRow.decodeWord_encodeR (by constructor) p _ _ _
  | addi | addis | andi | andis | eori | orri | subi | subis =>
    exact ImmediateRow.decodeWord_encodeI (by constructor) p _ _ _
  | mul | sdiv | smulh | udiv | umulh | fadds | faddd | fdivs | fdivd | fmuls | fmuld | fsubs | fsubd =>
    exact ShamtRow.decodeWord_encodeR (by constructor) p _ _ _
  | ldur | ldurb | ldurh | ldursw | ldxr | ldurs | ldurd | stur | sturb | sturh | sturw | stxr | sturs | sturd =>
    exact DataRow.decodeWord_encodeD (by constructor) p _ _ _
  | fcmps | fcmpd => exact FloatCompareRow.decodeWord_encodeR (by constructor) p _ _
  | lsl | lsr => exact ShiftRow.decodeWord_encodeR (by constructor) p _ _ _
  | movk | movz => exact MoveRow.decodeWord_encodeIM (by constructor) p _ _ _
  | b | bl => exact JumpRow.decodeWord_encodeB (by constructor) p _
  | cbnz | cbz => exact CompareBranchRow.decodeWord_encodeCB (by constructor) p _ _
  | br rt => exact decodeWord_encodeBr p rt
  | bCond c addr => exact decodeWord_encode_bCond (hc c addr rfl) addr

end Sys2Proof.Machine
end

section
/-! PROOF of O3 (40_core_arith_logic.md R134, R135). -/

namespace Sys2Proof.Machine

/-- A shift left is the number times a power of two (R134). -/
theorem shiftLeft_eq_ofNat (a : Word) (k : Nat) : a <<< k = BitVec.ofNat 64 (a.toNat * 2 ^ k) := by
  apply BitVec.eq_of_toNat_eq
  rw [BitVec.toNat_shiftLeft, BitVec.toNat_ofNat, Nat.shiftLeft_eq]

/-- A shift right is the number divided by a power of two (R135, D31). -/
theorem ushiftRight_eq_ofNat (a : Word) (k : Nat) : a >>> k = BitVec.ofNat 64 (a.toNat / 2 ^ k) := by
  apply BitVec.eq_of_toNat_eq
  have hlt : a.toNat / 2 ^ k < 2 ^ 64 := (Nat.div_le_self ..).trans_lt a.isLt
  rw [BitVec.toNat_ushiftRight, BitVec.toNat_ofNat, Nat.shiftRight_eq_div_pow, Nat.mod_eq_of_lt hlt]

/-- Settles O3: the words by their rows of R98, the results by the numbers of the two shifts. -/
theorem shiftsFillWithZeros : Obligations.ShiftsFillWithZeros := by
  intro s rd rn shamt
  rw [← shiftLeft_eq_ofNat, ← ushiftRight_eq_ofNat]
  exact
    ⟨⟨ShiftRow.lsl.encodesAs_layoutShift rfl rd rn shamt, _, rfl, writesOnlyX_writeX_advance ..⟩,
      ⟨ShiftRow.lsr.encodesAs_layoutShift rfl rd rn shamt, _, rfl, writesOnlyX_writeX_advance ..⟩⟩

end Sys2Proof.Machine
end

section
/-! PROOF of O4 (40_core_arith_logic.md R136, R137). The immediate, moved to its slot, is zero outside it, and so is the
mask of sixteen ones; the slot ends inside the word. -/

namespace Sys2Proof.Machine

/-- The slot of an immediate ends at or below bit 64 (30_encoding.md R94). -/
theorem movShift_le (hw : BitVec 2) : movShift hw ≤ 48 := by
  have := hw.isLt
  unfold movShift
  omega

/-- An immediate moved to its slot: its bits there, zero elsewhere (R137). -/
theorem getLsbD_movImm_shiftLeft (imm : BitVec 16) {k : Nat} (hk : k ≤ 48) (j : Nat) :
    (movImm imm <<< k).getLsbD j = if k ≤ j ∧ j < k + 16 then imm.getLsbD (j - k) else false := by
  rw [BitVec.getLsbD_shiftLeft, movImm, BitVec.getLsbD_setWidth]
  by_cases hlow : j < k
  · simp [hlow]
  · by_cases hhigh : j < k + 16
    · rw [if_pos ⟨by omega, hhigh⟩]
      simp [hlow, show j < 64 by omega, show j - k < 64 by omega]
    · rw [if_neg (by omega), BitVec.getLsbD_of_ge imm (j - k) (by omega)]
      simp

/-- The slot replaced and every other bit kept (R136). -/
theorem getLsbD_replace16 (v : Word) (imm : BitVec 16) {k : Nat} (hk : k ≤ 48) (j : Nat) :
    (replace16 v k imm).getLsbD j = if k ≤ j ∧ j < k + 16 then imm.getLsbD (j - k) else v.getLsbD j := by
  rw [replace16, show (-1 : BitVec 16) = BitVec.allOnes 16 from rfl, BitVec.getLsbD_or, BitVec.getLsbD_and,
    BitVec.getLsbD_not, getLsbD_movImm_shiftLeft _ hk, getLsbD_movImm_shiftLeft _ hk]
  by_cases hslot : k ≤ j ∧ j < k + 16
  · have hones : (BitVec.allOnes 16).getLsbD (j - k) = true := by
      rw [BitVec.getLsbD_allOnes]
      exact decide_eq_true (by omega)
    rw [if_pos hslot, if_pos hslot, if_pos hslot, hones]
    simp
  · rw [if_neg hslot, if_neg hslot, if_neg hslot]
    by_cases hj : j < 64
    · simp [hj]
    · simp [BitVec.getLsbD_of_ge v j (by omega)]

/-- Settles O4: the words by their rows of R98, the results by the bits of a filled slot. -/
theorem movesFillOneSixteenBitSlot : Obligations.MovesFillOneSixteenBitSlot := by
  intro s rd hw imm
  exact
    ⟨⟨MoveRow.movk.encodesAs_layoutIM rfl rd hw imm, _, _, rfl, writesOnlyX_writeX_advance ..,
        getLsbD_replace16 _ imm (movShift_le hw)⟩,
      ⟨MoveRow.movz.encodesAs_layoutIM rfl rd hw imm, _, _, rfl, writesOnlyX_writeX_advance ..,
        getLsbD_movImm_shiftLeft imm (movShift_le hw)⟩⟩

end Sys2Proof.Machine
end

section
/-! PROOF of O5 (43_arith_mul_div.md R211, R213, R215). The high half of a product of two words is a word: of unsigned
words below 2^64, of signed ones between -2^62 and 2^62. -/

namespace Sys2Proof.Machine

/-- The high half of an unsigned product fits a word (R215). -/
theorem unsignedHigh_lt (a b : Word) : a.toNat * b.toNat / 2 ^ 64 < 2 ^ 64 := by
  have hprod : a.toNat * b.toNat < 2 ^ 64 * 2 ^ 64 := Nat.mul_lt_mul'' a.isLt b.isLt
  exact Nat.div_lt_of_lt_mul hprod

/-- A product of two signed words is at most 2^126 in magnitude. -/
theorem abs_toInt_mul_le (a b : Word) : |a.toInt * b.toInt| ≤ 2 ^ 126 := by
  have hword (x : Word) : |x.toInt| ≤ 2 ^ 63 :=
    abs_le.mpr ⟨BitVec.le_toInt x, by have := BitVec.toInt_lt (x := x); omega⟩
  calc |a.toInt * b.toInt| = |a.toInt| * |b.toInt| := abs_mul ..
    _ ≤ 2 ^ 63 * 2 ^ 63 := mul_le_mul (hword a) (hword b) (abs_nonneg _) (by norm_num)
    _ = 2 ^ 126 := by norm_num

/-- The high half of a signed product fits a signed word (R213). -/
theorem toInt_ofInt_signedHigh (a b : Word) :
    (BitVec.ofInt 64 (a.toInt * b.toInt / 2 ^ 64)).toInt = a.toInt * b.toInt / 2 ^ 64 := by
  obtain ⟨hlow, hhigh⟩ := abs_le.mp (abs_toInt_mul_le a b)
  rw [BitVec.toInt_ofInt]
  exact Int.bmod_eq_of_le (by omega) (by omega)

/-- Settles O5: the words by their rows of R98, the results because no high half is lost. -/
theorem multipliesWriteHalvesOfExactProduct : Obligations.MultipliesWriteHalvesOfExactProduct := by
  intro s rd rn rm
  exact
    ⟨⟨ShamtRow.mul.encodesAs_layoutR rfl rd rn rm, _, _, rfl, writesOnlyX_writeX_advance .., BitVec.toNat_ofNat ..⟩,
      ⟨ShamtRow.smulh.encodesAs_layoutR rfl rd rn rm, _, _, rfl, writesOnlyX_writeX_advance ..,
        toInt_ofInt_signedHigh ..⟩,
      ⟨ShamtRow.umulh.encodesAs_layoutR rfl rd rn rm, _, _, rfl, writesOnlyX_writeX_advance ..,
        (BitVec.toNat_ofNat ..).trans (Nat.mod_eq_of_lt (unsignedHigh_lt ..))⟩⟩

end Sys2Proof.Machine
end

section
/-! PROOF of O6 (43_arith_mul_div.md R212, R214, R216). -/

namespace Sys2Proof.Machine

/-- A zero divisor gives the value of DIV_ZERO where the parameter fixes one (R216). -/
theorem zeroQuotient_fixed {s : State} {z : Word} (h : s.params.divZero = .fixed z) (signed : Bool) (a : Word) :
    zeroQuotient s signed a = z := by
  rw [zeroQuotient, h, Setting.value]

/-- The remainder of a division truncated toward zero has the sign of the dividend. -/
theorem tmod_mul_self_nonneg (a b : Int) : 0 ≤ a.tmod b * a := by
  rcases le_or_gt 0 a with ha | ha
  · exact mul_nonneg (Int.tmod_nonneg b ha) ha
  · have hneg : (-a).tmod b = -a.tmod b := Int.neg_tmod a b
    have hrem : a.tmod b ≤ 0 := by
      have := Int.tmod_nonneg b (show 0 ≤ -a by omega)
      omega
    exact mul_nonneg_of_nonpos_of_nonpos hrem ha.le

/-- SDIV's quotient truncates toward zero (R212). -/
theorem signedQuotient_truncates (s : State) {a b : Word} (hb : b ≠ 0) :
    ∃ q r : Int, a.toInt = q * b.toInt + r ∧ r.natAbs < b.toInt.natAbs ∧ 0 ≤ r * a.toInt ∧
      signedQuotient s a b = BitVec.ofInt 64 q := by
  have hb' : b.toInt ≠ 0 := fun h => hb (BitVec.eq_of_toInt_eq h)
  refine ⟨a.toInt.tdiv b.toInt, a.toInt.tmod b.toInt, ?_, ?_, tmod_mul_self_nonneg .., if_neg hb⟩
  · rw [mul_comm, Int.mul_tdiv_add_tmod]
  · rw [Int.natAbs_tmod]
    exact Nat.mod_lt _ (Int.natAbs_pos.mpr hb')

/-- UDIV's quotient is rounded down (R214). -/
theorem toNat_unsignedQuotient (s : State) {a b : Word} (hb : b ≠ 0) :
    (unsignedQuotient s a b).toNat = a.toNat / b.toNat := by
  rw [unsignedQuotient, if_neg hb]
  exact (BitVec.toNat_ofNat ..).trans (Nat.mod_eq_of_lt ((Nat.div_le_self ..).trans_lt a.isLt))

/-- Settles O6: the words by their rows of R98, the results by the divisor being zero or not. -/
theorem dividesTruncateTowardZero : Obligations.DividesTruncateTowardZero := by
  intro s rd rn rm
  exact
    ⟨⟨ShamtRow.sdiv.encodesAs_layoutR rfl rd rn rm, _, _, rfl, writesOnlyX_writeX_advance ..,
        fun hb => signedQuotient_truncates s hb,
        fun hb z hz => (if_pos hb).trans (zeroQuotient_fixed hz ..)⟩,
      ⟨ShamtRow.udiv.encodesAs_layoutR rfl rd rn rm, _, _, rfl, writesOnlyX_writeX_advance ..,
        fun hb => toNat_unsignedQuotient s hb,
        fun hb z hz => (if_pos hb).trans (zeroQuotient_fixed hz ..)⟩⟩

end Sys2Proof.Machine
end

section
/-! SUPPORT. The flags of 40_core_arith_logic.md R121 to R123 as their formulas, the immediate as a number, and what an
instruction leaves unchanged that writes an integer register and the flags. -/

namespace Sys2Proof.Machine

/-- The flags of an addition by the formulas of R121. -/
theorem addFlags_eq (a b : Word) : addFlags a b =
    { n := (a + b).getLsbD 63
      z := decide ((a + b).toNat = 0)
      c := decide (a.toNat + b.toNat ≥ 2 ^ 64)
      v := decide (a.getLsbD 63 = b.getLsbD 63 ∧ (a + b).getLsbD 63 ≠ a.getLsbD 63) } := by
  have hz : (a + b == 0) = decide ((a + b).toNat = 0) := decide_eq_decide.mpr BitVec.toNat_inj.symm
  rw [addFlags, hz]
  simp only [BitVec.msb_eq_getLsbD_last, Bool.decide_and, ne_eq, decide_not]
  rfl

/-- The flags of a subtraction by the formulas of R122. -/
theorem subFlags_eq (a b : Word) : subFlags a b =
    { n := (a - b).getLsbD 63
      z := decide ((a - b).toNat = 0)
      c := decide (a.toNat ≥ b.toNat)
      v := decide (a.getLsbD 63 ≠ b.getLsbD 63 ∧ (a - b).getLsbD 63 ≠ a.getLsbD 63) } := by
  have hz : (a - b == 0) = decide ((a - b).toNat = 0) := decide_eq_decide.mpr BitVec.toNat_inj.symm
  rw [subFlags, hz]
  simp only [BitVec.msb_eq_getLsbD_last, Bool.decide_and, ne_eq, decide_not]
  rfl

/-- ALUImm as the word of its number (30_encoding.md R90). -/
theorem ofNat_toNat_eq_aluImm (imm : BitVec 12) : BitVec.ofNat 64 imm.toNat = aluImm imm := by
  rw [← toNat_aluImm, BitVec.ofNat_toNat, BitVec.setWidth_eq]

/-- A result in an integer register and the flags, and the pc moved on: nothing else changes (R22, R120). -/
theorem writesOnlyXFlags_advance (rd : RegNum) (v : Word) (f : Flags) (b : Bool) (s : State) :
    writesOnlyXFlags rd v f s (((s.writeX rd v).setFlags f).drawIf b).advance :=
  ⟨State.readX_writeX_self s rd v, fun _ hr => State.readX_writeX_ne s v hr, fun _ => rfl, rfl, fun _ => rfl,
    ⟨rfl, rfl⟩, rfl, ⟨rfl, rfl, rfl, rfl⟩, rfl⟩

end Sys2Proof.Machine
end

section
/-! PROOF of O7 (40_core_arith_logic.md R121, R126, R127). -/

namespace Sys2Proof.Machine

/-- Settles O7: the words by their rows of R98, the flags by their formulas. -/
theorem addsSetsFlagsOfAddition : Obligations.AddsSetsFlagsOfAddition := by
  intro s rd rn rm imm flagsOf
  have hflags (a b : Word) : flagsOf a b (a + b) = addFlags a b := (addFlags_eq a b).symm
  rw [ofNat_toNat_eq_aluImm, hflags, hflags]
  exact
    ⟨⟨RegisterRow.adds.encodesAs_layoutR rfl rd rn rm, _, rfl, writesOnlyXFlags_advance _ _ _ false s⟩,
      ⟨ImmediateRow.addis.encodesAs_layoutI rfl rd rn imm, _, rfl, writesOnlyXFlags_advance _ _ _ false s⟩⟩

end Sys2Proof.Machine
end

section
/-! PROOF of O8 (40_core_arith_logic.md R122, R142, R143). -/

namespace Sys2Proof.Machine

/-- Settles O8: the words by their rows of R98, the flags by their formulas. -/
theorem subsSetsFlagsOfSubtraction : Obligations.SubsSetsFlagsOfSubtraction := by
  intro s rd rn rm imm flagsOf
  have hflags (a b : Word) : flagsOf a b (a - b) = subFlags a b := (subFlags_eq a b).symm
  rw [ofNat_toNat_eq_aluImm, hflags, hflags]
  exact
    ⟨⟨RegisterRow.subs.encodesAs_layoutR rfl rd rn rm, _, rfl, writesOnlyXFlags_advance _ _ _ false s⟩,
      ⟨ImmediateRow.subis.encodesAs_layoutI rfl rd rn imm, _, rfl, writesOnlyXFlags_advance _ _ _ false s⟩⟩

end Sys2Proof.Machine
end

section
/-! PROOF of O9 (40_core_arith_logic.md R123, R130, R131). -/

namespace Sys2Proof.Machine

/-- The flags that ANDS and ANDIS write: N and Z of the result, C and V as LOGICAL_FLAGS_CV fixes them (R123). -/
theorem logicalFlags_spec (s : State) (r : Word) :
    let f := logicalFlags r (s.params.logicalFlagsCV.value (Config.freeLogicalCV s.draws))
    f.n = r.getLsbD 63 ∧ f.z = decide (r.toNat = 0) ∧
      (s.params.logicalFlagsCV = Params.default.logicalFlagsCV → f.c = false ∧ f.v = false) ∧
      ∀ cv, s.params.logicalFlagsCV = .fixed cv → f.c = cv.1 ∧ f.v = cv.2 := by
  refine ⟨BitVec.msb_eq_getLsbD_last r, decide_eq_decide.mpr BitVec.toNat_inj.symm, fun h => ?_, fun cv h => ?_⟩
  · rw [h]
    exact ⟨rfl, rfl⟩
  · rw [h]
    exact ⟨rfl, rfl⟩

/-- Settles O9: the words by their rows of R98, the flags by the parameter. -/
theorem andsSetsFlagsOfLogicalResult : Obligations.AndsSetsFlagsOfLogicalResult := by
  intro s rd rn rm imm
  rw [ofNat_toNat_eq_aluImm]
  exact
    ⟨⟨RegisterRow.ands.encodesAs_layoutR rfl rd rn rm, _, _, rfl, writesOnlyXFlags_advance ..,
        logicalFlags_spec s _⟩,
      ⟨ImmediateRow.andis.encodesAs_layoutI rfl rd rn imm, _, _, rfl, writesOnlyXFlags_advance ..,
        logicalFlags_spec s _⟩⟩

end Sys2Proof.Machine
end

section
/-! PROOF of O10 (40_core_arith_logic.md R121, R122). The sign formulas of V are those that decide signed overflow of
words. -/

namespace Sys2Proof.Machine

/-- V of an addition is signed overflow (R121). -/
theorem addFlags_v_iff (a b : Word) :
    (addFlags a b).v = true ↔ ¬ (-2 ^ 63 ≤ a.toInt + b.toInt ∧ a.toInt + b.toInt < 2 ^ 63) := by
  have hv : (addFlags a b).v = a.saddOverflow b := (BitVec.saddOverflow_eq a b).symm
  rw [hv, BitVec.saddOverflow, Bool.or_eq_true, decide_eq_true_iff, decide_eq_true_iff]
  omega

/-- V of a subtraction is signed overflow (R122). -/
theorem subFlags_v_iff (a b : Word) :
    (subFlags a b).v = true ↔ ¬ (-2 ^ 63 ≤ a.toInt - b.toInt ∧ a.toInt - b.toInt < 2 ^ 63) := by
  have hv : (subFlags a b).v = a.ssubOverflow b := by
    rw [BitVec.ssubOverflow_eq, subFlags]
    cases a.msb <;> cases b.msb <;> cases (a - b).msb <;> rfl
  rw [hv, BitVec.ssubOverflow, Bool.or_eq_true, decide_eq_true_iff, decide_eq_true_iff]
  omega

/-- C of an addition is a carry out of bit 63 (R121). -/
theorem addFlags_c_iff (a b : Word) : (addFlags a b).c = true ↔ (a + b).toNat ≠ a.toNat + b.toNat := by
  rw [addFlags, decide_eq_true_iff, BitVec.toNat_add]
  omega

/-- C of a subtraction is no borrow: the minuend is not below the subtrahend (R122). -/
theorem subFlags_c_iff_le (a b : Word) : (subFlags a b).c = true ↔ b.toNat ≤ a.toNat :=
  decide_eq_true_iff

/-- Settles O10: V by the overflow of words, C by the wrap of the unsigned result. -/
theorem overflowFlagMeansSignedRangeLeft : Obligations.OverflowFlagMeansSignedRangeLeft := by
  intro a b
  refine ⟨addFlags_v_iff a b, addFlags_c_iff a b, subFlags_v_iff a b, ?_⟩
  rw [subFlags_c_iff_le, BitVec.toNat_sub]
  omega

end Sys2Proof.Machine
end

section
/-! PROOF of O12 (41_core_branch.md R164, 30_encoding.md R103). -/

namespace Sys2Proof.Machine

/-- BR's word, its register at bits 4:0 or at bits 9:5. -/
theorem encodeBr_eq (p : Params) (rt : RegNum) : encodeBr p rt =
    match p.brTargetField with
    | .bits4to0 => 0xD6000000 ||| rt.setWidth 32
    | .bits9to5 => 0xD6000000 ||| (rt.setWidth 32 <<< 5) := by
  have hbase : encodeR 0x6B0 0 0 0 0 = 0xD6000000 := rfl
  cases hb : p.brTargetField with
  | bits4to0 =>
    rw [encodeBr, hb]
    simp only [← layoutR_encodeR 0x6B0 0 0 0 rt, hbase]
    simp [layoutR]
  | bits9to5 =>
    rw [encodeBr, hb]
    simp only [← layoutR_encodeR 0x6B0 0 0 rt 0, hbase]
    simp [layoutR]

/-- Settles O12: the word by `BR_TARGET_FIELD`, and a new pc changes nothing else. -/
theorem branchRegisterSetsPc : Obligations.BranchRegisterSetsPc := by
  intro s rt
  exact ⟨fun p => ⟨encodeBr_eq p rt, decodeWord_encodeBr p rt⟩, _, rfl, writesOnlyPc_setPc s _⟩

end Sys2Proof.Machine
end

section
/-! PROOF of O13 (41_core_branch.md R165). -/

namespace Sys2Proof.Machine

/-- B.cond's word: its base word with the address and the condition in place, bit 4 zero (R161). -/
theorem encode_bCond_eq (p : Params) (c : BitVec 4) (addr : BitVec 19) :
    encode p (.bCond c addr) = layoutCB 0x54000000 addr (c.setWidth 5) := by
  have hlow : (0 : BitVec 1) ++ c = c.setWidth 5 := BitVec.setWidth_eq_append (by decide) |>.symm
  rw [encode, hlow, ← layoutCB_encodeCB]
  rfl

/-- B.cond, where COND_TABLE assigns its condition, goes to its target if the meaning holds of the flags and else to the
next instruction (R165). -/
theorem exec_bCond_of_entry {s : State} {c : BitVec 4} {m : CondMeaning}
    (hm : condEntry s.params.condTable c = some m) (addr : BitVec 19) :
    exec (.bCond c addr) s =
      .next (if meaningHolds m s.flags = true then s.setPc (s.pc + condBranchAddr addr) else s.advance) := by
  rw [exec, execBCond, branchHolds_of_entry hm]

/-- Settles O13: the word by its row of R98, the outcome by the meaning of the condition. -/
theorem condBranchFollowsFlags : Obligations.CondBranchFollowsFlags := by
  intro s c addr
  refine ⟨fun p => ⟨encode_bCond_eq p c addr, fun h => decodeWord_encode_bCond h addr⟩, fun m hm => ?_⟩
  intro holds
  have hholds : holds ↔ meaningHolds m s.flags = true := by
    cases m <;> exact Iff.rfl
  refine ⟨_, exec_bCond_of_entry hm addr, fun h => ?_, fun h => ?_⟩
  · rw [if_pos (hholds.mp h), ← condBranchAddr_eq_ofInt]
    exact writesOnlyPc_setPc s _
  · rw [if_neg (mt hholds.mpr h)]
    exact writesOnlyPc_advance s

end Sys2Proof.Machine
end

section
/-! PROOF of O14 (41_core_branch.md R161, 30_encoding.md R100). -/

namespace Sys2Proof.Machine

/-- A word with B.cond's opcode is decoded as B.cond (R100). -/
theorem decodeWord_of_opcode8_bCond {w : IWord} (h : opcode8 w = 0b01010100) (p : Params) :
    decodeWord p w = decodeBCond p w := by
  have h6 : opcode6 w = 0b010101 := by
    rw [← encodeCB_of_fields h]
    exact opcode6_encodeCB ..
  simp [decodeWord, h6, h]

/-- Bit 4 as a field of one bit. -/
theorem fieldBit4_eq_zero_iff (w : IWord) : fieldBit4 w = 0#1 ↔ w.getLsbD 4 = false := by
  constructor
  · intro h
    simpa [fieldBit4, BitVec.getLsbD_extractLsb'] using congrArg (BitVec.getLsbD · 0) h
  · intro h
    apply BitVec.eq_of_getLsbD_eq
    intro i hi
    obtain rfl : i = 0 := by omega
    simpa [fieldBit4, BitVec.getLsbD_extractLsb'] using h

/-- Under the strict policy B.cond decodes exactly if bit 4 is 0 and the condition is assigned (R101, R161). -/
theorem decodeBCond_ok_iff {p : Params} (hp : p.unusedFieldPolicy = .strict) (w : IWord) :
    (∃ i, decodeBCond p w = .ok i) ↔ fieldBit4 w = 0#1 ∧ condAssigned p.condTable (fieldCond w) = true := by
  unfold decodeBCond
  split
  · next hassigned =>
    by_cases hbit : fieldBit4 w = 0#1
    · simp [hbit, hassigned]
    · simp [checkUnused, hp, hbit]
  · next hunassigned => simp [hunassigned]

/-- Settles O14: the meanings as formulas of four Booleans, the default table by evaluation, and the decoder of
B.cond. -/
theorem conditionTableAndUnassigned : Obligations.ConditionTableAndUnassigned := by
  refine ⟨fun f => ?_, rfl, fun p w hp hop => ?_⟩
  · obtain ⟨n, z, c, v⟩ := f
    simp only [condHolds]
    revert n z c v
    decide
  · have hassigned (c : BitVec 4) : condAssigned p.condTable c = true ↔ condEntry p.condTable c ≠ none :=
      Option.isSome_iff_ne_none
    rw [decodeWord_of_opcode8_bCond hop, decodeBCond_ok_iff hp, fieldBit4_eq_zero_iff, hassigned]
    rfl

end Sys2Proof.Machine
end

section
/-! PROOF of O16 (41_core_branch.md R161, 45_pseudoinstructions.md R270). The flags of a subtraction, read through a
condition, are a comparison: Z is equality, C the unsigned order, and N against V the signed order, for V says whether
the sign that N shows is the true one. -/

namespace Sys2Proof.Machine

/-- The comparison that the table of R161 names for each condition after a subtraction. -/
def comparison (c : Cond) (a b : Word) : Prop :=
  match c with
  | .eq => a = b
  | .ne => a ≠ b
  | .hs => a.toNat ≥ b.toNat
  | .lo => a.toNat < b.toNat
  | .mi => (a - b).toInt < 0
  | .pl => 0 ≤ (a - b).toInt
  | .vs => (a - b).toInt ≠ a.toInt - b.toInt
  | .vc => (a - b).toInt = a.toInt - b.toInt
  | .hi => a.toNat > b.toNat
  | .ls => a.toNat ≤ b.toNat
  | .ge => a.toInt ≥ b.toInt
  | .lt => a.toInt < b.toInt
  | .gt => a.toInt > b.toInt
  | .le => a.toInt ≤ b.toInt

/-- The range of a signed word. -/
theorem toInt_range (a : Word) : -2 ^ 63 ≤ a.toInt ∧ a.toInt < 2 ^ 63 :=
  ⟨BitVec.le_toInt a, BitVec.toInt_lt⟩

/-- The signed difference, back inside the range of a word. -/
theorem toInt_sub_eq_ite (a b : Word) : (a - b).toInt =
    if a.toInt - b.toInt < -2 ^ 63 then a.toInt - b.toInt + 2 ^ 64
    else if 2 ^ 63 ≤ a.toInt - b.toInt then a.toInt - b.toInt - 2 ^ 64 else a.toInt - b.toInt := by
  have ha := toInt_range a
  have hb := toInt_range b
  rw [BitVec.toInt_sub, Int.bmod_def]
  split_ifs <;> omega

/-- Z of a subtraction is equality (R122). -/
theorem subFlags_z_iff (a b : Word) : (subFlags a b).z = true ↔ a = b := by
  rw [subFlags, beq_iff_eq]
  exact sub_eq_zero

/-- N of a subtraction is the sign of the result (R122). -/
theorem subFlags_n_iff (a b : Word) : (subFlags a b).n = true ↔ (a - b).toInt < 0 := by
  rw [subFlags, BitVec.msb_eq_toInt, decide_eq_true_iff]

/-- V of a subtraction says that the result is not the exact difference (R122). -/
theorem subFlags_v_iff_ne (a b : Word) : (subFlags a b).v = true ↔ (a - b).toInt ≠ a.toInt - b.toInt := by
  rw [subFlags_v_iff, toInt_sub_eq_ite]
  split_ifs <;> omega

/-- N and V differ exactly if the minuend is the smaller signed number. -/
theorem subFlags_n_ne_v_iff (a b : Word) : (subFlags a b).n ≠ (subFlags a b).v ↔ a.toInt < b.toInt := by
  have ha := toInt_range a
  have hb := toInt_range b
  rw [ne_eq, Bool.eq_iff_iff, subFlags_n_iff, subFlags_v_iff, toInt_sub_eq_ite]
  split_ifs <;> omega

/-- After a subtraction each condition decides its comparison (R161). -/
theorem condHolds_subFlags_iff (c : Cond) (a b : Word) : condHolds c (subFlags a b) = true ↔ comparison c a b := by
  have hnot (x : Bool) : (!x) = true ↔ ¬ x = true := by cases x <;> decide
  have hz := subFlags_z_iff a b
  have hc := subFlags_c_iff_le a b
  have hn := subFlags_n_iff a b
  have hv := subFlags_v_iff_ne a b
  have hlt := subFlags_n_ne_v_iff a b
  have hhi : condHolds .hi (subFlags a b) = true ↔ b.toNat < a.toNat := by
    rw [condHolds, Bool.and_eq_true, hnot, hc, hz, ← BitVec.toNat_inj, eq_comm, lt_iff_le_and_ne]
  have hge : ((subFlags a b).n == (subFlags a b).v) = true ↔ b.toInt ≤ a.toInt :=
    beq_iff_eq.trans (not_ne_iff.symm.trans (hlt.not.trans not_lt))
  have hgt : condHolds .gt (subFlags a b) = true ↔ b.toInt < a.toInt := by
    rw [condHolds, Bool.and_eq_true, hnot, hge, hz, ← BitVec.toInt_inj, eq_comm, and_comm, lt_iff_le_and_ne]
  cases c with
  | eq => exact hz
  | ne => exact (hnot _).trans hz.not
  | hs => exact hc
  | lo => exact (hnot _).trans (hc.not.trans not_le)
  | mi => exact hn
  | pl => exact (hnot _).trans (hn.not.trans not_lt)
  | vs => exact hv
  | vc => exact (hnot _).trans (hv.not.trans not_ne_iff)
  | hi => exact hhi
  | ls => exact (hnot _).trans (hhi.not.trans not_lt)
  | ge => exact hge
  | lt => exact bne_iff_ne.trans hlt
  | gt => exact hgt
  | le => exact (hnot _).trans (hgt.not.trans not_lt)

/-- CMP writes the flags of the subtraction and moves the pc on; no register is written (R270). -/
theorem exec_pseudoCmp (s : State) (rn rm : RegNum) :
    exec (pseudoCmp rn rm) s = .next (s.setFlags (subFlags (s.readX rn) (s.readX rm))).advance := by
  rw [pseudoCmp, exec, execSubs, RegNum.xzr, State.writeX_xzr]

/-- Settles O16: B.cond, run at the state that CMP leaves, reads the flags of the subtraction. -/
theorem compareThenBranchDecidesComparison : Obligations.CompareThenBranchDecidesComparison := by
  intro s rn rm c addr htable a b holds
  have hholds : holds ↔ condHolds c (subFlags a b) = true := (condHolds_subFlags_iff c a b).symm
  have hentry : condEntry s.params.condTable (encodeCond c) = some (.suffix c) := htable ▸ condEntry_encodeCond c
  refine ⟨_, _, exec_pseudoCmp s rn rm, exec_bCond_of_entry (s := (s.setFlags (subFlags a b)).advance) hentry addr, ?_,
    fun h => ?_, fun h => ?_⟩
  · intro r
    split <;> rfl
  · rw [← condBranchAddr_eq_ofInt]
    exact congrArg State.pc (if_pos (hholds.mp h))
  · refine (congrArg State.pc (if_neg (mt hholds.mpr h))).trans ?_
    exact add_assoc s.pc 4 4

end Sys2Proof.Machine
end

section
/-! SUPPORT. The loads and stores against the statements about them: an access completes with the number that its bytes
hold or stores the bytes of its register, is refused, or aborts (42_core_load_store.md R180, 20_memory.md R58). -/

namespace Sys2Proof.Machine

/-! ### Loads -/

/-- A load that is a `loadAt` of `f` of the bytes into `rt`, where `f` and `value` agree on those bytes. -/
theorem loadsX_of_loadAt {i : Instr} {rt : RegNum} {ea : Word} {n : Nat} {value f : Nat → Word} {s : State}
    (hexec : exec i s = loadAt s false ea n (fun v t => t.writeX rt (f v)))
    (hf : f (bytesValue s ea n) = value (bytesValue s ea n)) : loadsX i rt ea n value s := by
  refine ⟨fun h => ⟨_, hexec.trans (loadAt_ok h), ?_⟩,
    fun h => ⟨_, hexec.trans (loadAt_abort h), raise_tookException ..⟩⟩
  rw [memRead_eq_bytesValue, hf]
  exact writesOnlyX_writeX_advance ..

/-- The number that `n` bytes hold is below `256 ^ n`. -/
theorem bytesValue_lt (s : State) (ea : Word) (n : Nat) : bytesValue s ea n < 256 ^ n := by
  rw [← memRead_eq_bytesValue, State.memRead_eq]
  exact Memory.readBE_lt ..

/-- A word of 32 bits sign-extended, as a signed number (42_core_load_store.md R184). -/
theorem signExtend_ofNat_eq_ofInt {v : Nat} (hv : v < 2 ^ 32) :
    (BitVec.ofNat 32 v).signExtend 64 = BitVec.ofInt 64 (if v < 2 ^ 31 then (v : Int) else v - 2 ^ 32) := by
  have htoInt : (BitVec.ofNat 32 v).toInt = if v < 2 ^ 31 then (v : Int) else v - 2 ^ 32 := by
    rw [BitVec.toInt_eq_toNat_cond, BitVec.toNat_ofNat, Nat.mod_eq_of_lt hv]
    split_ifs <;> omega
  rw [← htoInt]
  rfl

/-! ### Stores -/

/-- A byte of a register, by its place in the number or by its place among the bits (20_memory.md R53). -/
theorem ofNat_div_eq_extractLsb' (v : Word) (k : Nat) :
    BitVec.ofNat 8 (v.toNat / 256 ^ k) = v.extractLsb' (8 * k) 8 := by
  rw [show 256 = 2 ^ 8 from rfl, ← Nat.pow_mul]
  apply BitVec.eq_of_toNat_eq
  rw [BitVec.extractLsb'_toNat, Nat.shiftRight_eq_div_pow, BitVec.toNat_ofNat]

/-- The bytes of a store: byte `k` is the `k`-th most significant of the low `n` bytes of the register (R53). -/
theorem readByte_memWrite_inside {s : State} (hwf : Memory.wf s.mem = true) (ea : Word) {n k : Nat} (hk : k < n)
    (v : Word) : (s.memWrite ea n v.toNat).readByte (ea.toNat + k) = v.extractLsb' (8 * (n - 1 - k)) 8 :=
  ((memoryIsBigEndian s ea n v.toNat hwf).2.1 k hk).trans (ofNat_div_eq_extractLsb' v _)

/-- A store leaves every byte outside it. -/
theorem keepsMemOutside_memWrite {s : State} (hwf : Memory.wf s.mem = true) (ea : Word) (n v : Nat) :
    keepsMemOutside ea.toNat n s (s.memWrite ea n v) :=
  (memoryIsBigEndian s ea n v hwf).2.2

/-- A store writes its bytes, moves the pc on and changes nothing else. -/
theorem writesOnlyMem_memWrite_advance {s : State} (hwf : Memory.wf s.mem = true) (ea : Word) (n : Nat) (v : Word) :
    writesOnlyMem ea n v s (s.memWrite ea n v.toNat).advance :=
  ⟨fun _ hk => readByte_memWrite_inside hwf ea hk v, keepsMemOutside_memWrite hwf ea n _, fun _ => rfl, fun _ => rfl,
    rfl, ⟨rfl, rfl⟩, rfl, ⟨rfl, rfl, rfl, rfl⟩, rfl⟩

/-- A store that is a `storeAt` of the number of `v`. -/
theorem storesAt_of_storeAt {i : Instr} {ea : Word} {n : Nat} {v : Word} {s : State} (hwf : Memory.wf s.mem = true)
    (hexec : exec i s = storeAt s ea n v.toNat) : storesAt i ea n v s :=
  ⟨fun h ht => ⟨_, hexec.trans (storeAt_ok h ht), writesOnlyMem_memWrite_advance hwf ea n v⟩,
    fun h ht => hexec.trans (storeAt_text h ht),
    fun h => ⟨_, hexec.trans (storeAt_abort h), raise_tookException ..⟩⟩

end Sys2Proof.Machine
end

section
/-! PROOF of O17 (42_core_load_store.md R181 to R184). -/

namespace Sys2Proof.Machine

/-- Settles O17: the words by their rows of R98, the outcomes by the shape of a load. -/
theorem loadsExtendBigEndianBytes : Obligations.LoadsExtendBigEndianBytes := by
  intro s rt rn dt
  exact
    ⟨⟨DataRow.ldur.encodesAs_layoutD rfl rt rn dt, loadsX_of_loadAt rfl rfl⟩,
      ⟨DataRow.ldurb.encodesAs_layoutD rfl rt rn dt, loadsX_of_loadAt rfl rfl⟩,
      ⟨DataRow.ldurh.encodesAs_layoutD rfl rt rn dt, loadsX_of_loadAt rfl rfl⟩,
      ⟨DataRow.ldursw.encodesAs_layoutD rfl rt rn dt,
        loadsX_of_loadAt (f := fun v => (BitVec.ofNat 32 v).signExtend 64) rfl
          (signExtend_ofNat_eq_ofInt (bytesValue_lt s _ 4))⟩⟩

end Sys2Proof.Machine
end

section
/-! PROOF of O18 (42_core_load_store.md R185). -/

namespace Sys2Proof.Machine

/-- The exclusive pair is aligned at a multiple of 8 alone, under either MISALIGNED_DATA (20_memory.md R60). -/
theorem accessAligned_exclusive_iff (s : State) (ea : Word) (n : Nat) :
    accessAligned s true ea n ↔ ea.toNat % n = 0 := by
  simp [accessAligned]

/-- Settles O18: the word by its row of R98, the outcomes by the shape of a load. -/
theorem ldxrLoadsAndArmsMonitor : Obligations.LdxrLoadsAndArmsMonitor := by
  intro s rt rn dt ea
  have hexec : exec (.ldxr rt rn dt) s =
      loadAt s true ea 8 (fun v t => (t.writeX rt (BitVec.ofNat 64 v)).setMonitor (some ea)) := rfl
  rw [← accessAligned_exclusive_iff s ea 8]
  refine ⟨DataRow.ldxr.encodesAs_layoutD rfl rt rn dt, fun h => ⟨_, hexec.trans (loadAt_ok h), ?_⟩,
    fun h => ⟨_, hexec.trans (loadAt_abort h), raise_tookException ..⟩⟩
  rw [memRead_eq_bytesValue]
  exact ⟨State.readX_writeX_self s rt _, rfl, fun _ hr => State.readX_writeX_ne s _ hr, fun _ => rfl, rfl, fun _ => rfl,
    ⟨rfl, rfl⟩, ⟨rfl, rfl, rfl, rfl⟩, rfl⟩

end Sys2Proof.Machine
end

section
/-! PROOF of O19 (42_core_load_store.md R186 to R189). -/

namespace Sys2Proof.Machine

/-- Settles O19: the words by their rows of R98, the outcomes by the shape of a store. -/
theorem storesWriteOnlyTheirBytes : Obligations.StoresWriteOnlyTheirBytes := by
  intro s rt rn dt hwf
  exact
    ⟨⟨DataRow.stur.encodesAs_layoutD rfl rt rn dt, storesAt_of_storeAt hwf rfl⟩,
      ⟨DataRow.sturb.encodesAs_layoutD rfl rt rn dt, storesAt_of_storeAt hwf rfl⟩,
      ⟨DataRow.sturh.encodesAs_layoutD rfl rt rn dt, storesAt_of_storeAt hwf rfl⟩,
      ⟨DataRow.sturw.encodesAs_layoutD rfl rt rn dt, storesAt_of_storeAt hwf rfl⟩⟩

end Sys2Proof.Machine
end

section
/-! PROOF of O20 (42_core_load_store.md R190, R191). First what STXR answers in each of its five cases; then the
offset, the admission and the reservation of the statement are those of the model. -/

namespace Sys2Proof.Machine

/-! ### The five answers of STXR -/

section Answers

variable {s : State} {rt rn : RegNum} {dt : BitVec 9}

theorem execStxr_notAdmitted (h : stxrAdmitted s.params dt = false) :
    execStxr rt rn dt s = .refused (.stxrNotAdmitted dt) := by
  rw [execStxr, if_pos h]

theorem execStxr_abort (h : stxrAdmitted s.params dt = true) (ha : s.aborts true (stxrAddr s rn dt) 8 = true) :
    execStxr rt rn dt s = .next (s.raise .dataAbort (stxrAddr s rn dt)) := by
  rw [execStxr, if_neg (by simp [h]), if_pos ha]

theorem execStxr_fails (h : stxrAdmitted s.params dt = true) (ha : s.aborts true (stxrAddr s rn dt) 8 = false)
    (hs : stxrSucceeds s (stxrAddr s rn dt) = false) : execStxr rt rn dt s = .next (stxrEnd s dt 1) := by
  rw [execStxr, if_neg (by simp [h]), if_neg (by simp [ha]), if_pos hs]

theorem execStxr_intoText (h : stxrAdmitted s.params dt = true) (ha : s.aborts true (stxrAddr s rn dt) 8 = false)
    (hs : stxrSucceeds s (stxrAddr s rn dt) = true) (ht : accessTouchesText s (stxrAddr s rn dt) 8) :
    execStxr rt rn dt s = .refused (.storeIntoText (stxrAddr s rn dt)) := by
  rw [execStxr, if_neg (by simp [h]), if_neg (by simp [ha]), if_neg (by simp [hs]), if_pos ((touchesText_iff ..).mpr ht)]

theorem execStxr_stores (h : stxrAdmitted s.params dt = true) (ha : s.aborts true (stxrAddr s rn dt) 8 = false)
    (hs : stxrSucceeds s (stxrAddr s rn dt) = true) (ht : ¬ accessTouchesText s (stxrAddr s rn dt) 8) :
    execStxr rt rn dt s = .next (stxrEnd (s.memWrite (stxrAddr s rn dt) 8 (s.readX rt).toNat) dt 0) := by
  rw [execStxr, if_neg (by simp [h]), if_neg (by simp [ha]), if_neg (by simp [hs]),
    if_neg (mt (touchesText_iff ..).mp ht)]

end Answers

/-! ### The words of the statement -/

/-- The STXR words that `STXR_OFFSET` admits, by the number of bits 20:12 (R190). -/
theorem stxrAdmitted_iff (p : Params) (dt : BitVec 9) : stxrAdmitted p dt = true ↔
    match p.stxrOffset with
    | .agreeOnly => dt = 0
    | .dtaddr => True
    | .zero => dt.toNat % 16 = 0 := by
  cases hp : p.stxrOffset with
  | agreeOnly => simp [stxrAdmitted, hp]
  | dtaddr => simp [stxrAdmitted, hp]
  | zero => simp [stxrAdmitted, hp, ← BitVec.toNat_inj, BitVec.extractLsb'_toNat]

/-- The address of STXR, the base plus the signed offset of its setting (R190). -/
theorem stxrAddr_eq (s : State) (rn : RegNum) (dt : BitVec 9) : stxrAddr s rn dt =
    s.readX rn + BitVec.ofInt 64
      (match s.params.stxrOffset with
        | .agreeOnly => 0
        | .dtaddr => dt.toInt
        | .zero => 0) := by
  rw [stxrAddr, stxrOffset]
  cases s.params.stxrOffset <;> rfl

/-- The status register is bits 20:16 (R190). -/
theorem stxrStatusReg_eq (dt : BitVec 9) : stxrStatusReg dt = BitVec.ofNat 5 (dt.toNat / 16) := by
  apply BitVec.eq_of_toNat_eq
  rw [stxrStatusReg, BitVec.extractLsb'_toNat, Nat.shiftRight_eq_div_pow, BitVec.toNat_ofNat]

/-- The monitor holds a reservation for the address (R190, R191). -/
theorem reserved_iff (s : State) (ea : Word) : s.reserved ea = true ↔ reservationFor s ea := by
  have hblock (a : Word) (k : Nat) : a >>> k = ea >>> k ↔ a.toNat / 2 ^ k = ea.toNat / 2 ^ k := by
    rw [← BitVec.toNat_inj, BitVec.toNat_ushiftRight, BitVec.toNat_ushiftRight, Nat.shiftRight_eq_div_pow,
      Nat.shiftRight_eq_div_pow]
  cases hm : s.monitor <;> cases hg : s.params.monitorGranule <;> simp [State.reserved, reservationFor, hm, hg, hblock]

/-- The state after an STXR has ended with a status, on a memory `m` (R190, R191). -/
theorem stxrEnd_spec (s : State) (m : Memory) (dt : BitVec 9) (status : Word) :
    let t := stxrEnd (s.setMem m) dt status
    t.readX (stxrStatusReg dt) = (if stxrStatusReg dt = 31 then 0 else status) ∧ keepsXBut (stxrStatusReg dt) s t ∧
      keepsD s t ∧ keepsFlags s t ∧ keepsException s t ∧ t.monitor = none ∧ keepsLaunch s t ∧ t.pc = s.pc + 4 :=
  ⟨State.readX_writeX_self _ _ status, fun _ hr => State.readX_writeX_ne _ status hr, fun _ => rfl, rfl, ⟨rfl, rfl⟩, rfl,
    ⟨rfl, rfl, rfl, rfl⟩, rfl⟩

/-- Settles O20: each case of the statement is one of STXR's five answers. -/
theorem stxrStoresOnlyOnSuccess : Obligations.StxrStoresOnlyOnSuccess := by
  intro s rt rn dt hwf offset allowed ea statusReg ended
  have hea : stxrAddr s rn dt = ea := stxrAddr_eq s rn dt
  have hallowed : allowed ↔ stxrAdmitted s.params dt = true := (stxrAdmitted_iff s.params dt).symm
  have hended (m : Memory) (status : Word) : ended status (stxrEnd (s.setMem m) dt status) := by
    have := stxrEnd_spec s m dt status
    rwa [stxrStatusReg_eq] at this
  have hmay : ea.toNat % 8 = 0 ∧ accessAdmitted s ea 8 ↔ s.aborts true ea 8 = false := by
    rw [not_aborts_iff, accessAligned_exclusive_iff]
  rw [hmay, Bool.not_eq_false, hallowed, ← reserved_iff, ← hea]
  refine ⟨DataRow.stxr.encodesAs_layoutD rfl rt rn dt, fun h => execStxr_notAdmitted (by simpa using h),
    fun h ha => ⟨_, execStxr_abort h ha, raise_tookException ..⟩,
    fun h ha hr => ⟨_, execStxr_fails h ha (by simp [stxrSucceeds, hr]), hended s.mem 1, fun _ => rfl⟩,
    fun h ha hr ht => ?_, fun h ha hr ht => ?_⟩
  · cases hd : Config.drawSuccess s.draws with
    | true => exact ⟨_, execStxr_stores h ha (by simp [stxrSucceeds, hr, hd]) ht, hended _ 0,
        fun k hk => readByte_memWrite_inside hwf _ hk _, keepsMemOutside_memWrite hwf _ 8 _⟩
    | false => exact ⟨_, execStxr_fails h ha (by simp [stxrSucceeds, hd]), hended s.mem 1, fun _ => rfl⟩
  · cases hd : Config.drawSuccess s.draws with
    | true => exact execStxr_intoText h ha (by simp [stxrSucceeds, hr, hd]) ht
    | false => exact ⟨_, execStxr_fails h ha (by simp [stxrSucceeds, hd]), hended s.mem 1, fun _ => rfl⟩

end Sys2Proof.Machine
end

section
/-! SUPPORT. A floating-point result in one register leaves everything else (44_arith_float.md R237, 10_state.md R37). -/

namespace Sys2Proof.Machine

/-- A write of S[i] puts what `S_WRITE_UPPER` fixes in the upper half (R37). -/
theorem upperHalf_writeS {s : State} {u : BitVec 32} (hu : s.params.sWriteUpper = .fixed u) (rd : RegNum)
    (v : BitVec 32) : ((s.writeS rd v).readD rd).extractLsb' 32 32 = u := by
  rw [State.readD_writeS, if_pos rfl, hu, Setting.value]
  exact BitVec.extractLsb'_append_eq_left

/-- A result written to a single-precision register, and the pc moved on: nothing else changes. -/
theorem writesOnlyS_writeS_advance (rd : RegNum) (v : BitVec 32) (s : State) :
    writesOnlyS rd v s (s.writeS rd v).advance := by
  refine ⟨?_, fun u hu => upperHalf_writeS hu rd v, fun r hr => ?_, fun _ => rfl, rfl, fun _ => rfl, ⟨rfl, rfl⟩, rfl,
    ⟨rfl, rfl, rfl, rfl⟩, rfl⟩
  · rw [State.readS_advance, State.readS_writeS, if_pos rfl]
  · rw [State.readD_advance, State.readD_writeS, if_neg hr]

/-- A result written to a double-precision register, and the pc moved on: nothing else changes. -/
theorem writesOnlyD_writeD_advance (rd : RegNum) (v : Word) (s : State) :
    writesOnlyD rd v s (s.writeD rd v).advance := by
  refine ⟨?_, fun r hr => ?_, fun _ => rfl, rfl, fun _ => rfl, ⟨rfl, rfl⟩, rfl, ⟨rfl, rfl, rfl, rfl⟩, rfl⟩
  · rw [State.readD_advance, State.readD_writeD, if_pos rfl]
  · rw [State.readD_advance, State.readD_writeD, if_neg hr]

end Sys2Proof.Machine
end

section
/-! PROOF of O21 (44_arith_float.md R250, R251). -/

namespace Sys2Proof.Machine

/-- Settles O21: the words by their rows of R98, the outcomes by the shape of a load. -/
theorem floatLoadsMoveBitsUnchanged : Obligations.FloatLoadsMoveBitsUnchanged := by
  intro s rt rn dt ea
  have hsingle : exec (.ldurs rt rn dt) s = loadAt s false ea 4 (fun v t => t.writeS rt (BitVec.ofNat 32 v)) := rfl
  have hdouble : exec (.ldurd rt rn dt) s = loadAt s false ea 8 (fun v t => t.writeD rt (BitVec.ofNat 64 v)) := rfl
  rw [← memRead_eq_bytesValue, ← memRead_eq_bytesValue]
  exact
    ⟨⟨DataRow.ldurs.encodesAs_layoutD rfl rt rn dt,
        fun h => ⟨_, hsingle.trans (loadAt_ok h), writesOnlyS_writeS_advance ..⟩,
        fun h => ⟨_, hsingle.trans (loadAt_abort h), raise_tookException ..⟩⟩,
      ⟨DataRow.ldurd.encodesAs_layoutD rfl rt rn dt,
        fun h => ⟨_, hdouble.trans (loadAt_ok h), writesOnlyD_writeD_advance ..⟩,
        fun h => ⟨_, hdouble.trans (loadAt_abort h), raise_tookException ..⟩⟩⟩

end Sys2Proof.Machine
end

section
/-! PROOF of O22 (44_arith_float.md R252, R253). -/

namespace Sys2Proof.Machine

/-- Settles O22: the words by their rows of R98, the outcomes by the shape of a store. -/
theorem floatStoresWriteOnlyTheirBytes : Obligations.FloatStoresWriteOnlyTheirBytes := by
  intro s rt rn dt hwf
  have hsingle : ((s.readS rt).setWidth 64).toNat = (s.readS rt).toNat := BitVec.toNat_setWidth_of_le (by decide)
  refine
    ⟨⟨DataRow.sturs.encodesAs_layoutD rfl rt rn dt, storesAt_of_storeAt hwf ?_⟩,
      ⟨DataRow.sturd.encodesAs_layoutD rfl rt rn dt, storesAt_of_storeAt hwf rfl⟩⟩
  rw [hsingle]
  rfl

end Sys2Proof.Machine
end

section
/-! PROOF of O24 (20_memory.md R55). A read of one byte more, inside a store, is the read before it and the next byte
of the value, which the store placed there. -/

namespace Sys2Proof.Machine

/-- A read of `m` bytes at offset `j` of a write of `n` bytes: the part of the value that lies there (R53, R55). -/
theorem Memory.readBE_writeBE_inside {mem : Memory} (hwf : Memory.wf mem = true) (a n v j m : Nat) (hjm : j + m ≤ n) :
    Memory.readBE (Memory.writeBE mem a n v) (a + j) m = v / 256 ^ (n - j - m) % 256 ^ m := by
  induction m with
  | zero => rw [Memory.readBE, Nat.pow_zero, Nat.mod_one]
  | succ m ih =>
    have hshift : v / 256 ^ (n - j - m) = v / 256 ^ (n - j - (m + 1)) / 256 := by
      rw [Nat.div_div_eq_div_mul, ← Nat.pow_succ]
      congr 2
      omega
    have hbyte : (Memory.read (Memory.writeBE mem a n v) (a + j + m)).toNat = v / 256 ^ (n - j - (m + 1)) % 256 := by
      rw [Nat.add_assoc, Memory.read_writeBE_inside a n v (j + m) hwf (by omega), BitVec.toNat_ofNat]
      congr 3
      omega
    rw [Memory.readBE, ih (by omega), hbyte, hshift, Nat.pow_succ', Nat.mod_mul]
    omega

/-- The address of a byte of an access that does not wrap. -/
theorem toNat_add_ofNat {a : Word} {j : Nat} (h : a.toNat + j < 2 ^ 64) : (a + BitVec.ofNat 64 j).toNat = a.toNat + j := by
  rw [BitVec.toNat_add, BitVec.toNat_ofNat, Nat.mod_eq_of_lt (by omega : j < 2 ^ 64), Nat.mod_eq_of_lt h]

/-- A narrow read inside a wider store. -/
theorem memRead_memWrite_inside {s : State} (hwf : Memory.wf s.mem = true) {a : Word} {n j m : Nat} (v : Nat)
    (hjm : j + m ≤ n) (ha : a.toNat + n ≤ 2 ^ 64) (hm : 0 < m) :
    (s.memWrite a n v).memRead (a + BitVec.ofNat 64 j) m = v / 256 ^ (n - j - m) % 256 ^ m := by
  have hmem : (s.memWrite a n v).mem = Memory.writeBE s.mem a.toNat n v := Memory.writeIn_eq s.params.endian ..
  rw [State.memRead_eq, hmem, toNat_add_ofNat (by omega)]
  exact Memory.readBE_writeBE_inside hwf a.toNat n v j m hjm

/-- Settles O24: the general read, and R55's five of it. -/
theorem narrowReadSeesPartOfWiderStore : Obligations.NarrowReadSeesPartOfWiderStore := by
  refine ⟨fun s a n j m v hwf hjm ha hm => memRead_memWrite_inside hwf v hjm ha hm, fun s a hwf ha => ?_⟩
  intro t
  have hread (j m : Nat) (hjm : j + m ≤ 8) (hm : 0 < m) :
      t.memRead (a + BitVec.ofNat 64 j) m = 0x1122334455667788 / 256 ^ (8 - j - m) % 256 ^ m :=
    memRead_memWrite_inside hwf _ hjm ha hm
  have hstart (m : Nat) (hm : 0 < m ∧ m ≤ 8) : t.memRead a m = 0x1122334455667788 / 256 ^ (8 - m) % 256 ^ m := by
    simpa using hread 0 m (by omega) hm.1
  exact ⟨hstart 1 (by decide), hread 7 1 (by decide) (by decide), hstart 2 (by decide),
    hread 4 4 (by decide) (by decide), hstart 4 (by decide)⟩

end Sys2Proof.Machine
end

section
/-! PROOF of O25 (20_memory.md R65). The store leaves the base register, the ranges and the parameters, so the load
after it is of the same address and may be made too; it reads the low bytes of the value stored. -/

namespace Sys2Proof.Machine

/-- A load after a store of the same address and width. -/
theorem loadAt_after_storeAt {s : State} (hwf : Memory.wf s.mem = true) {ea : Word} {n : Nat} (v : Nat)
    (h : accessAligned s false ea n ∧ accessAdmitted s ea n) (write : Nat → State → State) :
    loadAt (s.memWrite ea n v).advance false ea n write =
      .next (write (v % 256 ^ n) (s.memWrite ea n v).advance).advance := by
  have hread : (s.memWrite ea n v).advance.memRead ea n = v % 256 ^ n := by
    rw [State.memRead_eq, State.advance_mem]
    exact (congrArg (Memory.readBE · ea.toNat n) (Memory.writeIn_eq s.params.endian ..)).trans
      (Memory.readBE_writeBE ea.toNat n v hwf)
  rw [← hread]
  exact loadAt_ok h

/-- A store and then a load of the same address and width: both answer a next state, the second a write of the low
bytes of the value stored. -/
theorem store_then_load {s : State} {st ld : Instr} {ea : Word} {n v : Nat} {write : Nat → State → State}
    (hwf : Memory.wf s.mem = true) (hst : exec st s = storeAt s ea n v)
    (hld : exec ld (s.memWrite ea n v).advance = loadAt (s.memWrite ea n v).advance false ea n write)
    (hal : accessAligned s false ea n) (had : accessAdmitted s ea n) (htext : ¬ accessTouchesText s ea n) :
    exec st s = .next (s.memWrite ea n v).advance ∧
      exec ld (s.memWrite ea n v).advance = .next (write (v % 256 ^ n) (s.memWrite ea n v).advance).advance :=
  ⟨hst.trans (storeAt_ok ⟨hal, had⟩ htext), hld.trans (loadAt_after_storeAt hwf v ⟨hal, had⟩ write)⟩

/-- The pc after a store and a load. -/
theorem pc_add_eight (pc : Word) : pc + 4 + 4 = pc + 8 := add_assoc pc 4 4

/-- The low `k` bits of a number, extended with zeros. -/
theorem ofNat_toNat_mod_eq {n : Nat} (v : BitVec n) (k w : Nat) :
    BitVec.ofNat w (v.toNat % 2 ^ k) = (v.setWidth k).setWidth w := by
  rw [← BitVec.toNat_setWidth, BitVec.ofNat_toNat]

/-- The low bits of a number, no fewer than it has, are the number. -/
theorem ofNat_toNat_mod_self {n : Nat} (v : BitVec n) : BitVec.ofNat n (v.toNat % 2 ^ n) = v := by
  rw [ofNat_toNat_mod_eq, BitVec.setWidth_eq, BitVec.setWidth_eq]

/-- The same where the load is of an integer register, which then holds the value of the low bytes stored. -/
theorem store_then_loadX {s : State} {st ld : Instr} {ea : Word} {n v : Nat} {rd : RegNum} (f : Nat → Word)
    {value : Word} (hvalue : f (v % 256 ^ n) = value) (hwf : Memory.wf s.mem = true)
    (hst : exec st s = storeAt s ea n v)
    (hld : exec ld (s.memWrite ea n v).advance =
      loadAt (s.memWrite ea n v).advance false ea n (fun v t => t.writeX rd (f v)))
    (hal : accessAligned s false ea n) (had : accessAdmitted s ea n) (htext : ¬ accessTouchesText s ea n) :
    ∃ t u, exec st s = .next t ∧ exec ld t = .next u ∧ (u.readX rd = if rd = 31 then 0 else value) ∧
      u.pc = s.pc + 8 := by
  obtain ⟨hfirst, hsecond⟩ := store_then_load hwf hst hld hal had htext
  rw [hvalue] at hsecond
  exact ⟨_, _, hfirst, hsecond, State.readX_writeX_self .., pc_add_eight s.pc⟩

/-- Settles O25: each pair by the rule of a store and a load, and the value by the low bits of the number stored. -/
theorem loadReturnsLatestStore : Obligations.LoadReturnsLatestStore := by
  intro s rt rd rn dt hwf ea pair reads
  have hword : (BitVec.ofNat 32 ((s.readX rt).toNat % 2 ^ 32)).signExtend 64 =
      ((s.readX rt).setWidth 32).signExtend 64 := by
    rw [ofNat_toNat_mod_eq, BitVec.setWidth_eq]
  refine ⟨?_, ?_, ?_, ?_, fun hal had ht => ?_, fun hal had ht => ?_⟩
  · exact store_then_loadX (BitVec.ofNat 64) (ofNat_toNat_mod_self _) hwf rfl rfl
  · exact store_then_loadX (fun v => (BitVec.ofNat 32 v).signExtend 64) hword hwf rfl rfl
  · exact store_then_loadX (BitVec.ofNat 64) (ofNat_toNat_mod_eq _ 16 64) hwf rfl rfl
  · exact store_then_loadX (BitVec.ofNat 64) (ofNat_toNat_mod_eq _ 8 64) hwf rfl rfl
  · obtain ⟨hst, hld⟩ := store_then_load (st := .sturd rt rn dt) (ld := .ldurd rd rn dt)
      (write := fun v t => t.writeD rd (BitVec.ofNat 64 v)) hwf rfl rfl hal had ht
    refine ⟨_, _, hst, hld, ?_, pc_add_eight s.pc⟩
    exact (State.readD_writeD ..).trans ((if_pos rfl).trans (ofNat_toNat_mod_self (s.readD rt)))
  · obtain ⟨hst, hld⟩ := store_then_load (st := .sturs rt rn dt) (ld := .ldurs rd rn dt)
      (write := fun v t => t.writeS rd (BitVec.ofNat 32 v)) hwf rfl rfl hal had ht
    refine ⟨_, _, hst, hld, ?_, pc_add_eight s.pc⟩
    exact (State.readS_writeS ..).trans ((if_pos rfl).trans (ofNat_toNat_mod_self (s.readS rt)))

end Sys2Proof.Machine
end

section
/-! SUPPORT. The record FP is the one that its cases list (44_arith_float.md R235, log 34). -/

namespace Sys2Proof.Machine

/-- Where some case matches, the answer is the result of a case that matches. -/
theorem exists_fpListed_eq {w : Nat} {cases : List (FpCase w)} {op : FpOp} {a b : BitVec w} (d : BitVec w)
    (h : ∃ c ∈ cases, c.op = op ∧ c.a = a ∧ c.b = b) :
    ∃ c ∈ cases, (c.op = op ∧ c.a = a ∧ c.b = b) ∧ fpListed cases op a b d = c.result := by
  induction cases with
  | nil => simp at h
  | cons c t ih =>
    by_cases hc : c.op = op ∧ c.a = a ∧ c.b = b
    · exact ⟨c, List.mem_cons_self, hc, if_pos hc⟩
    · obtain ⟨x, hx, hmatch⟩ := h
      have hxt : x ∈ t := (List.mem_cons.mp hx).resolve_left fun e => hc (e ▸ hmatch)
      obtain ⟨y, hy, hym, hres⟩ := ih ⟨x, hxt, hmatch⟩
      exact ⟨y, List.mem_cons_of_mem _ hy, hym, (if_neg hc).trans hres⟩

/-- The record gives what the cases list where they agree, and the default where they list nothing. -/
theorem givesListed_fpListed {w : Nat} (cases : List (FpCase w)) (default : FpOp → BitVec w → BitVec w → BitVec w) :
    givesListed cases default fun op a b => fpListed cases op a b (default op a b) := by
  intro op a b listed
  refine ⟨fun r hsome hall => ?_, fun hnone => ?_⟩
  · obtain ⟨c, hc, hmatch, hres⟩ := exists_fpListed_eq (default op a b) hsome
    exact hres.trans (hall c ⟨hc, hmatch⟩)
  · exact fpListed_of_not_listed op a b _ cases fun c hc hmatch => hnone c ⟨hc, hmatch⟩

end Sys2Proof.Machine
end

section
/-! PROOF of O26 (44_arith_float.md R235, R239, R243, R245, R247). -/

namespace Sys2Proof.Machine

/-- Settles O26: the record by its cases, the words by their rows of R98, the frame by the write of one register. -/
theorem singleArithmeticWritesOnlyDestination : Obligations.SingleArithmeticWritesOnlyDestination := by
  intro s rd rn rm
  exact
    ⟨givesListed_fpListed _ fp32,
      ⟨ShamtRow.fadds.encodesAs_layoutR rfl rd rn rm, _, rfl, writesOnlyS_writeS_advance ..⟩,
      ⟨ShamtRow.fsubs.encodesAs_layoutR rfl rd rn rm, _, rfl, writesOnlyS_writeS_advance ..⟩,
      ⟨ShamtRow.fmuls.encodesAs_layoutR rfl rd rn rm, _, rfl, writesOnlyS_writeS_advance ..⟩,
      ⟨ShamtRow.fdivs.encodesAs_layoutR rfl rd rn rm, _, rfl, writesOnlyS_writeS_advance ..⟩⟩

end Sys2Proof.Machine
end

section
/-! PROOF of O27 (44_arith_float.md R235, R240, R244, R246, R248). -/

namespace Sys2Proof.Machine

/-- Settles O27: the record by its cases, the words by their rows of R98, the frame by the write of one register. -/
theorem doubleArithmeticWritesOnlyDestination : Obligations.DoubleArithmeticWritesOnlyDestination := by
  intro s rd rn rm
  exact
    ⟨givesListed_fpListed _ fp64,
      ⟨ShamtRow.faddd.encodesAs_layoutR rfl rd rn rm, _, rfl, writesOnlyD_writeD_advance ..⟩,
      ⟨ShamtRow.fsubd.encodesAs_layoutR rfl rd rn rm, _, rfl, writesOnlyD_writeD_advance ..⟩,
      ⟨ShamtRow.fmuld.encodesAs_layoutR rfl rd rn rm, _, rfl, writesOnlyD_writeD_advance ..⟩,
      ⟨ShamtRow.fdivd.encodesAs_layoutR rfl rd rn rm, _, rfl, writesOnlyD_writeD_advance ..⟩⟩

end Sys2Proof.Machine
end

section
/-! PROOF of O28 (44_arith_float.md R238, R241, R242). -/

namespace Sys2Proof.Machine

/-- The flags of a compare: the literal of the relation, and for a NaN the one that FCMP_UNORDERED_FLAGS fixes (R238). -/
theorem compareFlags_spec (s : State) (rel : FpRelation) :
    match rel with
    | .equal => compareFlags s rel = flagsOfLiteral s.params.flagsLiteralOrder 0b0110
    | .less => compareFlags s rel = flagsOfLiteral s.params.flagsLiteralOrder 0b1000
    | .greater => compareFlags s rel = flagsOfLiteral s.params.flagsLiteralOrder 0b0010
    | .unordered => ∀ l, s.params.fcmpUnorderedFlags = .fixed l →
        compareFlags s rel = flagsOfLiteral s.params.flagsLiteralOrder l := by
  cases rel with
  | equal | less | greater => rfl
  | unordered =>
    intro l hl
    rw [compareFlags, hl]
    rfl

/-- Settles O28: the words by their rows of R98; a compare writes the flags of its relation and moves the pc on. -/
theorem floatComparesSetOnlyFlags : Obligations.FloatComparesSetOnlyFlags := by
  intro s rn rm outcome
  have hset {i : Instr} {rel : FpRelation} (hexec : exec i s = .next (compareSet s rel)) : outcome i rel := by
    refine ⟨_, hexec, fun _ => rfl, fun _ => rfl, fun _ => rfl, ⟨rfl, rfl⟩, rfl, ⟨rfl, rfl, rfl, rfl⟩, rfl, ?_⟩
    exact compareFlags_spec s rel
  exact
    ⟨⟨FloatCompareRow.fcmps.encodesAs_layoutR rfl rn rm, hset rfl⟩,
      ⟨FloatCompareRow.fcmpd.encodesAs_layoutR rfl rn rm, hset rfl⟩⟩

end Sys2Proof.Machine
end

section
/-! PROOF of O33 (10_state.md R37). -/

namespace Sys2Proof.Machine

/-- The low half of a register as a narrower word. -/
theorem extractLsb'_zero_eq_setWidth {n : Nat} (v : BitVec n) (k : Nat) : v.extractLsb' 0 k = v.setWidth k := by
  apply BitVec.eq_of_toNat_eq
  rw [BitVec.extractLsb'_toNat, BitVec.toNat_setWidth, Nat.shiftRight_zero]

/-- Settles O33: the reads of either view after a write of either view. -/
theorem singleIsLowHalfOfDouble : Obligations.SingleIsLowHalfOfDouble := by
  intro s r v u
  refine ⟨extractLsb'_zero_eq_setWidth _ 32, ?_, ?_, ?_, fun hup => ?_, fun q hq => ?_, fun q hq => ?_⟩
  · rw [State.readD_writeD, if_pos rfl]
  · rw [State.readS_writeD, if_pos rfl, extractLsb'_zero_eq_setWidth]
  · rw [State.readS_writeS, if_pos rfl]
  · rw [State.readD_writeS, if_pos rfl, hup]
    exact (BitVec.setWidth_eq_append (by decide)).symm
  · rw [State.readD_writeD, if_neg hq]
  · rw [State.readD_writeS, if_neg hq]

end Sys2Proof.Machine
end

section
/-! SUPPORT. What a step answers, from the fetch and the decoder (00_scope.md R5), and which refusals an instruction
gives (60_exceptions.md R307). -/

namespace Sys2Proof.Machine

section Running

variable {s : State}

/-- A step at a pc that cannot be fetched takes the fetch's exception. -/
theorem step_of_fetch_error (hf : s.fault = none) (hh : s.haltPc ≠ some s.pc) {c : ExceptionClass}
    (h : s.fetch = .error c) : step s = .next (s.raise c s.pc) := by
  simp only [step, hf, if_neg hh, h]

/-- A step at a word that does not decode takes class 0. -/
theorem step_of_decode_error (hf : s.fault = none) (hh : s.haltPc ≠ some s.pc) {w : IWord} {e : DecodeError}
    (h : s.fetch = .ok w) (hd : decodeWord s.params w = .error e) :
    step s = .next (s.raise .unknown (w.setWidth 64)) := by
  simp only [step, hf, if_neg hh, h, hd]

/-- A step at a word that decodes runs its instruction. -/
theorem step_of_decode_ok (hf : s.fault = none) (hh : s.haltPc ≠ some s.pc) {w : IWord} {i : Instr}
    (h : s.fetch = .ok w) (hd : decodeWord s.params w = .ok i) : step s = exec i s := by
  simp only [step, hf, if_neg hh, h, hd]

/-- A step at a state with a fault record answers it (60_exceptions.md R290). -/
theorem step_of_fault {r : FaultRecord} (hf : s.fault = some r) : step s = .fault (.exceptionTaken r) := by
  simp only [step, hf]

/-- A step at HALT_PC answers that the run has ended (70_reset_and_hazards.md R314). -/
theorem step_of_final (h : s.final) : step s = .refused .runEnded := by
  obtain ⟨hf, hh⟩ := h
  simp only [step, hf, if_pos hh]

end Running

/-- A fetch at an aligned pc inside the text gives the four bytes there (20_memory.md R64, R56). -/
theorem fetch_ok {s : State} (hal : s.pc.toNat % 4 = 0) (ht : pcInText s) :
    s.fetch = .ok (BitVec.ofNat 32 (bytesValue s s.pc 4)) := by
  rw [← memRead_eq_bytesValue, State.memRead_eq]
  rcases fetch_cases s with ⟨h, -⟩ | ⟨-, h, -⟩ | ⟨-, -, h⟩
  · exact absurd hal h
  · exact absurd ht h
  · exact h

theorem fetch_misaligned {s : State} (hal : s.pc.toNat % 4 ≠ 0) : s.fetch = .error .misalignedPC := by
  rcases fetch_cases s with ⟨-, h⟩ | ⟨h, -⟩ | ⟨h, -⟩
  · exact h
  · exact absurd h hal
  · exact absurd h hal

theorem fetch_outside {s : State} (hal : s.pc.toNat % 4 = 0) (ht : ¬ pcInText s) :
    s.fetch = .error .instructionAbort := by
  rcases fetch_cases s with ⟨h, -⟩ | ⟨-, -, h⟩ | ⟨-, h, -⟩
  · exact absurd hal h
  · exact h
  · exact absurd h ht

/-- The refusals that an instruction can give (60_exceptions.md R307). -/
theorem exec_refused_cases {i : Instr} {s : State} {r : Refusal} (h : exec i s = .refused r) :
    (∃ ea, r = .storeIntoText ea) ∨ ∃ dt, r = .stxrNotAdmitted dt := by
  have hload {ex : Bool} {ea : Word} {n : Nat} {write : Nat → State → State}
      (h : loadAt s ex ea n write = .refused r) : False := by
    unfold loadAt at h
    split_ifs at h
  have hstore {ea : Word} {n v : Nat} (h : storeAt s ea n v = .refused r) : ∃ ea, r = .storeIntoText ea := by
    unfold storeAt at h
    split_ifs at h
    exact ⟨ea, (Host.Outcome.refused.inj h).symm⟩
  cases i with
  | ldur | ldurb | ldurh | ldursw | ldxr | ldurs | ldurd =>
    simp only [exec, execLdur, execLdurb, execLdurh, execLdursw, execLdxr, execLdurs, execLdurd] at h
    exact (hload h).elim
  | stur | sturb | sturh | sturw | sturs | sturd => exact .inl (hstore h)
  | stxr rt rn dt =>
    change execStxr rt rn dt s = .refused r at h
    unfold execStxr at h
    split_ifs at h
    · exact .inr ⟨dt, (Host.Outcome.refused.inj h).symm⟩
    · exact .inl ⟨_, (Host.Outcome.refused.inj h).symm⟩
  | _ => exact nomatch h

end Sys2Proof.Machine
end

section
/-! PROOF of O34, O35, O36 and O37 (60_exceptions.md R283 to R285, 00_scope.md R5). -/

namespace Sys2Proof.Machine

/-- Settles O34: the fetch fails first on alignment. -/
theorem misalignedPcIsTakenAtFetch : Obligations.MisalignedPcIsTakenAtFetch := by
  intro s hf hh hal
  exact ⟨_, step_of_fetch_error hf hh (fetch_misaligned hal), raise_tookException ..⟩

/-- Settles O35: the fetch fails next on the text. -/
theorem fetchOutsideTextAborts : Obligations.FetchOutsideTextAborts := by
  intro s hf hh hal ht
  exact ⟨_, step_of_fetch_error hf hh (fetch_outside hal ht), raise_tookException ..⟩

/-- The word that is fetched, as the info of class 0, loses nothing: four bytes are below 2^32 (R283, log 24). -/
theorem setWidth_ofNat_bytesValue (s : State) (ea : Word) :
    (BitVec.ofNat 32 (bytesValue s ea 4)).setWidth 64 = BitVec.ofNat 64 (bytesValue s ea 4) := by
  have hlt : bytesValue s ea 4 < 2 ^ 32 := bytesValue_lt s ea 4
  apply BitVec.eq_of_toNat_eq
  rw [BitVec.toNat_setWidth, BitVec.toNat_ofNat, BitVec.toNat_ofNat, Nat.mod_eq_of_lt hlt]

/-- Settles O36: the fetch succeeds and the decoder does not. -/
theorem unallocatedWordTakesUnknown : Obligations.UnallocatedWordTakesUnknown := by
  intro s e hf hh hal ht hd
  rw [← setWidth_ofNat_bytesValue]
  exact ⟨_, step_of_decode_error hf hh (fetch_ok hal ht) hd, raise_tookException ..⟩

/-- Settles O37: the fetch and the decoder succeed. -/
theorem stepRunsTheDecodedInstruction : Obligations.StepRunsTheDecodedInstruction := by
  intro s i hf hh hal ht hd
  exact step_of_decode_ok hf hh (fetch_ok hal ht) hd

end Sys2Proof.Machine
end

section
/-! PROOF of O39 and O40 (60_exceptions.md R290, 70_reset_and_hazards.md R314). -/

namespace Sys2Proof.Machine

/-- Settles O39: the first step already answers the fault. -/
theorem exceptionIsTerminal : Obligations.ExceptionIsTerminal := by
  intro s r hr
  refine ⟨fun hfinal => (nomatch hfinal.1.symm.trans hr), fun k => ?_⟩
  have hstep : core.step s = .fault (.exceptionTaken r) := step_of_fault hr
  simp only [Host.Core.run, hstep]

/-- A step that answers that the run has ended is at a final state: no instruction gives that refusal. -/
theorem final_of_step {s : State} (h : step s = .refused .runEnded) : s.final := by
  unfold step at h
  split at h
  · exact nomatch h
  · next hf =>
    split at h
    · next hh => exact ⟨hf, hh⟩
    · split at h
      · exact nomatch h
      · split at h
        · exact nomatch h
        · rcases exec_refused_cases h with ⟨ea, hr⟩ | ⟨dt, hr⟩
          · exact nomatch hr
          · exact nomatch hr

/-- Settles O40: at a final state a step looks at the fault record, the pc and HALT_PC alone. -/
theorem runEndsExactlyAtHaltPc : Obligations.RunEndsExactlyAtHaltPc := by
  intro s
  exact ⟨⟨final_of_step, step_of_final⟩, fun h m x => step_of_final (s := { s with mem := m, text := x }) h⟩

end Sys2Proof.Machine
end

section
/-! PROOF of O41 (60_exceptions.md R287). -/

namespace Sys2Proof.Machine

/-- Settles O41: of the shapes of a next state only the abort of a load or store touches the fault record. -/
theorem onlyMemoryInstructionsRaise : Obligations.OnlyMemoryInstructionsRaise := by
  intro i s t h
  cases exec_shape h with
  | abort _ ea _ hl => exact .inr ⟨hl, ea, raise_tookException ..⟩
  | stxrFailure | stxrSuccess => exact .inl (stxrEnd_fault ..)
  | result | resultFlags | compare | single | double | load | ldxr | store | notTaken | taken | bl | br =>
    exact .inl rfl

end Sys2Proof.Machine
end

section
/-! PROOF of O38 (60_exceptions.md R282, R289, R291). -/

namespace Sys2Proof.Machine

/-- An instruction, run on a state without a fault record, raises a Data Abort or nothing; it is a load or store then. -/
theorem exec_raised {i : Instr} {s t : State} {r : FaultRecord} (hf : s.fault = none) (h : exec i s = .next t)
    (hr : t.fault = some r) :
    r.cls = .dataAbort ∧ (isLoad i = true ∨ isStore i = true) ∧ tookException r.cls r.info s t := by
  rcases onlyMemoryInstructionsRaise i s t h with hsame | ⟨hmem, ea, htook⟩
  · exact nomatch hr.symm.trans (hsame.trans hf)
  · have hfault : t.fault = some ⟨.dataAbort, s.pc, ea⟩ := by
      obtain ⟨-, -, -, hfault, -⟩ := htook
      exact hfault
    obtain rfl := Option.some.inj (hr.symm.trans hfault)
    exact ⟨rfl, hmem, htook⟩

/-- What a step raises is what taking that exception leaves (R282, R291). -/
theorem step_tookException {s t : State} {r : FaultRecord} (h : step s = .next t) (hr : t.fault = some r) :
    tookException r.cls r.info s t := by
  obtain ⟨hf, -, ⟨c, -, rfl⟩ | ⟨w, e, -, -, rfl⟩ | ⟨w, i, -, -, hx⟩⟩ := step_cases h
  · obtain rfl : ⟨c, s.pc, s.pc⟩ = r := Option.some.inj hr
    exact raise_tookException ..
  · obtain rfl : ⟨.unknown, s.pc, w.setWidth 64⟩ = r := Option.some.inj hr
    exact raise_tookException ..
  · exact (exec_raised hf hx hr).2.2

/-- Where a step takes a given exception, that is the class of the record. -/
theorem cls_of_step_raise {s t : State} {r : FaultRecord} {c : ExceptionClass} {info : Word}
    (hraise : step s = .next (s.raise c info)) (h : step s = .next t) (hr : t.fault = some r) : r.cls = c := by
  obtain rfl := Host.Outcome.next.inj (hraise.symm.trans h)
  obtain rfl : ⟨c, s.pc, info⟩ = r := Option.some.inj hr
  rfl

/-- Settles O38: under the premises of each class the step takes that class. -/
theorem raisedClassIsTheFirstThatApplies : Obligations.RaisedClassIsTheFirstThatApplies := by
  intro s t r h hr
  obtain ⟨hf, hh, -⟩ := step_cases h
  exact ⟨step_tookException h hr,
    fun hal => cls_of_step_raise (step_of_fetch_error hf hh (fetch_misaligned hal)) h hr,
    fun hal ht => cls_of_step_raise (step_of_fetch_error hf hh (fetch_outside hal ht)) h hr,
    fun hal ht =>
      ⟨fun e he => cls_of_step_raise (step_of_decode_error hf hh (fetch_ok hal ht) he) h hr, fun i hi => by
        obtain ⟨hcls, hmem, -⟩ := exec_raised hf ((step_of_decode_ok hf hh (fetch_ok hal ht) hi).symm.trans h) hr
        exact ⟨hcls, hmem⟩⟩⟩

end Sys2Proof.Machine
end

section
/-! PROOF of O42 (10_state.md R28, R29, 41_core_branch.md R160). -/

namespace Sys2Proof.Machine

/-- A multiple of 4 added to a multiple of 4, modulo 2^64. -/
theorem toNat_add_mod_four {a b : Word} (ha : a.toNat % 4 = 0) (hb : b.toNat % 4 = 0) : (a + b).toNat % 4 = 0 := by
  rw [BitVec.toNat_add]
  omega

/-- An instruction that is no branch moves the pc on by 4 or takes a Data Abort (R28). -/
theorem exec_pc_of_not_branch {i : Instr} {s t : State} (hb : isBranch i = false) (h : exec i s = .next t) :
    t.pc = s.pc + 4 ∨ ∃ ea, tookException .dataAbort ea s t := by
  cases exec_shape h with
  | result | resultFlags | compare | single | double | load | ldxr | store | notTaken => exact .inl rfl
  | stxrFailure | stxrSuccess => exact .inl (stxrEnd_pc ..)
  | abort _ ea => exact .inr ⟨ea, raise_tookException ..⟩
  | taken _ _ _ _ _ _ _ _ hb' => exact absurd (hb.symm.trans hb') Bool.false_ne_true
  | bl | br => exact nomatch hb

/-- Every instruction but BR keeps the pc a multiple of 4 (R29). -/
theorem exec_pc_aligned {i : Instr} {s t : State} (hbr : ∀ rt, i ≠ .br rt) (h : exec i s = .next t)
    (hal : s.pc.toNat % 4 = 0) : t.pc.toNat % 4 = 0 := by
  cases exec_shape h with
  | result | resultFlags | compare | single | double | load | ldxr | store | notTaken =>
    exact toNat_add_mod_four hal rfl
  | stxrFailure | stxrSuccess =>
    rw [stxrEnd_pc]
    exact toNat_add_mod_four hal rfl
  | abort => exact hal
  | taken _ off ho => exact toNat_add_mod_four hal ho
  | bl addr => exact toNat_add_mod_four hal (signExtend_append_mod_four addr)
  | br rt => exact absurd rfl (hbr rt)

/-- Settles O42: the pc of each shape of a next state. -/
theorem onlyBranchesRedirectThePc : Obligations.OnlyBranchesRedirectThePc := by
  intro i s t h
  exact ⟨fun hb => exec_pc_of_not_branch hb h, fun hbr hal => exec_pc_aligned hbr h hal⟩

end Sys2Proof.Machine
end

section
/-! PROOF of O45 (42_core_load_store.md R185, R190, R191). -/

namespace Sys2Proof.Machine

/-- LDXR arms the monitor for its address or takes a Data Abort there (R185). -/
theorem exec_ldxr_monitor {rt rn : RegNum} {dt : BitVec 9} {s t : State} (h : exec (.ldxr rt rn dt) s = .next t) :
    t.monitor = some (s.effAddr rn dt) ∨ tookException .dataAbort (s.effAddr rn dt) s t := by
  simp only [exec, execLdxr] at h
  rcases loadAt_cases h with ⟨-, rfl⟩ | ⟨-, rfl⟩
  · exact .inr (raise_tookException ..)
  · exact .inl rfl

/-- STXR leaves the monitor none, whatever it does (R190, R191). -/
theorem exec_stxr_monitor {rt rn : RegNum} {dt : BitVec 9} {s t : State} (h : exec (.stxr rt rn dt) s = .next t) :
    t.monitor = none := by
  rcases execStxr_cases h with ⟨-, rfl⟩ | ⟨-, rfl⟩ | ⟨-, -, -, rfl⟩ <;> rfl

/-- Any other instruction leaves the monitor, or takes a Data Abort, which clears it (R191). -/
theorem exec_monitor_of_not_pair {i : Instr} {s t : State}
    (hpair : ∀ rt rn dt, i ≠ .ldxr rt rn dt ∧ i ≠ .stxr rt rn dt) (h : exec i s = .next t) :
    t.monitor = s.monitor ∨ (t.monitor = none ∧ ∃ ea, tookException .dataAbort ea s t) := by
  cases exec_shape h with
  | ldxr rt rn dt => exact absurd rfl (hpair rt rn dt).1
  | stxrFailure rt rn dt | stxrSuccess rt rn dt => exact absurd rfl (hpair rt rn dt).2
  | abort _ ea => exact .inr ⟨rfl, ea, raise_tookException ..⟩
  | result | resultFlags | compare | single | double | load | store | notTaken | taken | bl | br => exact .inl rfl

/-- Settles O45: LDXR, STXR and the others. -/
theorem monitorChangesOnlyByThePair : Obligations.MonitorChangesOnlyByThePair := by
  intro i s t h
  refine ⟨?_, ?_, fun hpair => exec_monitor_of_not_pair hpair h⟩
  · rintro rt rn dt rfl
    exact exec_ldxr_monitor h
  · rintro rt rn dt rfl
    exact exec_stxr_monitor h

end Sys2Proof.Machine
end

section
/-! PROOF of O46 (10_state.md R23, R24, R41, 44_arith_float.md R237). -/

namespace Sys2Proof.Machine

/-- An instruction changes no integer register but its destination (R24). -/
theorem exec_keeps_readX {i : Instr} {s t : State} {r : RegNum} (hr : destX i ≠ some r) (h : exec i s = .next t) :
    t.readX r = s.readX r := by
  have hne {rd : RegNum} (hd : destX i = some rd) : r ≠ rd := fun e => hr (e ▸ hd)
  cases exec_shape h with
  | result _ _ v hd | resultFlags _ _ v _ _ hd | load _ _ v hd => exact State.readX_writeX_ne s v (hne hd)
  | ldxr _ _ _ v => exact State.readX_writeX_ne s v (hne rfl)
  | stxrFailure | stxrSuccess => exact readX_stxrEnd_ne _ _ _ (hne rfl)
  | bl => exact State.readX_writeX_ne s (s.pc + 4) (hne rfl)
  | compare | single | double | store | abort | notTaken | taken | br => rfl

/-- An instruction changes no floating-point register but its destination (44_arith_float.md R237). -/
theorem exec_keeps_readD {i : Instr} {s t : State} {r : RegNum} (hr : destD i ≠ some r) (h : exec i s = .next t) :
    t.readD r = s.readD r := by
  have hne {rd : RegNum} (hd : destD i = some rd) : r ≠ rd := fun e => hr (e ▸ hd)
  cases exec_shape h with
  | single _ rd v _ hd => exact (State.readD_writeS s rd r v).trans (if_neg (hne hd))
  | double _ rd v _ hd => exact (State.readD_writeD s rd r v).trans (if_neg (hne hd))
  | stxrFailure | stxrSuccess => exact readD_stxrEnd ..
  | result | resultFlags | compare | load | ldxr | store | abort | notTaken | taken | bl | br => rfl

/-- An instruction leaves ESR unless it takes a Data Abort (R41). -/
theorem exec_esr {i : Instr} {s t : State} (h : exec i s = .next t) :
    t.esr = s.esr ∨ ∃ ea, tookException .dataAbort ea s t := by
  cases exec_shape h with
  | abort _ ea => exact .inr ⟨ea, raise_tookException ..⟩
  | stxrFailure | stxrSuccess => exact .inl (stxrEnd_esr ..)
  | result | resultFlags | compare | single | double | load | ldxr | store | notTaken | taken | bl | br =>
    exact .inl rfl

/-- Settles O46: the two register files and ESR. -/
theorem onlyDestinationRegistersChange : Obligations.OnlyDestinationRegistersChange := by
  intro i s t h
  exact ⟨fun r hr => exec_keeps_readX hr h, fun r hr => exec_keeps_readD hr h, exec_esr h⟩

end Sys2Proof.Machine
end

section
/-! PROOF of O47 (10_state.md R22). -/

namespace Sys2Proof.Machine

/-- DTAddr as a signed number (30_encoding.md R93). -/
theorem dtAddr_eq_ofInt (dt : BitVec 9) : dtAddr dt = BitVec.ofInt 64 dt.toInt := rfl

/-- Settles O47: what register 31 reads and keeps; every other register is no destination. -/
theorem zeroRegisterIsConstant : Obligations.ZeroRegisterIsConstant := by
  refine ⟨State.readX_xzr, State.writeX_xzr, fun i s t hd h r => ?_, fun s dt => ?_⟩
  · by_cases hr : r = 31
    · rw [hr]
      exact (State.readX_xzr t).trans (State.readX_xzr s).symm
    · exact exec_keeps_readX (fun e => hr (Option.some.inj (e.symm.trans hd))) h
  · rw [State.effAddr, dtAddr_eq_ofInt]
    exact (congrArg (· + _) (State.readX_xzr s)).trans (BitVec.zero_add _)

end Sys2Proof.Machine
end

section
/-! PROOF of O49 and O52 (10_state.md R48). -/

namespace Sys2Proof.Machine

/-- Settles O49: at reset there is no cell, no reservation and no fault record. -/
theorem resetMeetsInvariant : Obligations.ResetMeetsInvariant :=
  ⟨⟨rfl, fun _ hc => nomatch hc⟩, invMonitor_of_none rfl, invFault_of_none rfl⟩

/-- Settles O52: the reset state's own values, and the rule of register 31. -/
theorem resetHoldsWhatTheSpecStates : Obligations.ResetHoldsWhatTheSpecStates :=
  ⟨rfl, rfl, State.readX_xzr State.reset⟩

end Sys2Proof.Machine
end

section
/-! PROOF of O57 (95_test_vectors.md section 2). -/

namespace Sys2Proof.Machine

/-- Settles O57: each word by running the decoder on it. -/
theorem sampleWordsDecode : Obligations.SampleWordsDecode := by
  refine ⟨?_, ?_, ?_, ?_, ?_, ?_, ?_, ?_, ?_, ?_⟩ <;> rfl

end Sys2Proof.Machine
end

section
/-! PROOF of O50 (20_memory.md R66, 00_scope.md R4). One step keeps what the launch record fixed, the canonical form and
every byte of the text; then by induction on the number of steps. -/

namespace Sys2Proof.Machine

/-- Every byte of the text of `s` reads in `t` as in `s`. -/
def keepsText (s t : State) : Prop := ∀ a, s.text.contains a = true → t.readByte a = s.readByte a

theorem keepsText_of_keepsMem {s t : State} (h : keepsMem s t) : keepsText s t := fun a _ => h a

/-- A store that does not touch the text leaves its bytes. -/
theorem keepsText_memWrite {s : State} (hwf : Memory.wf s.mem = true) {ea : Word} {n : Nat} (v : Nat)
    (ht : s.touchesText ea.toNat n = false) : keepsText s (s.memWrite ea n v) := by
  intro a ha
  refine keepsMemOutside_memWrite hwf ea n v a ?_
  by_contra hin
  have htouch : s.touchesText ea.toNat n = true := by
    refine (touchesText_iff s ea n).mpr ⟨a - ea.toNat, by omega, ?_⟩
    rw [Nat.add_sub_cancel' (by omega : ea.toNat ≤ a)]
    simpa [MemRange.contains] using ha
  exact Bool.false_ne_true (ht.symm.trans htouch)

/-- An instruction keeps the canonical form. -/
theorem exec_keeps_wf {i : Instr} {s t : State} (hwf : Memory.wf s.mem = true) (h : exec i s = .next t) :
    Memory.wf t.mem = true := by
  have hwrite (ea : Word) (n v : Nat) : Memory.wf (Memory.writeIn s.params.endian s.mem ea.toNat n v) = true := by
    rw [Memory.writeIn_eq]
    exact Memory.wf_writeBE _ _ _ hwf
  cases exec_shape h with
  | store _ ea n v => exact hwrite ea n v
  | stxrSuccess rt rn dt => exact hwrite (stxrAddr s rn dt) 8 _
  | result | resultFlags | compare | single | double | load | ldxr | stxrFailure | abort | notTaken | taken | bl
  | br => exact hwf

/-- An instruction keeps what the launch record fixed. -/
theorem exec_keepsLaunch {i : Instr} {s t : State} (h : exec i s = .next t) : keepsLaunch s t := by
  cases exec_shape h with
  | stxrFailure | stxrSuccess =>
    exact ⟨stxrEnd_params .., stxrEnd_ranges .., stxrEnd_text .., stxrEnd_haltPc ..⟩
  | result | resultFlags | compare | single | double | load | ldxr | store | abort | notTaken | taken | bl | br =>
    exact ⟨rfl, rfl, rfl, rfl⟩

/-- An instruction keeps every byte of the text (R66). -/
theorem exec_keepsText {i : Instr} {s t : State} (hwf : Memory.wf s.mem = true) (h : exec i s = .next t) :
    keepsText s t := by
  cases exec_shape h with
  | store _ ea n v _ _ _ _ _ _ _ _ ht => exact keepsText_memWrite hwf v ht
  | stxrSuccess rt rn dt _ ht => exact keepsText_memWrite hwf _ ht
  | result | resultFlags | compare | single | double | load | ldxr | stxrFailure | abort | notTaken | taken | bl
  | br => exact fun _ _ => rfl

/-- One step keeps the canonical form, what the launch record fixed, and every byte of the text. -/
theorem step_keepsText {s t : State} (hwf : Memory.wf s.mem = true) (h : step s = .next t) :
    Memory.wf t.mem = true ∧ keepsLaunch s t ∧ keepsText s t := by
  obtain ⟨-, -, ⟨c, -, rfl⟩ | ⟨w, e, -, -, rfl⟩ | ⟨w, i, -, -, hx⟩⟩ := step_cases h
  · exact ⟨hwf, ⟨rfl, rfl, rfl, rfl⟩, fun _ _ => rfl⟩
  · exact ⟨hwf, ⟨rfl, rfl, rfl, rfl⟩, fun _ _ => rfl⟩
  · exact ⟨exec_keeps_wf hwf hx, exec_keepsLaunch hx, exec_keepsText hwf hx⟩

/-- A run of one step more that answers a next state is a step and a run from there. -/
theorem run_succ_next {k : Nat} {s t : State} (h : core.run (k + 1) s = .next t) :
    ∃ u, step s = .next u ∧ core.run k u = .next t := by
  simp only [Host.Core.run] at h
  split at h
  · next u hu => exact ⟨u, hu, h⟩
  · exact nomatch h
  · exact nomatch h

/-- Settles O50: by induction on the number of steps; the text of the state after a step is the same text. -/
theorem programTextNeverChanges : Obligations.ProgramTextNeverChanges := by
  intro k
  induction k with
  | zero =>
    intro s t _ h
    obtain rfl : s = t := Host.Outcome.next.inj h
    exact ⟨⟨rfl, rfl, rfl, rfl⟩, fun _ _ => rfl⟩
  | succ k ih =>
    intro s t hwf h
    obtain ⟨u, hstep, hrun⟩ := run_succ_next h
    obtain ⟨hwf', ⟨hparams, hranges, htext, hhalt⟩, hbytes⟩ := step_keepsText hwf hstep
    obtain ⟨⟨hparams', hranges', htext', hhalt'⟩, hbytes'⟩ := ih u t hwf' hrun
    exact ⟨⟨hparams'.trans hparams, hranges'.trans hranges, htext'.trans htext, hhalt'.trans hhalt⟩,
      fun a ha => (hbytes' a (htext ▸ ha)).trans (hbytes a ha)⟩

end Sys2Proof.Machine
end

section
/-! PROOF of O53 (00_scope.md R5, log 3). The placed word's state has no fault, does not end the run, is aligned and
inside its text, and its four bytes are the word's. -/

namespace Sys2Proof.Machine

/-- A pc with its two low bits cleared is a multiple of 4. -/
theorem toNat_and_not_three (pc : Word) : (pc &&& ~~~(3 : Word)).toNat % 4 = 0 := by
  have h : (pc &&& ~~~(3 : Word)).setWidth 2 = 0#2 := by
    rw [BitVec.setWidth_and, show (~~~(3 : Word)).setWidth 2 = 0#2 from rfl, BitVec.and_zero]
  have hmod := congrArg BitVec.toNat h
  rwa [BitVec.toNat_setWidth] at hmod

/-- The pc of a placed word. -/
theorem placeWord_pc (s : State) (w : IWord) : (s.placeWord w).pc = s.pc &&& ~~~(3 : Word) := rfl

theorem placeWord_haltPc_ne (s : State) (w : IWord) : (s.placeWord w).haltPc ≠ some (s.placeWord w).pc := by
  simp only [State.placeWord]
  split
  · exact nofun
  · assumption

/-- A placed word is inside the text. -/
theorem placeWord_pcInText (s : State) (w : IWord) : pcInText (s.placeWord w) := by
  rw [← pcInText_iff]
  simp only [State.placeWord]
  split
  · assumption
  · simp [MemRange.contains]

/-- The four bytes at the pc of a placed word are the word. -/
theorem placeWord_bytesValue {s : State} (hwf : Memory.wf s.mem = true) (w : IWord) :
    bytesValue (s.placeWord w) (s.placeWord w).pc 4 = w.toNat := by
  have hmem : (s.placeWord w).mem = Memory.writeBE s.mem (s.placeWord w).pc.toNat 4 w.toNat :=
    Memory.writeIn_eq s.params.endian ..
  rw [← memRead_eq_bytesValue, State.memRead_eq, hmem, Memory.readBE_writeBE _ _ _ hwf]
  exact Nat.mod_eq_of_lt w.isLt

/-- Settles O53: the step at a placed word runs what the word decodes to. -/
theorem placedWordRunsNext : Obligations.PlacedWordRunsNext := by
  intro s w i hwf hd
  have hword : BitVec.ofNat 32 (w.toNat % 2 ^ 32) = w := ofNat_toNat_mod_self w
  rw [State.withFetchWord, hword]
  refine stepRunsTheDecodedInstruction _ i rfl (placeWord_haltPc_ne s w) (toNat_and_not_three s.pc)
    (placeWord_pcInText s w) ?_
  rw [placeWord_bytesValue hwf, BitVec.ofNat_toNat, BitVec.setWidth_eq]
  exact hd

end Sys2Proof.Machine
end

section
/-! PROOF of O58 (30_encoding.md R91 to R93). -/

namespace Sys2Proof.Machine

/-- Settles O58: two zero bits below a field are a factor 4, and the field's own range gives the immediate's. -/
theorem addressImmediatesSignExtend : Obligations.AddressImmediatesSignExtend := by
  refine ⟨fun a => ?_, fun a => ?_, fun d => ?_⟩
  · have hvalue : (branchAddr a).toInt = 4 * a.toInt := toInt_signExtend_append_zero (by decide) a
    have hlow : -2 ^ 25 ≤ a.toInt := BitVec.le_toInt a
    have hhigh : a.toInt < 2 ^ 25 := BitVec.toInt_lt
    omega
  · have hvalue : (condBranchAddr a).toInt = 4 * a.toInt := toInt_signExtend_append_zero (by decide) a
    have hlow : -2 ^ 18 ≤ a.toInt := BitVec.le_toInt a
    have hhigh : a.toInt < 2 ^ 18 := BitVec.toInt_lt
    omega
  · have hvalue : (dtAddr d).toInt = d.toInt := BitVec.toInt_signExtend_of_le (by decide)
    have hlow : -2 ^ 8 ≤ d.toInt := BitVec.le_toInt d
    have hhigh : d.toInt < 2 ^ 8 := BitVec.toInt_lt
    omega

end Sys2Proof.Machine
end

section
/-! PROOF of O60 (45_pseudoinstructions.md R270 to R273, 30_encoding.md R105). -/

namespace Sys2Proof.Machine

/-! ### The result of the shared effects -/

/-- A write of register 31 and the flags, and the pc moved on: only the flags and the pc change (R22). -/
theorem setFlags_advance_effects (s : State) (f : Flags) :
    let t := (s.setFlags f).advance
    keepsX s t ∧ t.flags = f ∧ keepsD s t ∧ keepsMem s t ∧ keepsException s t ∧ keepsMonitor s t ∧ keepsLaunch s t ∧
      t.pc = s.pc + 4 :=
  ⟨fun _ => rfl, rfl, fun _ => rfl, fun _ => rfl, ⟨rfl, rfl⟩, rfl, ⟨rfl, rfl, rfl, rfl⟩, rfl⟩

/-- CMPI writes the flags of the subtraction and moves the pc on; no register is written (R271). -/
theorem exec_pseudoCmpi (s : State) (rn : RegNum) (imm : BitVec 12) :
    exec (pseudoCmpi rn imm) s = .next (s.setFlags (subFlags (s.readX rn) (aluImm imm))).advance := by
  rw [pseudoCmpi, exec, execSubis, RegNum.xzr, State.writeX_xzr]

/-! ### LDA -/

/-- A negative offset, negated, as LDA's immediate (R272). -/
theorem setWidth_neg_of_msb {k : BitVec 9} (hk : k.msb = true) : (-k).setWidth 12 = BitVec.ofInt 12 (-k.toInt) := by
  have hhigh := BitVec.toNat_ge_of_msb_true hk
  have hlt := k.isLt
  have htoInt : k.toInt = k.toNat - 512 := by
    rw [BitVec.toInt_eq_msb_cond, if_pos hk]
    rfl
  apply BitVec.eq_of_toNat_eq
  rw [BitVec.toNat_setWidth, BitVec.toNat_neg, BitVec.toNat_ofInt, htoInt]
  omega

/-- An offset of 0 or more as LDA's immediate (R272). -/
theorem setWidth_of_msb_false {k : BitVec 9} (hk : k.msb = false) : k.setWidth 12 = BitVec.ofInt 12 k.toInt := by
  have htoInt : k.toInt = k.toNat := BitVec.toInt_eq_toNat_of_msb hk
  rw [htoInt, BitVec.ofInt_natCast, BitVec.ofNat_toNat]

/-- ALUImm of a small number is the number. -/
theorem aluImm_ofInt {x : Int} (h : 0 ≤ x ∧ x < 2 ^ 12) : aluImm (BitVec.ofInt 12 x) = BitVec.ofInt 64 x := by
  apply BitVec.eq_of_toNat_eq
  rw [toNat_aluImm, BitVec.toNat_ofInt, BitVec.toNat_ofInt]
  omega

/-- LDA's expansion by the sign of its offset (R272). -/
theorem pseudoLda_eq (rd rn : RegNum) (k : BitVec 9) : pseudoLda rd rn k =
    if 0 ≤ k.toInt then .addi rd rn (BitVec.ofInt 12 k.toInt) else .subi rd rn (BitVec.ofInt 12 (-k.toInt)) := by
  rw [pseudoLda]
  cases hk : k.msb with
  | true =>
    have hneg : ¬ 0 ≤ k.toInt := by simpa [BitVec.msb_eq_toInt] using hk
    rw [if_pos rfl, if_neg hneg, setWidth_neg_of_msb hk]
  | false =>
    have hnonneg : 0 ≤ k.toInt := by simpa [BitVec.msb_eq_toInt] using hk
    rw [if_neg (by decide), if_pos hnonneg, setWidth_of_msb_false hk]

/-- LDA writes the base plus the signed offset and nothing else (R272). -/
theorem exec_pseudoLda (s : State) (rd rn : RegNum) (k : BitVec 9) :
    exec (pseudoLda rd rn k) s = .next (s.writeX rd (s.readX rn + BitVec.ofInt 64 k.toInt)).advance := by
  have hlow : -2 ^ 8 ≤ k.toInt := BitVec.le_toInt k
  have hhigh : k.toInt < 2 ^ 8 := BitVec.toInt_lt
  rw [pseudoLda_eq]
  split
  · next hk => rw [exec, execAddi, aluImm_ofInt (by omega)]
  · next hk =>
    rw [exec, execSubi, aluImm_ofInt (by omega), BitVec.ofInt_neg, BitVec.sub_eq_add_neg, BitVec.neg_neg]

/-! ### The words -/

/-- CMP's word is that of SUBS with register 31 in place (R270). -/
theorem layoutR_xzr_rd (base : IWord) (rm rn : RegNum) :
    layoutR base rm rn RegNum.xzr = base ||| (rm.setWidth 32 <<< 16) ||| (rn.setWidth 32 <<< 5) ||| 31 := rfl

/-- MOV's word is that of ADD with register 31 in place (R273). -/
theorem layoutR_xzr_rm (rn rd : RegNum) :
    layoutR 0x8B000000 RegNum.xzr rn rd = 0x8B1F0000 ||| (rn.setWidth 32 <<< 5) ||| rd.setWidth 32 := rfl

/-- Settles O60: each word and effect by those of the instruction that it stands for. -/
theorem pseudoinstructionsDoWhatTheSourceSays : Obligations.PseudoinstructionsDoWhatTheSourceSays := by
  intro s rd rn rm imm k
  rw [ofNat_toNat_eq_aluImm]
  have hmov : s.readX rn + s.readX RegNum.xzr = s.readX rn :=
    (congrArg (s.readX rn + ·) (State.readX_xzr s)).trans (BitVec.add_zero _)
  refine
    ⟨⟨RegisterRow.subs.encodesAs_layoutR rfl RegNum.xzr rn rm, _, exec_pseudoCmp s rn rm, setFlags_advance_effects ..⟩,
      ⟨ImmediateRow.subis.encodesAs_layoutI rfl RegNum.xzr rn imm, _, exec_pseudoCmpi s rn imm,
        setFlags_advance_effects ..⟩,
      ⟨pseudoLda_eq rd rn k, _, exec_pseudoLda s rd rn k, writesOnlyX_writeX_advance ..⟩,
      ⟨RegisterRow.add.encodesAs_layoutR rfl rd rn RegNum.xzr, _, rfl, ?_⟩,
      ⟨RegisterRow.add.encodesAs_layoutR rfl RegNum.xzr RegNum.xzr RegNum.xzr, _, rfl, ?_⟩⟩
  · rw [hmov]
    exact writesOnlyX_writeX_advance ..
  · rw [RegNum.xzr, State.writeX_xzr]
    exact writesOnlyPc_advance s

end Sys2Proof.Machine
end

section
/-! PROOF of O55 (30_encoding.md R100, R101, D5). Along the decoder's branches: each one has tested the opcode and, under
the strict policy, the fields without a role; the other fields are the operands, so the word is put together again. -/

namespace Sys2Proof.Machine

/-- Whatever instruction the outcome `d` of a decoder is, its encoding is the word `w`. -/
def encodesBack (p : Params) (w : IWord) (d : Except DecodeError Instr) : Prop :=
  ∀ i, d = .ok i → encode p i = w

section Branches

variable {p : Params} {w : IWord}

/-! ### One branch of each kind -/

theorem encodesBack_error (e : DecodeError) : encodesBack p w (.error e) := fun _ h => nomatch h

theorem encodesBack_ok {i : Instr} (h : encode p i = w) : encodesBack p w (.ok i) := fun _ hi => Except.ok.inj hi ▸ h

/-- A branch of a decoder that looks at a condition. -/
theorem encodesBack.ite {c : Prop} [Decidable c] {a b : Except DecodeError Instr} (ha : c → encodesBack p w a)
    (hb : encodesBack p w b) : encodesBack p w (if c then a else b) := by
  split
  · next hc => exact ha hc
  · exact hb

/-- Under the strict policy the check of the unused fields lets a word pass where they are zero (R101). -/
theorem encodesBack_checkUnused {zero : Bool} {i : Instr} (hs : p.unusedFieldPolicy = .strict)
    (h : zero = true → encode p i = w) : encodesBack p w (checkUnused p zero i) := by
  intro j hj
  obtain ⟨rfl, hzero⟩ := checkUnused_ok hj
  exact h (hzero hs)

theorem RegisterRow.encodesBack_decodeR {op : BitVec 11} {mk : RegNum → RegNum → RegNum → Instr}
    (row : RegisterRow op mk) (hs : p.unusedFieldPolicy = .strict) (hop : opcode11 w = op) :
    encodesBack p w (decodeR p mk w) := by
  refine encodesBack_checkUnused hs fun hshamt => ?_
  rw [(row.encodesAs_layoutR rfl _ _ _ p).1, layoutR_encodeR]
  exact encodeR_of_fields hop (beq_iff_eq.mp hshamt)

theorem ImmediateRow.encodesBack_fields {op : BitVec 10} {mk : RegNum → RegNum → BitVec 12 → Instr}
    (row : ImmediateRow op mk) (hop : opcode10 w = op) :
    encodesBack p w (.ok (mk (fieldRd w) (fieldRn w) (fieldAluImm w))) := by
  refine encodesBack_ok ?_
  rw [(row.encodesAs_layoutI rfl _ _ _ p).1, layoutI_encodeI]
  exact encodeI_of_fields hop

theorem ShamtRow.encodesBack_fields {op : BitVec 11} {shamt : BitVec 6} {mk : RegNum → RegNum → RegNum → Instr}
    (row : ShamtRow op shamt mk) (hop : opcode11 w = op) (hshamt : fieldShamt w = shamt) :
    encodesBack p w (.ok (mk (fieldRd w) (fieldRn w) (fieldRm w))) := by
  refine encodesBack_ok ?_
  rw [(row.encodesAs_layoutR rfl _ _ _ p).1, layoutR_encodeR]
  exact encodeR_of_fields hop hshamt

theorem ShamtRow.encodesBack_decodeMultiplyHigh {op : BitVec 11} {mk : RegNum → RegNum → RegNum → Instr}
    (row : ShamtRow op 0x1F mk) (hs : p.unusedFieldPolicy = .strict) (hop : opcode11 w = op) :
    encodesBack p w (decodeMultiplyHigh p mk w) := by
  by_cases hshamt : fieldShamt w = 0x1F
  · rw [decodeMultiplyHigh, if_neg (by simp [hshamt])]
    exact row.encodesBack_fields hop hshamt
  · rw [decodeMultiplyHigh, if_pos ⟨hs, hshamt⟩]
    exact encodesBack_error _

theorem FloatCompareRow.encodesBack_checkUnused {op : BitVec 11} {mk : RegNum → RegNum → Instr}
    (row : FloatCompareRow op mk) (hs : p.unusedFieldPolicy = .strict) (hop : opcode11 w = op)
    (hshamt : fieldShamt w = 0x08) :
    encodesBack p w (checkUnused p (fieldRd w == 0) (mk (fieldRn w) (fieldRm w))) := by
  refine Machine.encodesBack_checkUnused hs fun hrd => ?_
  rw [(row.encodesAs_layoutR rfl _ _ p).1, layoutR_encodeR, ← beq_iff_eq.mp hrd]
  exact encodeR_of_fields hop hshamt

theorem ShiftRow.encodesBack_decodeShift {op : BitVec 11} {mk : RegNum → RegNum → BitVec 6 → Instr}
    (row : ShiftRow op mk) (hs : p.unusedFieldPolicy = .strict) (hop : opcode11 w = op) :
    encodesBack p w (decodeShift p mk w) := by
  refine encodesBack_checkUnused hs fun hrm => ?_
  rw [(row.encodesAs_layoutShift rfl _ _ _ p).1, layoutShift_encodeR, ← beq_iff_eq.mp hrm]
  exact encodeR_of_fields hop rfl

theorem DataRow.encodesBack_decodeD {op : BitVec 11} {mk : RegNum → RegNum → BitVec 9 → Instr} (row : DataRow op mk)
    (hs : p.unusedFieldPolicy = .strict) (hop : opcode11 w = op) : encodesBack p w (decodeD p mk w) := by
  refine encodesBack_checkUnused hs fun hzero => ?_
  rw [(row.encodesAs_layoutD rfl _ _ _ p).1, layoutD_encodeD]
  exact encodeD_of_fields hop (beq_iff_eq.mp hzero)

theorem MoveRow.encodesBack_fields {op : BitVec 9} {mk : RegNum → BitVec 2 → BitVec 16 → Instr} (row : MoveRow op mk)
    (hop : opcode9 w = op) : encodesBack p w (.ok (mk (fieldRd w) (fieldHw w) (fieldMovImm w))) := by
  refine encodesBack_ok ?_
  rw [(row.encodesAs_layoutIM rfl _ _ _ p).1, layoutIM_encodeIM]
  exact encodeIM_of_fields hop

theorem JumpRow.encodesBack_fields {op : BitVec 6} {mk : BitVec 26 → Instr} (row : JumpRow op mk)
    (hop : opcode6 w = op) : encodesBack p w (.ok (mk (fieldBrAddr w))) := by
  refine encodesBack_ok ?_
  rw [(row.encodesAs_layoutB rfl _ p).1, layoutB_encodeB]
  exact encodeB_of_fields hop

theorem CompareBranchRow.encodesBack_fields {op : BitVec 8} {mk : RegNum → BitVec 19 → Instr}
    (row : CompareBranchRow op mk) (hop : opcode8 w = op) :
    encodesBack p w (.ok (mk (fieldRd w) (fieldCondBrAddr w))) := by
  refine encodesBack_ok ?_
  rw [(row.encodesAs_layoutCB rfl _ _ p).1, layoutCB_encodeCB]
  exact encodeCB_of_fields hop

theorem encodesBack_decodeBCond (hs : p.unusedFieldPolicy = .strict) (hop : opcode8 w = 0b01010100) :
    encodesBack p w (decodeBCond p w) := by
  refine .ite (fun _ => encodesBack_checkUnused hs fun hbit => ?_) (encodesBack_error _)
  rw [encode, ← beq_iff_eq.mp hbit, bit4_append_cond]
  exact encodeCB_of_fields hop

theorem encodesBack_decodeBr (hs : p.unusedFieldPolicy = .strict) (hop : opcode11 w = 0x6B0) :
    encodesBack p w (decodeBr p w) := by
  cases hb : p.brTargetField with
  | bits4to0 =>
    simp only [decodeBr, hb]
    refine encodesBack_checkUnused hs fun hzero => ?_
    simp only [Bool.and_eq_true, beq_iff_eq] at hzero
    obtain ⟨⟨hrm, hshamt⟩, hrn⟩ := hzero
    have hword := encodeR_of_fields hop hshamt
    rw [hrm, hrn] at hword
    simpa only [encode, encodeBr, hb] using hword
  | bits9to5 =>
    simp only [decodeBr, hb]
    refine encodesBack_checkUnused hs fun hzero => ?_
    simp only [Bool.and_eq_true, beq_iff_eq] at hzero
    obtain ⟨⟨hrm, hshamt⟩, hrd⟩ := hzero
    have hword := encodeR_of_fields hop hshamt
    rw [hrm, hrd] at hword
    simpa only [encode, encodeBr, hb] using hword

/-! ### The decoder, from its last table to its first -/

theorem encodesBack_decodeStore (hs : p.unusedFieldPolicy = .strict) : encodesBack p w (decodeStore p w) :=
  .ite (DataRow.sturb.encodesBack_decodeD hs) <| .ite (DataRow.sturh.encodesBack_decodeD hs) <|
  .ite (DataRow.sturw.encodesBack_decodeD hs) <| .ite (DataRow.sturs.encodesBack_decodeD hs) <|
  .ite (DataRow.stxr.encodesBack_decodeD hs) <| .ite (DataRow.stur.encodesBack_decodeD hs) <|
  .ite (DataRow.sturd.encodesBack_decodeD hs) <| encodesBack_error _

theorem encodesBack_decodeLoad (hs : p.unusedFieldPolicy = .strict) : encodesBack p w (decodeLoad p w) :=
  .ite (DataRow.ldurb.encodesBack_decodeD hs) <| .ite (DataRow.ldurh.encodesBack_decodeD hs) <|
  .ite (DataRow.ldursw.encodesBack_decodeD hs) <| .ite (DataRow.ldurs.encodesBack_decodeD hs) <|
  .ite (DataRow.ldxr.encodesBack_decodeD hs) <| .ite (DataRow.ldur.encodesBack_decodeD hs) <|
  .ite (DataRow.ldurd.encodesBack_decodeD hs) <| encodesBack_decodeStore hs

theorem encodesBack_decodeRegister (hs : p.unusedFieldPolicy = .strict) : encodesBack p w (decodeRegister p w) :=
  .ite (RegisterRow.and.encodesBack_decodeR hs) <| .ite (RegisterRow.add.encodesBack_decodeR hs) <|
  .ite (RegisterRow.orr.encodesBack_decodeR hs) <| .ite (RegisterRow.adds.encodesBack_decodeR hs) <|
  .ite (RegisterRow.eor.encodesBack_decodeR hs) <| .ite (RegisterRow.sub.encodesBack_decodeR hs) <|
  .ite (ShiftRow.lsr.encodesBack_decodeShift hs) <| .ite (ShiftRow.lsl.encodesBack_decodeShift hs) <|
  .ite (encodesBack_decodeBr hs) <|
  .ite (RegisterRow.ands.encodesBack_decodeR hs) <| .ite (RegisterRow.subs.encodesBack_decodeR hs) <|
  encodesBack_decodeLoad hs

theorem encodesBack_decodeFpSingle (hs : p.unusedFieldPolicy = .strict) (hop : opcode11 w = 0x0F1) :
    encodesBack p w (decodeFpSingle p w) :=
  .ite (ShamtRow.fmuls.encodesBack_fields hop) <| .ite (ShamtRow.fdivs.encodesBack_fields hop) <|
  .ite (FloatCompareRow.fcmps.encodesBack_checkUnused hs hop) <|
  .ite (ShamtRow.fadds.encodesBack_fields hop) <| .ite (ShamtRow.fsubs.encodesBack_fields hop) <| encodesBack_error _

theorem encodesBack_decodeFpDouble (hs : p.unusedFieldPolicy = .strict) (hop : opcode11 w = 0x0F3) :
    encodesBack p w (decodeFpDouble p w) :=
  .ite (ShamtRow.fmuld.encodesBack_fields hop) <| .ite (ShamtRow.fdivd.encodesBack_fields hop) <|
  .ite (FloatCompareRow.fcmpd.encodesBack_checkUnused hs hop) <|
  .ite (ShamtRow.faddd.encodesBack_fields hop) <| .ite (ShamtRow.fsubd.encodesBack_fields hop) <| encodesBack_error _

theorem encodesBack_decodeDivide (hop : opcode11 w = 0x4D6) : encodesBack p w (decodeDivide w) :=
  .ite (ShamtRow.sdiv.encodesBack_fields hop) <| .ite (ShamtRow.udiv.encodesBack_fields hop) <| encodesBack_error _

theorem encodesBack_decodeMultiply (hop : opcode11 w = 0x4D8) : encodesBack p w (decodeMultiply w) :=
  .ite (ShamtRow.mul.encodesBack_fields hop) <| encodesBack_error _

theorem encodesBack_decodeOp11 (hs : p.unusedFieldPolicy = .strict) : encodesBack p w (decodeOp11 p w) :=
  .ite (encodesBack_decodeFpSingle hs) <| .ite (encodesBack_decodeFpDouble hs) <|
  .ite encodesBack_decodeDivide <| .ite encodesBack_decodeMultiply <|
  .ite (ShamtRow.smulh.encodesBack_decodeMultiplyHigh hs) <|
  .ite (ShamtRow.umulh.encodesBack_decodeMultiplyHigh hs) <| encodesBack_decodeRegister hs

theorem encodesBack_decodeOp10 (hs : p.unusedFieldPolicy = .strict) : encodesBack p w (decodeOp10 p w) :=
  .ite ImmediateRow.addi.encodesBack_fields <| .ite ImmediateRow.andi.encodesBack_fields <|
  .ite ImmediateRow.addis.encodesBack_fields <| .ite ImmediateRow.orri.encodesBack_fields <|
  .ite ImmediateRow.subi.encodesBack_fields <| .ite ImmediateRow.eori.encodesBack_fields <|
  .ite ImmediateRow.subis.encodesBack_fields <| .ite ImmediateRow.andis.encodesBack_fields <|
  encodesBack_decodeOp11 hs

theorem encodesBack_decodeWord (hs : p.unusedFieldPolicy = .strict) : encodesBack p w (decodeWord p w) :=
  .ite JumpRow.b.encodesBack_fields <| .ite JumpRow.bl.encodesBack_fields <|
  .ite (encodesBack_decodeBCond hs) <|
  .ite CompareBranchRow.cbz.encodesBack_fields <| .ite CompareBranchRow.cbnz.encodesBack_fields <|
  .ite MoveRow.movz.encodesBack_fields <| .ite MoveRow.movk.encodesBack_fields <| encodesBack_decodeOp10 hs

end Branches

/-- Settles O55: every branch of the decoder encodes back. -/
theorem strictWordIsItsEncoding : Obligations.StrictWordIsItsEncoding :=
  fun _ _ i hs h => encodesBack_decodeWord hs i h

end Sys2Proof.Machine
end

section
/-! PROOF of O56 (30_encoding.md R98, R100). The row of an instruction is its encoding under the mask of its format. Two
facts tie it to the table: every instruction's row is in the table, and a word that a row of the table covers is the
encoding of an instruction of that row. The rest follows from decoding and encoding being inverse (O54, O55). -/

namespace Sys2Proof.Machine

/-! ### The row of an instruction -/

/-- The fixed bits of an instruction's word under the defaults: the opcode, a shamt that selects, unused fields. -/
def fixedBits (i : Instr) : IWord :=
  match i with
  | .addi .. | .addis .. | .andi .. | .andis .. | .eori .. | .orri .. | .subi .. | .subis .. => 0xFFC00000
  | .lsl .. | .lsr .. => 0xFFFF0000
  | .movk .. | .movz .. => 0xFF800000
  | .b .. | .bl .. => 0xFC000000
  | .bCond .. => 0xFF000010
  | .br .. => 0xFFFFFFE0
  | .cbnz .. | .cbz .. => 0xFF000000
  | .ldur .. | .ldurb .. | .ldurh .. | .ldursw .. | .ldxr .. | .stur .. | .sturb .. | .sturh .. | .sturw .. | .stxr ..
  | .ldurs .. | .ldurd .. | .sturs .. | .sturd .. => 0xFFE00C00
  | .fcmps .. | .fcmpd .. => 0xFFE0FC1F
  | _ => 0xFFE0FC00

/-- The row of an instruction: its mnemonic, and its encoding under the fixed bits. -/
def rowOf (i : Instr) : OpcodeRow := ⟨mnemonicOf i, encode Params.default i &&& fixedBits i, fixedBits i⟩

/-- An instruction's row covers its encoding. -/
theorem rowOf_covers (i : Instr) : (rowOf i).covers (encode Params.default i) = true := beq_self_eq_true _

/-! ### The fixed bits of a word of each format -/

theorem encodeR_and_encodeR (op op' : BitVec 11) (rm rm' : RegNum) (shamt shamt' : BitVec 6) (rn rn' rd rd' : RegNum) :
    encodeR op rm shamt rn rd &&& encodeR op' rm' shamt' rn' rd' =
      encodeR (op &&& op') (rm &&& rm') (shamt &&& shamt') (rn &&& rn') (rd &&& rd') := by
  apply BitVec.eq_of_getLsbD_eq
  intro i hi
  simp only [encodeR, BitVec.getLsbD_and, BitVec.getLsbD_append]
  split_ifs <;> rfl

theorem encodeI_and_encodeI (op op' : BitVec 10) (imm imm' : BitVec 12) (rn rn' rd rd' : RegNum) :
    encodeI op imm rn rd &&& encodeI op' imm' rn' rd' =
      encodeI (op &&& op') (imm &&& imm') (rn &&& rn') (rd &&& rd') := by
  apply BitVec.eq_of_getLsbD_eq
  intro i hi
  simp only [encodeI, BitVec.getLsbD_and, BitVec.getLsbD_append]
  split_ifs <;> rfl

theorem encodeB_and_encodeB (op op' : BitVec 6) (addr addr' : BitVec 26) :
    encodeB op addr &&& encodeB op' addr' = encodeB (op &&& op') (addr &&& addr') := by
  apply BitVec.eq_of_getLsbD_eq
  intro i hi
  simp only [encodeB, BitVec.getLsbD_and, BitVec.getLsbD_append]
  split_ifs <;> rfl

theorem encodeCB_and_encodeCB (op op' : BitVec 8) (addr addr' : BitVec 19) (rt rt' : RegNum) :
    encodeCB op addr rt &&& encodeCB op' addr' rt' = encodeCB (op &&& op') (addr &&& addr') (rt &&& rt') := by
  apply BitVec.eq_of_getLsbD_eq
  intro i hi
  simp only [encodeCB, BitVec.getLsbD_and, BitVec.getLsbD_append]
  split_ifs <;> rfl

theorem encodeIM_and_encodeIM (op op' : BitVec 9) (hw hw' : BitVec 2) (imm imm' : BitVec 16) (rd rd' : RegNum) :
    encodeIM op hw imm rd &&& encodeIM op' hw' imm' rd' =
      encodeIM (op &&& op') (hw &&& hw') (imm &&& imm') (rd &&& rd') := by
  apply BitVec.eq_of_getLsbD_eq
  intro i hi
  simp only [encodeIM, BitVec.getLsbD_and, BitVec.getLsbD_append]
  split_ifs <;> rfl

theorem encodeR_and_fixedBits (op : BitVec 11) (rm : RegNum) (shamt : BitVec 6) (rn rd : RegNum) :
    encodeR op rm shamt rn rd &&& 0xFFE0FC00 = encodeR op 0#5 shamt 0#5 0#5 := by
  refine (encodeR_and_encodeR op (BitVec.allOnes 11) rm 0#5 shamt (BitVec.allOnes 6) rn 0#5 rd 0#5).trans ?_
  simp only [BitVec.and_allOnes, BitVec.and_zero]

theorem encodeR_and_fixedBits_compare (op : BitVec 11) (rm : RegNum) (shamt : BitVec 6) (rn rd : RegNum) :
    encodeR op rm shamt rn rd &&& 0xFFE0FC1F = encodeR op 0#5 shamt 0#5 rd := by
  refine (encodeR_and_encodeR op (BitVec.allOnes 11) rm 0#5 shamt (BitVec.allOnes 6) rn 0#5 rd
    (BitVec.allOnes 5)).trans ?_
  simp only [BitVec.and_allOnes, BitVec.and_zero]

theorem encodeR_and_fixedBits_shift (op : BitVec 11) (rm : RegNum) (shamt : BitVec 6) (rn rd : RegNum) :
    encodeR op rm shamt rn rd &&& 0xFFFF0000 = encodeR op rm 0#6 0#5 0#5 := by
  refine (encodeR_and_encodeR op (BitVec.allOnes 11) rm (BitVec.allOnes 5) shamt 0#6 rn 0#5 rd 0#5).trans ?_
  simp only [BitVec.and_allOnes, BitVec.and_zero]

theorem encodeR_and_fixedBits_br (op : BitVec 11) (rm : RegNum) (shamt : BitVec 6) (rn rd : RegNum) :
    encodeR op rm shamt rn rd &&& 0xFFFFFFE0 = encodeR op rm shamt rn 0#5 := by
  refine (encodeR_and_encodeR op (BitVec.allOnes 11) rm (BitVec.allOnes 5) shamt (BitVec.allOnes 6) rn
    (BitVec.allOnes 5) rd 0#5).trans ?_
  simp only [BitVec.and_allOnes, BitVec.and_zero]

theorem encodeI_and_fixedBits (op : BitVec 10) (imm : BitVec 12) (rn rd : RegNum) :
    encodeI op imm rn rd &&& 0xFFC00000 = encodeI op 0#12 0#5 0#5 := by
  refine (encodeI_and_encodeI op (BitVec.allOnes 10) imm 0#12 rn 0#5 rd 0#5).trans ?_
  simp only [BitVec.and_allOnes, BitVec.and_zero]

theorem encodeD_and_fixedBits (op : BitVec 11) (dt : BitVec 9) (rn rt : RegNum) :
    encodeD op dt rn rt &&& 0xFFE00C00 = encodeD op 0#9 0#5 0#5 := by
  have hparts : encodeD op dt rn rt &&& 0xFFE00C00 =
      (op &&& BitVec.allOnes 11) ++ (dt &&& 0#9) ++ (0#2 &&& BitVec.allOnes 2) ++ (rn &&& 0#5) ++ (rt &&& 0#5) := by
    have hmask : (0xFFE00C00 : IWord) = BitVec.allOnes 11 ++ 0#9 ++ BitVec.allOnes 2 ++ 0#5 ++ 0#5 := rfl
    rw [hmask]
    apply BitVec.eq_of_getLsbD_eq
    intro i hi
    simp only [encodeD, BitVec.getLsbD_and, BitVec.getLsbD_append]
    split_ifs <;> rfl
  simp only [BitVec.and_allOnes, BitVec.and_zero] at hparts
  exact hparts

theorem encodeB_and_fixedBits (op : BitVec 6) (addr : BitVec 26) :
    encodeB op addr &&& 0xFC000000 = encodeB op 0#26 := by
  refine (encodeB_and_encodeB op (BitVec.allOnes 6) addr 0#26).trans ?_
  simp only [BitVec.and_allOnes, BitVec.and_zero]

theorem encodeCB_and_fixedBits (op : BitVec 8) (addr : BitVec 19) (rt : RegNum) :
    encodeCB op addr rt &&& 0xFF000000 = encodeCB op 0#19 0#5 := by
  refine (encodeCB_and_encodeCB op (BitVec.allOnes 8) addr 0#19 rt 0#5).trans ?_
  simp only [BitVec.and_allOnes, BitVec.and_zero]

theorem encodeCB_and_fixedBits_bCond (op : BitVec 8) (addr : BitVec 19) (c : BitVec 4) :
    encodeCB op addr ((0 : BitVec 1) ++ c) &&& 0xFF000010 = encodeCB op 0#19 0#5 := by
  have hbit4 : ((0 : BitVec 1) ++ c) &&& 0x10 = 0#5 := by
    revert c
    decide
  refine (encodeCB_and_encodeCB op (BitVec.allOnes 8) addr 0#19 _ 0x10).trans ?_
  rw [hbit4]
  simp only [BitVec.and_allOnes, BitVec.and_zero]

theorem encodeIM_and_fixedBits (op : BitVec 9) (hw : BitVec 2) (imm : BitVec 16) (rd : RegNum) :
    encodeIM op hw imm rd &&& 0xFF800000 = encodeIM op 0#2 0#16 0#5 := by
  refine (encodeIM_and_encodeIM op (BitVec.allOnes 9) hw 0#2 imm 0#16 rd 0#5).trans ?_
  simp only [BitVec.and_allOnes, BitVec.and_zero]

/-! ### Every instruction's row is in the table -/

theorem rowOf_mem (i : Instr) : rowOf i ∈ opcodeTable := by
  unfold rowOf
  cases i with
  | lsl | lsr =>
    simp only [mnemonicOf, encode, fixedBits, encodeR_and_fixedBits_shift]
    decide
  | fcmps | fcmpd =>
    simp only [mnemonicOf, encode, fixedBits, encodeR_and_fixedBits_compare]
    decide
  | br =>
    simp only [mnemonicOf, encode, encodeBr, Params.default, fixedBits, encodeR_and_fixedBits_br]
    decide
  | addi | addis | andi | andis | eori | orri | subi | subis =>
    simp only [mnemonicOf, encode, fixedBits, encodeI_and_fixedBits]
    decide
  | movk | movz =>
    simp only [mnemonicOf, encode, fixedBits, encodeIM_and_fixedBits]
    decide
  | b | bl =>
    simp only [mnemonicOf, encode, fixedBits, encodeB_and_fixedBits]
    decide
  | bCond =>
    simp only [mnemonicOf, encode, fixedBits, encodeCB_and_fixedBits_bCond]
    decide
  | cbnz | cbz =>
    simp only [mnemonicOf, encode, fixedBits, encodeCB_and_fixedBits]
    decide
  | ldur | ldurb | ldurh | ldursw | ldxr | stur | sturb | sturh | sturw | stxr | ldurs | ldurd | sturs | sturd =>
    simp only [mnemonicOf, encode, fixedBits, encodeD_and_fixedBits]
    decide
  | add | adds | and | ands | eor | orr | sub | subs | mul | sdiv | smulh | udiv | umulh | fadds | faddd | fdivs | fdivd
  | fmuls | fmuld | fsubs | fsubd =>
    simp only [mnemonicOf, encode, fixedBits, encodeR_and_fixedBits]
    decide

/-! ### A covered word is the encoding of an instruction of the row -/

/-- A word that the row covers is the encoding, under the defaults, of an instruction whose row it is. -/
def rowFits (r : OpcodeRow) : Prop :=
  ∀ w, r.covers w = true → ∃ i, encode Params.default i = w ∧ rowOf i = r

/-- A covered word agrees with the pattern on every field under the mask. -/
theorem field_of_covers {name : String} {pattern mask w : IWord} {start len : Nat}
    (h : (⟨name, pattern, mask⟩ : OpcodeRow).covers w = true)
    (hmask : mask.extractLsb' start len = BitVec.allOnes len) :
    w.extractLsb' start len = pattern.extractLsb' start len := by
  have hand : w &&& mask = pattern := beq_iff_eq.mp h
  rw [← hand, BitVec.extractLsb'_and, hmask, BitVec.and_allOnes]

/-- An instruction with the row's mnemonic and fixed bits, whose encoding the row covers, has the row. -/
theorem rowOf_eq_of_covers {r : OpcodeRow} {w : IWord} {i : Instr} (h : r.covers w = true)
    (hw : encode Params.default i = w) (hname : mnemonicOf i = r.mnemonic) (hmask : fixedBits i = r.mask) :
    rowOf i = r := by
  have hand : w &&& r.mask = r.pattern := beq_iff_eq.mp h
  rw [rowOf, hw, hname, hmask, hand]

theorem RegisterRow.fits {op : BitVec 11} {mk : RegNum → RegNum → RegNum → Instr} (row : RegisterRow op mk)
    {name : String} {pattern : IWord} (hpattern : pattern = encodeR op 0 0 0 0)
    (hname : ∀ rd rn rm, mnemonicOf (mk rd rn rm) = name) : rowFits ⟨name, pattern, 0xFFE0FC00⟩ := by
  intro w h
  subst hpattern
  have hop : opcode11 w = op := (field_of_covers h rfl).trans (opcode11_encodeR ..)
  have hshamt : fieldShamt w = 0 := (field_of_covers h rfl).trans (fieldShamt_encodeR ..)
  have hok : decodeR Params.default mk w = .ok (mk (fieldRd w) (fieldRn w) (fieldRm w)) := by
    rw [decodeR, hshamt]
    exact checkUnused_true ..
  have hw := row.encodesBack_decodeR rfl hop _ hok
  exact ⟨_, hw, rowOf_eq_of_covers h hw (hname ..) (by cases row <;> rfl)⟩

theorem ShamtRow.fits {op : BitVec 11} {shamt : BitVec 6} {mk : RegNum → RegNum → RegNum → Instr}
    (row : ShamtRow op shamt mk) {name : String} {pattern : IWord} (hpattern : pattern = encodeR op 0 shamt 0 0)
    (hname : ∀ rd rn rm, mnemonicOf (mk rd rn rm) = name) : rowFits ⟨name, pattern, 0xFFE0FC00⟩ := by
  intro w h
  subst hpattern
  have hop : opcode11 w = op := (field_of_covers h rfl).trans (opcode11_encodeR ..)
  have hshamt : fieldShamt w = shamt := (field_of_covers h rfl).trans (fieldShamt_encodeR ..)
  have hw := row.encodesBack_fields (p := Params.default) hop hshamt _ rfl
  exact ⟨_, hw, rowOf_eq_of_covers h hw (hname ..) (by cases row <;> rfl)⟩

theorem FloatCompareRow.fits {op : BitVec 11} {mk : RegNum → RegNum → Instr} (row : FloatCompareRow op mk)
    {name : String} {pattern : IWord} (hpattern : pattern = encodeR op 0 0x08 0 0)
    (hname : ∀ rn rm, mnemonicOf (mk rn rm) = name) : rowFits ⟨name, pattern, 0xFFE0FC1F⟩ := by
  intro w h
  subst hpattern
  have hop : opcode11 w = op := (field_of_covers h rfl).trans (opcode11_encodeR ..)
  have hshamt : fieldShamt w = 0x08 := (field_of_covers h rfl).trans (fieldShamt_encodeR ..)
  have hrd : fieldRd w = 0 := (field_of_covers h rfl).trans (fieldRd_encodeR ..)
  have hok : checkUnused Params.default (fieldRd w == 0) (mk (fieldRn w) (fieldRm w)) =
      .ok (mk (fieldRn w) (fieldRm w)) := by
    rw [hrd]
    exact checkUnused_true ..
  have hw := row.encodesBack_checkUnused rfl hop hshamt _ hok
  exact ⟨_, hw, rowOf_eq_of_covers h hw (hname ..) (by cases row <;> rfl)⟩

theorem ShiftRow.fits {op : BitVec 11} {mk : RegNum → RegNum → BitVec 6 → Instr} (row : ShiftRow op mk)
    {name : String} {pattern : IWord} (hpattern : pattern = encodeR op 0 0 0 0)
    (hname : ∀ rd rn shamt, mnemonicOf (mk rd rn shamt) = name) : rowFits ⟨name, pattern, 0xFFFF0000⟩ := by
  intro w h
  subst hpattern
  have hop : opcode11 w = op := (field_of_covers h rfl).trans (opcode11_encodeR ..)
  have hrm : fieldRm w = 0 := (field_of_covers h rfl).trans (fieldRm_encodeR ..)
  have hok : decodeShift Params.default mk w = .ok (mk (fieldRd w) (fieldRn w) (fieldShamt w)) := by
    rw [decodeShift, hrm]
    exact checkUnused_true ..
  have hw := row.encodesBack_decodeShift rfl hop _ hok
  exact ⟨_, hw, rowOf_eq_of_covers h hw (hname ..) (by cases row <;> rfl)⟩

theorem ImmediateRow.fits {op : BitVec 10} {mk : RegNum → RegNum → BitVec 12 → Instr} (row : ImmediateRow op mk)
    {name : String} {pattern : IWord} (hpattern : pattern = encodeI op 0 0 0)
    (hname : ∀ rd rn imm, mnemonicOf (mk rd rn imm) = name) : rowFits ⟨name, pattern, 0xFFC00000⟩ := by
  intro w h
  subst hpattern
  have hop : opcode10 w = op := (field_of_covers h rfl).trans (opcode10_encodeI ..)
  have hw := row.encodesBack_fields (p := Params.default) hop _ rfl
  exact ⟨_, hw, rowOf_eq_of_covers h hw (hname ..) (by cases row <;> rfl)⟩

theorem DataRow.fits {op : BitVec 11} {mk : RegNum → RegNum → BitVec 9 → Instr} (row : DataRow op mk)
    {name : String} {pattern : IWord} (hpattern : pattern = encodeD op 0 0 0)
    (hname : ∀ rt rn dt, mnemonicOf (mk rt rn dt) = name) : rowFits ⟨name, pattern, 0xFFE00C00⟩ := by
  intro w h
  subst hpattern
  have hop : opcode11 w = op := (field_of_covers h rfl).trans (opcode11_encodeD ..)
  have hzero : fieldOp w = 0 := (field_of_covers h rfl).trans (fieldOp_encodeD ..)
  have hok : decodeD Params.default mk w = .ok (mk (fieldRd w) (fieldRn w) (fieldDt w)) := by
    rw [decodeD, hzero]
    exact checkUnused_true ..
  have hw := row.encodesBack_decodeD rfl hop _ hok
  exact ⟨_, hw, rowOf_eq_of_covers h hw (hname ..) (by cases row <;> rfl)⟩

theorem MoveRow.fits {op : BitVec 9} {mk : RegNum → BitVec 2 → BitVec 16 → Instr} (row : MoveRow op mk)
    {name : String} {pattern : IWord} (hpattern : pattern = encodeIM op 0 0 0)
    (hname : ∀ rd hw imm, mnemonicOf (mk rd hw imm) = name) : rowFits ⟨name, pattern, 0xFF800000⟩ := by
  intro w h
  subst hpattern
  have hop : opcode9 w = op := (field_of_covers h rfl).trans (opcode9_encodeIM ..)
  have hw := row.encodesBack_fields (p := Params.default) hop _ rfl
  exact ⟨_, hw, rowOf_eq_of_covers h hw (hname ..) (by cases row <;> rfl)⟩

theorem JumpRow.fits {op : BitVec 6} {mk : BitVec 26 → Instr} (row : JumpRow op mk)
    {name : String} {pattern : IWord} (hpattern : pattern = encodeB op 0)
    (hname : ∀ addr, mnemonicOf (mk addr) = name) : rowFits ⟨name, pattern, 0xFC000000⟩ := by
  intro w h
  subst hpattern
  have hop : opcode6 w = op := (field_of_covers h rfl).trans (opcode6_encodeB ..)
  have hw := row.encodesBack_fields (p := Params.default) hop _ rfl
  exact ⟨_, hw, rowOf_eq_of_covers h hw (hname ..) (by cases row <;> rfl)⟩

theorem CompareBranchRow.fits {op : BitVec 8} {mk : RegNum → BitVec 19 → Instr} (row : CompareBranchRow op mk)
    {name : String} {pattern : IWord} (hpattern : pattern = encodeCB op 0 0)
    (hname : ∀ rt addr, mnemonicOf (mk rt addr) = name) : rowFits ⟨name, pattern, 0xFF000000⟩ := by
  intro w h
  subst hpattern
  have hop : opcode8 w = op := (field_of_covers h rfl).trans (opcode8_encodeCB ..)
  have hw := row.encodesBack_fields (p := Params.default) hop _ rfl
  exact ⟨_, hw, rowOf_eq_of_covers h hw (hname ..) (by cases row <;> rfl)⟩

theorem bCondRow_fits : rowFits ⟨"B.cond", 0x54000000, 0xFF000010⟩ := by
  intro w h
  have hop : opcode8 w = 0b01010100 := field_of_covers h rfl
  have hbit4 : fieldBit4 w = 0 := field_of_covers h rfl
  have hw : encode Params.default (.bCond (fieldCond w) (fieldCondBrAddr w)) = w := by
    rw [encode, ← hbit4, bit4_append_cond]
    exact encodeCB_of_fields hop
  exact ⟨_, hw, rowOf_eq_of_covers h hw rfl rfl⟩

theorem brRow_fits : rowFits ⟨"BR", 0xD6000000, 0xFFFFFFE0⟩ := by
  intro w h
  have hop : opcode11 w = 0x6B0 := field_of_covers h rfl
  have hrm : fieldRm w = 0 := field_of_covers h rfl
  have hshamt : fieldShamt w = 0 := field_of_covers h rfl
  have hrn : fieldRn w = 0 := field_of_covers h rfl
  have hw : encode Params.default (.br (fieldRd w)) = w := by
    have hword := encodeR_of_fields hop hshamt
    rwa [hrm, hrn] at hword
  exact ⟨_, hw, rowOf_eq_of_covers h hw rfl rfl⟩

/-! ### The table, row by row -/

theorem coreArithRows_fit : ∀ r ∈ coreArithRows, rowFits r := by
  simp only [coreArithRows, List.forall_mem_cons]
  exact
    ⟨RegisterRow.add.fits rfl fun _ _ _ => rfl, ImmediateRow.addi.fits rfl fun _ _ _ => rfl,
      ImmediateRow.addis.fits rfl fun _ _ _ => rfl, RegisterRow.adds.fits rfl fun _ _ _ => rfl,
      RegisterRow.and.fits rfl fun _ _ _ => rfl, ImmediateRow.andi.fits rfl fun _ _ _ => rfl,
      ImmediateRow.andis.fits rfl fun _ _ _ => rfl, RegisterRow.ands.fits rfl fun _ _ _ => rfl,
      RegisterRow.eor.fits rfl fun _ _ _ => rfl, ImmediateRow.eori.fits rfl fun _ _ _ => rfl,
      ShiftRow.lsl.fits rfl fun _ _ _ => rfl, ShiftRow.lsr.fits rfl fun _ _ _ => rfl,
      MoveRow.movk.fits rfl fun _ _ _ => rfl, MoveRow.movz.fits rfl fun _ _ _ => rfl,
      RegisterRow.orr.fits rfl fun _ _ _ => rfl, ImmediateRow.orri.fits rfl fun _ _ _ => rfl,
      RegisterRow.sub.fits rfl fun _ _ _ => rfl, ImmediateRow.subi.fits rfl fun _ _ _ => rfl,
      ImmediateRow.subis.fits rfl fun _ _ _ => rfl, RegisterRow.subs.fits rfl fun _ _ _ => rfl, nofun⟩

theorem branchRows_fit : ∀ r ∈ branchRows, rowFits r := by
  simp only [branchRows, List.forall_mem_cons]
  exact
    ⟨JumpRow.b.fits rfl fun _ => rfl, bCondRow_fits, JumpRow.bl.fits rfl fun _ => rfl, brRow_fits,
      CompareBranchRow.cbnz.fits rfl fun _ _ => rfl, CompareBranchRow.cbz.fits rfl fun _ _ => rfl, nofun⟩

theorem loadStoreRows_fit : ∀ r ∈ loadStoreRows, rowFits r := by
  simp only [loadStoreRows, List.forall_mem_cons]
  exact
    ⟨DataRow.ldur.fits rfl fun _ _ _ => rfl, DataRow.ldurb.fits rfl fun _ _ _ => rfl,
      DataRow.ldurh.fits rfl fun _ _ _ => rfl, DataRow.ldursw.fits rfl fun _ _ _ => rfl,
      DataRow.ldxr.fits rfl fun _ _ _ => rfl, DataRow.stur.fits rfl fun _ _ _ => rfl,
      DataRow.sturb.fits rfl fun _ _ _ => rfl, DataRow.sturh.fits rfl fun _ _ _ => rfl,
      DataRow.sturw.fits rfl fun _ _ _ => rfl, DataRow.stxr.fits rfl fun _ _ _ => rfl, nofun⟩

theorem mulDivRows_fit : ∀ r ∈ mulDivRows, rowFits r := by
  simp only [mulDivRows, List.forall_mem_cons]
  exact
    ⟨ShamtRow.mul.fits rfl fun _ _ _ => rfl, ShamtRow.sdiv.fits rfl fun _ _ _ => rfl,
      ShamtRow.smulh.fits rfl fun _ _ _ => rfl, ShamtRow.udiv.fits rfl fun _ _ _ => rfl,
      ShamtRow.umulh.fits rfl fun _ _ _ => rfl, nofun⟩

theorem floatRows_fit : ∀ r ∈ floatRows, rowFits r := by
  simp only [floatRows, List.forall_mem_cons]
  exact
    ⟨ShamtRow.fadds.fits rfl fun _ _ _ => rfl, ShamtRow.faddd.fits rfl fun _ _ _ => rfl,
      FloatCompareRow.fcmps.fits rfl fun _ _ => rfl, FloatCompareRow.fcmpd.fits rfl fun _ _ => rfl,
      ShamtRow.fdivs.fits rfl fun _ _ _ => rfl, ShamtRow.fdivd.fits rfl fun _ _ _ => rfl,
      ShamtRow.fmuls.fits rfl fun _ _ _ => rfl, ShamtRow.fmuld.fits rfl fun _ _ _ => rfl,
      ShamtRow.fsubs.fits rfl fun _ _ _ => rfl, ShamtRow.fsubd.fits rfl fun _ _ _ => rfl,
      DataRow.ldurs.fits rfl fun _ _ _ => rfl, DataRow.ldurd.fits rfl fun _ _ _ => rfl,
      DataRow.sturs.fits rfl fun _ _ _ => rfl, DataRow.sturd.fits rfl fun _ _ _ => rfl, nofun⟩

theorem opcodeTable_fits {r : OpcodeRow} (hr : r ∈ opcodeTable) : rowFits r := by
  simp only [opcodeTable, List.mem_append] at hr
  rcases hr with (((hr | hr) | hr) | hr) | hr
  · exact coreArithRows_fit r hr
  · exact branchRows_fit r hr
  · exact loadStoreRows_fit r hr
  · exact mulDivRows_fit r hr
  · exact floatRows_fit r hr

/-! ### Words and instructions -/

/-- The default parameters with every condition assigned: the encoding is the same and every instruction decodes. -/
def allConditions : Params := { Params.default with condTable := Vector.replicate 16 (some (.suffix .eq)) }

theorem condAssigned_allConditions (c : BitVec 4) : condAssigned allConditions.condTable c = true := by
  simp [condAssigned, condEntry, allConditions]

/-- No two instructions have the same word. -/
theorem encode_injective {i j : Instr} (h : encode Params.default i = encode Params.default j) : i = j := by
  have hdecodes (k : Instr) : decodeWord allConditions (encode Params.default k) = .ok k := by
    have hsame : encode Params.default k = encode allConditions k := by cases k <;> rfl
    rw [hsame]
    exact decodeOfEncodeIsIdentity allConditions k fun c _ _ => condAssigned_allConditions c
  have hij := (hdecodes i).symm.trans (h ▸ hdecodes j)
  exact Except.ok.inj hij

/-- A covered word decodes to an instruction of the row, where B.cond's condition is assigned (R161). -/
theorem decodeWord_of_covers {r : OpcodeRow} {w : IWord} (hr : r ∈ opcodeTable) (h : r.covers w = true)
    (hcond : r.mnemonic = "B.cond" → (w.extractLsb' 0 4).toNat < 14) :
    ∃ i, decodeWord Params.default w = .ok i ∧ mnemonicOf i = r.mnemonic := by
  obtain ⟨i, rfl, rfl⟩ := opcodeTable_fits hr w h
  refine ⟨i, decodeOfEncodeIsIdentity Params.default i ?_, rfl⟩
  rintro c addr rfl
  have hlt : (fieldCond (encode Params.default (.bCond c addr))).toNat < 14 := hcond rfl
  rw [encode, fieldCond_encodeCB] at hlt
  exact (condAssigned_default c).trans (decide_eq_true hlt)

/-- Settles O56: a word that decodes is an encoding, and an encoding has its row and no other. -/
theorem decodingAgreesWithOpcodeTable : Obligations.DecodingAgreesWithOpcodeTable := by
  refine ⟨fun w i h => ?_, fun w r hr h hcond => decodeWord_of_covers hr h hcond, fun w r q hr hq hrw hqw => ?_⟩
  · have hw : encode Params.default i = w := strictWordIsItsEncoding Params.default w i rfl h
    exact ⟨rowOf i, rowOf_mem i, hw ▸ rowOf_covers i, rfl⟩
  · obtain ⟨i, hi, rfl⟩ := opcodeTable_fits hr w hrw
    obtain ⟨j, hj, rfl⟩ := opcodeTable_fits hq w hqw
    rw [encode_injective (hi.trans hj.symm)]

end Sys2Proof.Machine
end

section
/-! PROOF of O51 (70_reset_and_hazards.md R311 to R313). Memory is the launch ranges written one after another. A write
of bytes changes the addresses it covers and no other, so a byte of a range keeps its value through the ranges after
it, which are disjoint from it; and no other address is ever listed. -/

namespace Sys2Proof.Machine

/-! ### Writing a list of bytes -/

theorem Memory.wf_writeBytes {m : Memory} (a : Nat) (bs : List Byte) (h : Memory.wf m = true) :
    Memory.wf (Memory.writeBytes m a bs) = true := by
  induction bs generalizing m a with
  | nil => exact h
  | cons b t ih => exact ih (a + 1) (Memory.wf_write a b h)

theorem Memory.mem_writeBytes {m : Memory} {a : Nat} {bs : List Byte} {c : Host.Cell}
    (h : c ∈ Memory.writeBytes m a bs) : (a ≤ c.1 ∧ c.1 < a + bs.length) ∨ c ∈ m := by
  induction bs generalizing m a with
  | nil => exact .inr h
  | cons b t ih =>
    rw [List.length_cons]
    rcases ih h with hrange | hold
    · exact .inl (by omega)
    · rcases Memory.mem_write hold with rfl | hold
      · exact .inl (by simp)
      · exact .inr hold

theorem Memory.read_writeBytes_outside {m : Memory} {a b : Nat} {bs : List Byte} (h : Memory.wf m = true)
    (hb : b < a ∨ a + bs.length ≤ b) : Memory.read (Memory.writeBytes m a bs) b = Memory.read m b := by
  induction bs generalizing m a with
  | nil => rfl
  | cons v t ih =>
    rw [List.length_cons] at hb
    have hne : b ≠ a := by omega
    rw [Memory.writeBytes, ih (Memory.wf_write a v h) (by omega), Memory.read_write a b v h, if_neg hne]

theorem Memory.read_writeBytes_inside {m : Memory} {a k : Nat} {bs : List Byte} (h : Memory.wf m = true)
    (hk : k < bs.length) : Memory.read (Memory.writeBytes m a bs) (a + k) = bs[k] := by
  induction bs generalizing m a k with
  | nil => exact absurd hk (Nat.not_lt_zero k)
  | cons v t ih =>
    have hwf := Memory.wf_write a v h
    rw [Memory.writeBytes]
    cases k with
    | zero =>
      have hbefore : a + 0 < a + 1 ∨ a + 1 + t.length ≤ a + 0 := .inl (by omega)
      rw [Memory.read_writeBytes_outside hwf hbefore, Memory.read_write a (a + 0) v h]
      simp
    | succ k =>
      have hnext : a + (k + 1) = a + 1 + k := by omega
      rw [hnext, ih hwf (Nat.lt_of_succ_lt_succ hk), List.getElem_cons_succ]

/-! ### Writing the launch ranges -/

/-- Memory with the launch ranges written into it, in their order. -/
def Memory.place (m : Memory) (rs : List LaunchRange) : Memory :=
  rs.foldl (fun m r => Memory.writeBytes m r.base r.bytes) m

theorem launchMemory_eq_place (rs : List LaunchRange) : launchMemory rs = Memory.place [] rs := rfl

theorem Memory.place_cons (m : Memory) (r : LaunchRange) (rs : List LaunchRange) :
    Memory.place m (r :: rs) = Memory.place (Memory.writeBytes m r.base r.bytes) rs := rfl

theorem Memory.wf_place {m : Memory} (rs : List LaunchRange) (h : Memory.wf m = true) :
    Memory.wf (Memory.place m rs) = true := by
  induction rs generalizing m with
  | nil => exact h
  | cons r rs ih => exact ih (Memory.wf_writeBytes r.base r.bytes h)

theorem Memory.mem_place {m : Memory} {rs : List LaunchRange} {c : Host.Cell} (h : c ∈ Memory.place m rs) :
    (∃ r ∈ rs, r.base ≤ c.1 ∧ c.1 < r.base + r.bytes.length) ∨ c ∈ m := by
  induction rs generalizing m with
  | nil => exact .inr h
  | cons r rs ih =>
    rcases ih h with ⟨q, hq, hrange⟩ | hold
    · exact .inl ⟨q, List.mem_cons_of_mem r hq, hrange⟩
    · rcases Memory.mem_writeBytes hold with hrange | hold
      · exact .inl ⟨r, List.mem_cons_self, hrange⟩
      · exact .inr hold

theorem Memory.read_place_outside {m : Memory} {rs : List LaunchRange} {b : Nat} (h : Memory.wf m = true)
    (hb : ∀ r ∈ rs, b < r.base ∨ r.base + r.bytes.length ≤ b) : Memory.read (Memory.place m rs) b = Memory.read m b := by
  induction rs generalizing m with
  | nil => rfl
  | cons r rs ih =>
    obtain ⟨hr, hrs⟩ := List.forall_mem_cons.mp hb
    rw [Memory.place_cons, ih (Memory.wf_writeBytes r.base r.bytes h) hrs, Memory.read_writeBytes_outside h hr]

/-- A byte of a range lies outside a range disjoint from it. -/
theorem outside_of_disjoint {g r : LaunchRange} (h : (launchRange g).disjoint (launchRange r) = true) {k : Nat}
    (hk : k < g.bytes.length) : g.base + k < r.base ∨ r.base + r.bytes.length ≤ g.base + k := by
  have hcases := of_decide_eq_true h
  simp only [launchRange] at hcases
  omega

theorem Memory.read_place_inside {m : Memory} {rs : List LaunchRange} {g : LaunchRange} {k : Nat}
    (h : Memory.wf m = true) (hdis : rangesDisjoint (rs.map launchRange) = true) (hg : g ∈ rs)
    (hk : k < g.bytes.length) : Memory.read (Memory.place m rs) (g.base + k) = g.bytes[k] := by
  induction rs generalizing m with
  | nil => exact absurd hg List.not_mem_nil
  | cons r rs ih =>
    rw [List.map_cons, rangesDisjoint, Bool.and_eq_true, List.all_eq_true] at hdis
    obtain ⟨hhead, htail⟩ := hdis
    have hwf := Memory.wf_writeBytes r.base r.bytes h
    rw [Memory.place_cons]
    rcases List.mem_cons.mp hg with rfl | hg
    · have hlater : ∀ q ∈ rs, g.base + k < q.base ∨ q.base + q.bytes.length ≤ g.base + k :=
        fun q hq => outside_of_disjoint (hhead _ (List.mem_map_of_mem hq)) hk
      rw [Memory.read_place_outside hwf hlater, Memory.read_writeBytes_inside h hk]
    · exact ih hwf htail hg

/-! ### The launch state -/

/-- The launch state admits the bytes of the launch ranges. -/
theorem Launch.admits_state_iff (l : Launch) (a : Nat) :
    l.state.admits a = true ↔ ∃ g ∈ l.mem, g.base ≤ a ∧ a < g.base + g.bytes.length := by
  rw [State.admits_iff]
  simp [Launch.state, launchRange]

/-- A well-formed record has disjoint ranges, and none reaches past 2^64. -/
theorem ranges_of_launchWellFormed {l : Launch} (h : launchWellFormed l = true) :
    rangesDisjoint (l.mem.map launchRange) = true ∧ ∀ g ∈ l.mem, g.base + g.bytes.length ≤ 2 ^ 64 := by
  simp only [launchWellFormed, Bool.and_eq_true, List.all_eq_true, decide_eq_true_eq] at h
  obtain ⟨⟨⟨⟨⟨⟨hdis, hend⟩, -⟩, -⟩, -⟩, -⟩, -⟩ := h
  exact ⟨hdis, hend⟩

theorem Launch.inv_state {l : Launch} (h : launchWellFormed l = true) : l.state.inv := by
  obtain ⟨-, hend⟩ := ranges_of_launchWellFormed h
  refine ⟨⟨Memory.wf_place l.mem rfl, fun c hc => ?_⟩, invMonitor_of_none rfl, invFault_of_none rfl⟩
  rcases Memory.mem_place hc with ⟨g, hg, hlow, hhigh⟩ | hnil
  · exact ⟨Nat.lt_of_lt_of_le hhigh (hend g hg), (l.admits_state_iff c.1).mpr ⟨g, hg, hlow, hhigh⟩⟩
  · exact absurd hnil List.not_mem_nil

theorem lookupReg_of_find? {m : List (RegNum × Word)} {r : RegNum} {v : Word} (u : Word)
    (h : m.find? (fun e => e.1 == r) = some (r, v)) : lookupReg m r u = v := by
  rw [lookupReg, h]

theorem Launch.readX_state {l : Launch} {r : RegNum} {v : Word} (hr : r ≠ 31)
    (h : l.regs.find? (fun e => e.1 == r) = some (r, v)) : l.state.readX r = v := by
  have hlt : r.toNat < 31 := by bv_omega
  rw [State.readX, dif_pos hlt, Launch.state, Vector.getElem_ofFn]
  simp only [BitVec.ofNat_toNat, BitVec.setWidth_eq]
  exact lookupReg_of_find? _ h

theorem Launch.readD_state {l : Launch} {r : RegNum} {v : Word}
    (h : l.fregs.find? (fun e => e.1 == r) = some (r, v)) : l.state.readD r = v := by
  rw [State.readD, Launch.state, Vector.getElem_ofFn]
  simp only [BitVec.ofNat_toNat, BitVec.setWidth_eq]
  exact lookupReg_of_find? _ h

/-- Settles O51: the fields as the record gives them, the bytes by the disjointness of the ranges. -/
theorem launchStateHoldsTheRecord : Obligations.LaunchStateHoldsTheRecord := by
  intro l hl
  obtain ⟨hdis, -⟩ := ranges_of_launchWellFormed hl
  refine ⟨Launch.inv_state hl, rfl, rfl, rfl, rfl, rfl, rfl, fun f hf => ?_, fun r v hr => Launch.readX_state hr,
    fun r v => Launch.readD_state, fun g hg k hk => ⟨?_, ?_⟩, fun a ha => ?_⟩
  · rw [Launch.state, hf, Option.getD_some]
  · exact (l.admits_state_iff _).mpr ⟨g, hg, by omega, by omega⟩
  · exact Memory.read_place_inside rfl hdis hg hk
  · rw [Bool.eq_false_iff, Ne, l.admits_state_iff]
    rintro ⟨g, hg, hlow, hhigh⟩
    have hout := ha g hg
    omega

end Sys2Proof.Machine
end

section
/-! SUPPORT. IEEE 754 patterns (44_arith_float.md R230 to R233): a pattern is its sign, exponent and fraction; the value
in units of the smallest denormal is the rational number; an infinity lies beyond every finite pattern. -/

namespace Sys2Proof.Machine

/-! ### Formats -/

/-- A format wide enough that MAX, the numbers and the denormals are all there. -/
def FpFormat.proper (f : FpFormat) : Prop := 2 ≤ f.expBits ∧ 1 ≤ f.fracBits

theorem FpFormat.proper_single : FpFormat.single.proper := ⟨by decide, by decide⟩
theorem FpFormat.proper_double : FpFormat.double.proper := ⟨by decide, by decide⟩

theorem FpFormat.proper_of_eq {f : FpFormat} (h : f = .single ∨ f = .double) : f.proper := by
  rcases h with rfl | rfl
  · exact proper_single
  · exact proper_double

section Formats

variable {f : FpFormat}

theorem FpFormat.bias_pos (hf : f.proper) : 0 < f.bias := by
  obtain ⟨hexp, -⟩ := hf
  have hpow : 2 ^ 1 ≤ 2 ^ (f.expBits - 1) := Nat.pow_le_pow_right (by decide) (by omega)
  rw [bias]
  omega

theorem FpFormat.maxExp_eq (hf : f.proper) : f.maxExp = 2 * f.bias + 1 := by
  obtain ⟨hexp, -⟩ := hf
  have hdouble : 2 ^ f.expBits = 2 * 2 ^ (f.expBits - 1) := by
    rw [← Nat.pow_succ']
    congr 1
    omega
  have hpos : 0 < 2 ^ (f.expBits - 1) := Nat.two_pow_pos _
  rw [maxExp, bias]
  omega

theorem FpFormat.maxExp_add_one (f : FpFormat) : f.maxExp + 1 = 2 ^ f.expBits :=
  Nat.sub_add_cancel (Nat.two_pow_pos _)

/-- A number below the sign bit, with the exponent MAX or less. -/
theorem FpFormat.low_lt {e m : Nat} (he : e ≤ f.maxExp) (hm : m < 2 ^ f.fracBits) :
    e * 2 ^ f.fracBits + m < 2 ^ (f.fracBits + f.expBits) :=
  calc e * 2 ^ f.fracBits + m < (e + 1) * 2 ^ f.fracBits := by rw [Nat.succ_mul]; omega
    _ ≤ (f.maxExp + 1) * 2 ^ f.fracBits := Nat.mul_le_mul_right _ (by omega)
    _ = 2 ^ (f.fracBits + f.expBits) := by rw [maxExp_add_one, Nat.pow_add, Nat.mul_comm]

end Formats

/-! ### A pattern is its fields -/

section Fields

variable {f : FpFormat} {low : Nat} (s : Bool)

theorem fpFraction_lt (f : FpFormat) (x : Nat) : fpFraction f x < 2 ^ f.fracBits :=
  Nat.mod_lt _ (Nat.two_pow_pos _)

theorem fpExponent_le_maxExp (f : FpFormat) (x : Nat) : fpExponent f x ≤ f.maxExp := by
  have hlt : fpExponent f x < 2 ^ f.expBits := Nat.mod_lt _ (Nat.two_pow_pos _)
  have hmax := f.maxExp_add_one
  omega

theorem fpFraction_fpWithSign : fpFraction f (fpWithSign f s low) = low % 2 ^ f.fracBits := by
  cases s
  · rw [fpFraction, fpWithSign, if_neg Bool.false_ne_true, Nat.zero_add]
  · rw [fpFraction, fpWithSign, if_pos rfl, Nat.pow_add, Nat.mul_add_mod]

theorem fpExponent_fpWithSign (h : low < 2 ^ (f.fracBits + f.expBits)) :
    fpExponent f (fpWithSign f s low) = low / 2 ^ f.fracBits := by
  rw [Nat.pow_add] at h
  have hlt : low / 2 ^ f.fracBits < 2 ^ f.expBits := Nat.div_lt_of_lt_mul h
  cases s
  · rw [fpExponent, fpWithSign, if_neg Bool.false_ne_true, Nat.zero_add, Nat.mod_eq_of_lt hlt]
  · rw [fpExponent, fpWithSign, if_pos rfl, Nat.pow_add, Nat.mul_add_div (Nat.two_pow_pos _), Nat.add_mod_left,
      Nat.mod_eq_of_lt hlt]

theorem fpSign_fpWithSign (h : low < 2 ^ (f.fracBits + f.expBits)) : fpSign f (fpWithSign f s low) = s := by
  cases s
  · rw [fpSign, fpWithSign, if_neg Bool.false_ne_true, Nat.zero_add, Nat.div_eq_of_lt h]
    rfl
  · rw [fpSign, fpWithSign, if_pos rfl, Nat.add_div_left _ (Nat.two_pow_pos _), Nat.div_eq_of_lt h]
    rfl

theorem fpWithSign_lt (h : low < 2 ^ (f.fracBits + f.expBits)) :
    fpWithSign f s low < 2 ^ (1 + f.expBits + f.fracBits) := by
  have hwidth : 2 ^ (1 + f.expBits + f.fracBits) = 2 * 2 ^ (f.fracBits + f.expBits) := by
    rw [← Nat.pow_succ']
    congr 1
    omega
  rw [fpWithSign, hwidth]
  split <;> omega

/-- The bits below the sign are the exponent and the fraction. -/
theorem fpLow_eq (f : FpFormat) (x : Nat) :
    x % 2 ^ (f.fracBits + f.expBits) = fpExponent f x * 2 ^ f.fracBits + fpFraction f x := by
  rw [Nat.pow_add, Nat.mod_mul, fpExponent, fpFraction, Nat.mul_comm, Nat.add_comm]

theorem fpLow_lt (f : FpFormat) (x : Nat) : x % 2 ^ (f.fracBits + f.expBits) < 2 ^ (f.fracBits + f.expBits) :=
  Nat.mod_lt _ (Nat.two_pow_pos _)

/-- A pattern of the format's width is its sign and the bits below it. -/
theorem fpWithSign_fpSign {x : Nat} (hx : x < 2 ^ (1 + f.expBits + f.fracBits)) :
    fpWithSign f (fpSign f x) (x % 2 ^ (f.fracBits + f.expBits)) = x := by
  have hwidth : 2 ^ (1 + f.expBits + f.fracBits) = 2 ^ (f.fracBits + f.expBits) * 2 := by
    rw [← Nat.pow_succ]
    congr 1
    omega
  have hlt : x / 2 ^ (f.fracBits + f.expBits) < 2 := Nat.div_lt_of_lt_mul (hwidth ▸ hx)
  have hdiv := Nat.div_add_mod x (2 ^ (f.fracBits + f.expBits))
  rw [fpWithSign, fpSign, Nat.mod_eq_of_lt hlt]
  have hcases : x / 2 ^ (f.fracBits + f.expBits) = 0 ∨ x / 2 ^ (f.fracBits + f.expBits) = 1 :=
    Nat.le_one_iff_eq_zero_or_eq_one.mp (Nat.le_of_lt_succ hlt)
  rcases hcases with h | h <;> rw [h] at hdiv ⊢ <;> simpa using hdiv

end Fields

/-! ### The objects -/

theorem fpIsNaN_iff (f : FpFormat) (x : Nat) : fpIsNaN f x = true ↔ fpObject f x = .nan := beq_iff_eq
theorem fpIsInf_iff (f : FpFormat) (x : Nat) : fpIsInf f x = true ↔ fpObject f x = .infinity := beq_iff_eq

section Objects

variable {f : FpFormat} (hf : f.proper) {x : Nat}
include hf

theorem FpFormat.maxExp_ne_zero : f.maxExp ≠ 0 := by
  rw [f.maxExp_eq hf]
  omega

theorem fpObject_eq_nan_iff : fpObject f x = .nan ↔ fpExponent f x = f.maxExp ∧ fpFraction f x ≠ 0 := by
  have hmax := (f.maxExp_ne_zero hf).symm
  unfold fpObject
  split_ifs <;> simp_all

theorem fpObject_eq_infinity_iff : fpObject f x = .infinity ↔ fpExponent f x = f.maxExp ∧ fpFraction f x = 0 := by
  have hmax := (f.maxExp_ne_zero hf).symm
  unfold fpObject
  split_ifs <;> simp_all

omit hf in
theorem fpObject_eq_zero_iff : fpObject f x = .zero ↔ fpExponent f x = 0 ∧ fpFraction f x = 0 := by
  unfold fpObject
  split_ifs <;> simp_all

/-- A pattern has an exponent below MAX, or is an infinity, or is a NaN. -/
theorem fpExponent_ne_maxExp_iff : fpExponent f x ≠ f.maxExp ↔ fpIsNaN f x = false ∧ fpIsInf f x = false := by
  simp only [Bool.eq_false_iff, ne_eq, fpIsNaN_iff, fpIsInf_iff, fpObject_eq_nan_iff hf, fpObject_eq_infinity_iff hf]
  tauto

theorem fpIsNaN_of_finite (h : fpFinite f x) : fpIsNaN f x = false := ((fpExponent_ne_maxExp_iff hf).mp h.2).1
theorem fpIsInf_of_finite (h : fpFinite f x) : fpIsInf f x = false := ((fpExponent_ne_maxExp_iff hf).mp h.2).2

/-- The pattern of exponent MAX with a fraction is a NaN. -/
theorem fpObject_fpWithSign_nan (s : Bool) {m : Nat} (hm : m < 2 ^ f.fracBits) (hpos : m ≠ 0) :
    fpObject f (fpWithSign f s (f.maxExp * 2 ^ f.fracBits + m)) = .nan := by
  rw [fpObject_eq_nan_iff hf, fpExponent_fpWithSign s (f.low_lt (Nat.le_refl _) hm), fpFraction_fpWithSign,
    Nat.mul_comm, Nat.mul_add_div (Nat.two_pow_pos _), Nat.div_eq_of_lt hm, Nat.mul_add_mod, Nat.mod_eq_of_lt hm]
  exact ⟨Nat.add_zero _, hpos⟩

end Objects

/-! ### The value -/

/-- The factor of a sign: true is minus. -/
def signFactor (s : Bool) : ℚ := if s then -1 else 1

theorem abs_signFactor (s : Bool) : |signFactor s| = 1 := by
  cases s <;> simp [signFactor]

theorem signFactor_bne (s t : Bool) : signFactor (s != t) = signFactor s * signFactor t := by
  cases s <;> cases t <;> simp [signFactor]

theorem FpFormat.unitsPerOne_pos (f : FpFormat) : (0 : ℚ) < f.unitsPerOne :=
  Nat.cast_pos.mpr (Nat.two_pow_pos _)

theorem fpValue_eq_signFactor (f : FpFormat) (x : Nat) :
    (fpValue f x : ℚ) = signFactor (fpSign f x) * fpMagnitude f x := by
  rw [fpValue, signFactor]
  split <;> simp

/-- The rational number of a pattern is its value in units (R230, R233). -/
theorem fpRat_eq_fpValue_div {f : FpFormat} (hf : f.proper) (x : Nat) :
    fpRat f x = fpValue f x / f.unitsPerOne := by
  obtain ⟨n, hn⟩ : ∃ n, f.fracBits = n + 1 := ⟨f.fracBits - 1, by have := hf.2; omega⟩
  have hunits : (f.unitsPerOne : ℚ) = 2 ^ f.bias * 2 ^ n := by
    rw [FpFormat.unitsPerOne, hn, ← Nat.add_assoc, Nat.add_sub_cancel, Nat.pow_add]
    push_cast
    rfl
  rw [fpValue_eq_signFactor, hunits, fpRat, fpMagnitude, hn, mul_div_assoc]
  change signFactor (fpSign f x) * _ = _
  congr 1
  by_cases hzero : fpExponent f x = 0
  · rw [if_pos hzero, if_pos hzero, zpow_sub₀ two_ne_zero, zpow_one, zpow_natCast]
    field_simp
    ring
  · obtain ⟨e, he⟩ := Nat.exists_eq_add_one_of_ne_zero hzero
    rw [if_neg hzero, if_neg hzero, he, Nat.add_sub_cancel, zpow_sub₀ two_ne_zero, zpow_natCast, zpow_natCast]
    push_cast
    field_simp
    ring

theorem fpRat_eq_signFactor {f : FpFormat} (hf : f.proper) (x : Nat) :
    fpRat f x = signFactor (fpSign f x) * (fpMagnitude f x / f.unitsPerOne) := by
  rw [fpRat_eq_fpValue_div hf, fpValue_eq_signFactor, mul_div_assoc]

theorem fpRat_eq_zero_iff {f : FpFormat} (hf : f.proper) (x : Nat) : fpRat f x = 0 ↔ fpMagnitude f x = 0 := by
  rw [fpRat_eq_signFactor hf]
  have hsign : signFactor (fpSign f x) ≠ 0 := fun h => by simpa [h] using abs_signFactor (fpSign f x)
  have hunits := f.unitsPerOne_pos.ne'
  simp [hsign, hunits]

theorem natAbs_fpValue (f : FpFormat) (x : Nat) : (fpValue f x).natAbs = fpMagnitude f x := by
  rw [fpValue]
  split <;> simp

/-- The magnitude of an infinity, in the units. -/
theorem fpMagnitude_of_infinity {f : FpFormat} (hf : f.proper) {x : Nat} (h : fpObject f x = .infinity) :
    fpMagnitude f x = 2 ^ f.fracBits * 2 ^ (f.maxExp - 1) := by
  obtain ⟨hexp, hfrac⟩ := (fpObject_eq_infinity_iff hf).mp h
  rw [fpMagnitude, hexp, hfrac, if_neg (f.maxExp_ne_zero hf), Nat.add_zero]

/-- A significand is below twice the first number's, so a magnitude is below its exponent's power. -/
theorem fpMagnitude_lt (f : FpFormat) (x : Nat) : fpMagnitude f x < 2 ^ f.fracBits * 2 ^ fpExponent f x := by
  have hfrac := fpFraction_lt f x
  rw [fpMagnitude]
  by_cases hzero : fpExponent f x = 0
  · rw [if_pos hzero, hzero]
    simpa using hfrac
  · obtain ⟨e, he⟩ := Nat.exists_eq_add_one_of_ne_zero hzero
    rw [if_neg hzero, he, Nat.add_sub_cancel, Nat.pow_succ', ← Nat.mul_assoc]
    exact Nat.mul_lt_mul_of_pos_right (by omega) (Nat.two_pow_pos _)

theorem fpMagnitude_lt_infinity {f : FpFormat} {x : Nat} (h : fpExponent f x ≠ f.maxExp) :
    fpMagnitude f x < 2 ^ f.fracBits * 2 ^ (f.maxExp - 1) := by
  have hle := fpExponent_le_maxExp f x
  exact Nat.lt_of_lt_of_le (fpMagnitude_lt f x)
    (Nat.mul_le_mul_left _ (Nat.pow_le_pow_right (by decide) (by omega)))

end Sys2Proof.Machine
end

section
/-! PROOF of O32 (44_arith_float.md R235, log 14): a draw is a sign and a fraction other than 0, and these are the NaNs.
-/

namespace Sys2Proof.Machine

theorem one_lt_two_pow_fracBits {f : FpFormat} (hf : f.proper) : 1 < 2 ^ f.fracBits :=
  Nat.one_lt_two_pow (by have := hf.2; omega)

theorem fpNaN_fraction_lt {f : FpFormat} (hf : f.proper) (n : Nat) : n % (2 ^ f.fracBits - 1) + 1 < 2 ^ f.fracBits := by
  have hpow := one_lt_two_pow_fracBits hf
  have hmod : n % (2 ^ f.fracBits - 1) < 2 ^ f.fracBits - 1 := Nat.mod_lt _ (by omega)
  omega

theorem fpObject_fpNaN {f : FpFormat} (hf : f.proper) (d : Bool × Nat) : fpObject f (fpNaN f d) = .nan :=
  fpObject_fpWithSign_nan hf d.1 (fpNaN_fraction_lt hf d.2) (Nat.succ_ne_zero _)

theorem fpNaN_lt {f : FpFormat} (hf : f.proper) (d : Bool × Nat) : fpNaN f d < 2 ^ (1 + f.expBits + f.fracBits) :=
  fpWithSign_lt d.1 (f.low_lt (Nat.le_refl _) (fpNaN_fraction_lt hf d.2))

/-- A NaN is the draw of its sign and its fraction less 1. -/
theorem fpNaN_of_nan {f : FpFormat} (hf : f.proper) {x : Nat} (hx : x < 2 ^ (1 + f.expBits + f.fracBits))
    (h : fpObject f x = .nan) : fpNaN f (fpSign f x, fpFraction f x - 1) = x := by
  obtain ⟨hexp, hfrac⟩ := (fpObject_eq_nan_iff hf).mp h
  have hlt := fpFraction_lt f x
  have hdraw : (fpFraction f x - 1) % (2 ^ f.fracBits - 1) + 1 = fpFraction f x := by
    rw [Nat.mod_eq_of_lt (by omega)]
    omega
  rw [fpNaN, hdraw, ← hexp, ← fpLow_eq, fpWithSign_fpSign hx]

/-- Settles O32. -/
theorem everyNaNPatternIsADraw : Obligations.EveryNaNPatternIsADraw := by
  intro f hfmt
  have hf := f.proper_of_eq hfmt
  exact ⟨fun d => ⟨fpObject_fpNaN hf d, fpNaN_lt hf d⟩, fun x hx h => ⟨_, fpNaN_of_nan hf hx h⟩⟩

end Sys2Proof.Machine
end

section
/-! PROOF of O29 (44_arith_float.md R238): the model compares values in units, which are the rationals of R230 and R233
times a constant; an infinity is beyond every finite value; the conditions are a finite table. -/

namespace Sys2Proof.Machine

/-! ### What the comparison answers -/

section Compare

variable {f : FpFormat} {x y : Nat}

theorem fpCompare_eq_unordered_iff : fpCompare f x y = .unordered ↔ fpObject f x = .nan ∨ fpObject f y = .nan := by
  rw [← fpIsNaN_iff, ← fpIsNaN_iff]
  unfold fpCompare
  split_ifs <;> simp_all

/-- Without a NaN the comparison is that of the values. -/
theorem fpCompare_of_not_nan (hx : fpIsNaN f x = false) (hy : fpIsNaN f y = false) :
    (fpCompare f x y = .less ↔ fpValue f x < fpValue f y) ∧
    (fpCompare f x y = .equal ↔ fpValue f x = fpValue f y) ∧
    (fpCompare f x y = .greater ↔ fpValue f y < fpValue f x) := by
  rw [fpCompare, hx, hy, Bool.or_false, if_neg Bool.false_ne_true]
  rcases lt_trichotomy (fpValue f x) (fpValue f y) with h | h | h
  · simp [h, h.ne, h.le]
  · simp [h]
  · simp [h, h.ne', h.not_gt]

end Compare

section Values

variable {f : FpFormat} (hf : f.proper) {x y : Nat}
include hf

theorem fpRat_lt_iff : fpRat f x < fpRat f y ↔ fpValue f x < fpValue f y := by
  rw [fpRat_eq_fpValue_div hf, fpRat_eq_fpValue_div hf, div_lt_div_iff_of_pos_right f.unitsPerOne_pos, Int.cast_lt]

theorem fpRat_eq_iff : fpRat f x = fpRat f y ↔ fpValue f x = fpValue f y := by
  rw [fpRat_eq_fpValue_div hf, fpRat_eq_fpValue_div hf, div_left_inj' f.unitsPerOne_pos.ne', Int.cast_inj]

/-- An infinity is below or above every finite value, as its sign says. -/
theorem fpValue_infinity_finite (hx : fpObject f x = .infinity) (hy : fpFinite f y) :
    if fpSign f x then fpValue f x < fpValue f y else fpValue f y < fpValue f x := by
  have hmag := fpMagnitude_of_infinity hf hx
  have hbeyond := fpMagnitude_lt_infinity hy.2
  have hy' := natAbs_fpValue f y
  cases hs : fpSign f x <;> simp only [fpValue, hs, if_true, Bool.false_eq_true, if_false] at hy' ⊢ <;> omega

theorem fpCompare_infinity_finite (hx : fpObject f x = .infinity) (hy : fpFinite f y) :
    fpCompare f x y = (if fpSign f x then .less else .greater) ∧
    fpCompare f y x = (if fpSign f x then .greater else .less) := by
  have hxn : fpIsNaN f x = false := by rw [fpIsNaN, hx]; rfl
  have hyn := fpIsNaN_of_finite hf hy
  obtain ⟨hless, -, hgreater⟩ := fpCompare_of_not_nan hxn hyn
  obtain ⟨hless', -, hgreater'⟩ := fpCompare_of_not_nan hyn hxn
  have hvalue := fpValue_infinity_finite hf hx hy
  cases hs : fpSign f x
  · rw [if_neg (Bool.eq_false_iff.mp hs)] at hvalue
    exact ⟨hgreater.mpr hvalue, hless'.mpr hvalue⟩
  · rw [if_pos hs] at hvalue
    exact ⟨hless.mpr hvalue, hgreater'.mpr hvalue⟩

theorem fpCompare_infinity_infinity (hx : fpObject f x = .infinity) (hy : fpObject f y = .infinity) :
    fpCompare f x y =
      (if fpSign f x = fpSign f y then .equal else if fpSign f x then .less else .greater) := by
  have hxn : fpIsNaN f x = false := by rw [fpIsNaN, hx]; rfl
  have hyn : fpIsNaN f y = false := by rw [fpIsNaN, hy]; rfl
  have hpos : (0 : Int) < (2 ^ f.fracBits * 2 ^ (f.maxExp - 1) : Nat) := by positivity
  obtain ⟨hless, hequal, hgreater⟩ := fpCompare_of_not_nan hxn hyn
  simp only [fpValue, fpMagnitude_of_infinity hf hx, fpMagnitude_of_infinity hf hy] at hless hequal hgreater
  cases hsx : fpSign f x <;> cases hsy : fpSign f y
  · exact hequal.mpr (by simp [hsx, hsy])
  · exact hgreater.mpr (by simp only [hsx, hsy, if_true, Bool.false_eq_true, if_false]; omega)
  · exact hless.mpr (by simp only [hsx, hsy, if_true, Bool.false_eq_true, if_false]; omega)
  · exact hequal.mpr (by simp [hsx, hsy])

end Values

/-- Settles O29. -/
theorem floatCompareOrdersIeeeValues : Obligations.FloatCompareOrdersIeeeValues := by
  refine ⟨fun f hfmt x y => ?_, fun r c => ?_⟩
  · have hf := f.proper_of_eq hfmt
    refine ⟨fpCompare_eq_unordered_iff, fun hx hy => ?_, fun hx hy => fpCompare_infinity_finite hf hx hy,
      fun hx hy => fpCompare_infinity_infinity hf hx hy⟩
    rw [fpRat_lt_iff hf, fpRat_eq_iff hf, fpRat_lt_iff hf]
    exact fpCompare_of_not_nan (fpIsNaN_of_finite hf hx) (fpIsNaN_of_finite hf hy)
  · cases r <;> cases c <;> decide

end Sys2Proof.Machine
end

section
/-! PROOF of O31 (44_arith_float.md R235): what each operation of the default record answers by the objects of its
operands, first on patterns as numbers, then on the registers' bits. -/

namespace Sys2Proof.Machine

/-! ### Infinities, zeros and negation -/

section Patterns

variable {f : FpFormat}

theorem fpInf_low_lt (f : FpFormat) : f.maxExp * 2 ^ f.fracBits < 2 ^ (f.fracBits + f.expBits) :=
  f.low_lt (Nat.le_refl _) (Nat.two_pow_pos _)

theorem fpRound_lt (f : FpFormat) (num den : Nat) : fpRound f num den < 2 ^ (f.fracBits + f.expBits) :=
  Nat.lt_of_le_of_lt (Nat.min_le_right _ _) (fpInf_low_lt f)

theorem fpSign_fpInf (s : Bool) : fpSign f (fpInf f s) = s := fpSign_fpWithSign s (fpInf_low_lt f)

theorem fpObject_fpInf (hf : f.proper) (s : Bool) : fpObject f (fpInf f s) = .infinity := by
  rw [fpObject_eq_infinity_iff hf, fpInf, fpExponent_fpWithSign s (fpInf_low_lt f), fpFraction_fpWithSign,
    Nat.mul_div_cancel _ (Nat.two_pow_pos _), Nat.mul_mod_left]
  exact ⟨rfl, rfl⟩

theorem fpSign_fpZero (s : Bool) : fpSign f (fpZero f s) = s := fpSign_fpWithSign s (Nat.two_pow_pos _)

theorem fpObject_fpZero (s : Bool) : fpObject f (fpZero f s) = .zero := by
  rw [fpObject_eq_zero_iff, fpZero, fpExponent_fpWithSign s (Nat.two_pow_pos _), fpFraction_fpWithSign,
    Nat.zero_div, Nat.zero_mod]
  exact ⟨rfl, rfl⟩

/-- There is one infinity of each sign. -/
theorem fpInf_fpSign (hf : f.proper) {x : Nat} (hx : x < 2 ^ (1 + f.expBits + f.fracBits))
    (h : fpObject f x = .infinity) : fpInf f (fpSign f x) = x := by
  obtain ⟨hexp, hfrac⟩ := (fpObject_eq_infinity_iff hf).mp h
  have hlow := fpLow_eq f x
  rw [hexp, hfrac, Nat.add_zero] at hlow
  rw [fpInf, ← hlow, fpWithSign_fpSign hx]

theorem fpMagnitude_eq_zero_iff (x : Nat) : fpMagnitude f x = 0 ↔ fpObject f x = .zero := by
  rw [fpObject_eq_zero_iff, fpMagnitude]
  have hpos : 0 < 2 ^ f.fracBits := Nat.two_pow_pos _
  have hpow : 2 ^ (fpExponent f x - 1) ≠ 0 := (Nat.two_pow_pos _).ne'
  split_ifs with hzero
  · simp [hzero]
  · simp only [Nat.mul_eq_zero, hpow, or_false, hzero, false_and, iff_false]
    omega

theorem fpSign_fpNegate (x : Nat) : fpSign f (fpNegate f x) = !fpSign f x := fpSign_fpWithSign _ (fpLow_lt f x)

theorem fpExponent_fpNegate (x : Nat) : fpExponent f (fpNegate f x) = fpExponent f x := by
  rw [fpNegate, fpExponent_fpWithSign _ (fpLow_lt f x), fpLow_eq, Nat.mul_comm, Nat.mul_add_div (Nat.two_pow_pos _),
    Nat.div_eq_of_lt (fpFraction_lt f x), Nat.add_zero]

theorem fpFraction_fpNegate (x : Nat) : fpFraction f (fpNegate f x) = fpFraction f x := by
  rw [fpNegate, fpFraction_fpWithSign, fpLow_eq, Nat.mul_comm, Nat.mul_add_mod, Nat.mod_eq_of_lt (fpFraction_lt f x)]

theorem fpObject_fpNegate (x : Nat) : fpObject f (fpNegate f x) = fpObject f x := by
  rw [fpObject, fpExponent_fpNegate, fpFraction_fpNegate, fpObject]

theorem fpFinite_fpNegate {x : Nat} (h : fpFinite f x) : fpFinite f (fpNegate f x) :=
  ⟨fpWithSign_lt _ (fpLow_lt f x), (fpExponent_fpNegate x).trans_ne h.2⟩

theorem fpValue_fpNegate (x : Nat) : fpValue f (fpNegate f x) = -fpValue f x := by
  rw [fpValue, fpSign_fpNegate, fpMagnitude, fpExponent_fpNegate, fpFraction_fpNegate, ← fpMagnitude, fpValue]
  cases fpSign f x <;> simp

theorem fpRat_fpNegate (hf : f.proper) (x : Nat) : fpRat f (fpNegate f x) = -fpRat f x := by
  rw [fpRat_eq_fpValue_div hf, fpRat_eq_fpValue_div hf, fpValue_fpNegate, Int.cast_neg, neg_div]

end Patterns

/-! ### What an operation answers, by the objects of its operands -/

section Operations

variable {f : FpFormat} {x y : Nat}

theorem fpIsNaN_of_object {o : FpObject} (h : fpObject f x = o) (ho : o ≠ .nan) : fpIsNaN f x = false :=
  beq_eq_false_iff_ne.mpr (h.trans_ne ho)

theorem fpIsInf_of_object {o : FpObject} (h : fpObject f x = o) (ho : o ≠ .infinity) : fpIsInf f x = false :=
  beq_eq_false_iff_ne.mpr (h.trans_ne ho)

theorem fpAdd_of_nan (h : fpObject f x = .nan ∨ fpObject f y = .nan) : fpAdd f x y = none := by
  rw [← fpIsNaN_iff, ← fpIsNaN_iff, ← Bool.or_eq_true] at h
  rw [fpAdd, if_pos h]

theorem fpOperate_of_nan (op : FpOp) (h : fpObject f x = .nan ∨ fpObject f y = .nan) : fpOperate f op x y = none := by
  have hor : (fpIsNaN f x || fpIsNaN f y) = true := by
    rwa [Bool.or_eq_true, fpIsNaN_iff, fpIsNaN_iff]
  cases op with
  | add => exact fpAdd_of_nan h
  | sub => exact fpAdd_of_nan ((fpObject_fpNegate y).symm ▸ h)
  | mul => exact if_pos hor
  | div => exact if_pos hor

theorem fpAdd_of_infinities (hx : fpObject f x = .infinity) (hy : fpObject f y = .infinity) :
    fpAdd f x y = if fpSign f x = fpSign f y then some (fpInf f (fpSign f x)) else none := by
  rw [fpAdd]
  cases hsx : fpSign f x <;> cases hsy : fpSign f y <;> simp [fpIsNaN, fpIsInf, hx, hy]

theorem fpAdd_of_infinity_left (hx : fpObject f x = .infinity) (hnan : fpIsNaN f y = false)
    (hinf : fpIsInf f y = false) : fpAdd f x y = some (fpInf f (fpSign f x)) := by
  rw [fpAdd, hnan, hinf]
  simp [fpIsNaN, fpIsInf, hx]

theorem fpAdd_of_infinity_right (hnan : fpIsNaN f x = false) (hinf : fpIsInf f x = false)
    (hy : fpObject f y = .infinity) : fpAdd f x y = some (fpInf f (fpSign f y)) := by
  rw [fpAdd, hnan, hinf]
  simp [fpIsNaN, fpIsInf, hy]

/-- A product with an infinity is an infinity, but with a zero it is a NaN. -/
theorem fpMul_of_infinity (hinf : fpObject f x = .infinity ∨ fpObject f y = .infinity) (hx : fpObject f x ≠ .nan)
    (hy : fpObject f y ≠ .nan) :
    fpMul f x y = if fpObject f x = .zero ∨ fpObject f y = .zero then none
      else some (fpInf f (fpSign f x != fpSign f y)) := by
  have hnan : (fpIsNaN f x || fpIsNaN f y) = false := by
    simp [fpIsNaN, hx, hy]
  have hor : (fpIsInf f x || fpIsInf f y) = true := by
    rwa [Bool.or_eq_true, fpIsInf_iff, fpIsInf_iff]
  simp only [fpMul, hnan, hor, fpMagnitude_eq_zero_iff, if_true, Bool.false_eq_true, if_false]

theorem fpDiv_of_infinities (hx : fpObject f x = .infinity) (hy : fpObject f y = .infinity) : fpDiv f x y = none := by
  simp [fpDiv, fpIsNaN, fpIsInf, hx, hy]

theorem fpDiv_of_infinity_left (hx : fpObject f x = .infinity) (hnan : fpIsNaN f y = false)
    (hinf : fpIsInf f y = false) : fpDiv f x y = some (fpInf f (fpSign f x != fpSign f y)) := by
  rw [fpDiv, hnan, hinf]
  simp [fpIsNaN, fpIsInf, hx]

theorem fpDiv_of_infinity_right (hnan : fpIsNaN f x = false) (hinf : fpIsInf f x = false)
    (hy : fpObject f y = .infinity) : fpDiv f x y = some (fpZero f (fpSign f x != fpSign f y)) := by
  rw [fpDiv, hnan, hinf]
  simp [fpIsNaN, fpIsInf, hy]

theorem fpDiv_of_zero (hnan : fpIsNaN f x = false) (hinf : fpIsInf f x = false) (hy : fpObject f y = .zero) :
    fpDiv f x y = if fpObject f x = .zero then none else some (fpInf f (fpSign f x != fpSign f y)) := by
  rw [fpDiv, hnan, hinf]
  simp [fpIsNaN, fpIsInf, fpMagnitude_eq_zero_iff, hy]

/-- A sum of finite operands is the rounded sum of the values, or a zero that is minus for two minuses. -/
theorem fpAdd_of_finite (hf : f.proper) (hx : fpFinite f x) (hy : fpFinite f y) :
    fpAdd f x y = if fpValue f x + fpValue f y = 0 then some (fpZero f (fpSign f x && fpSign f y))
      else some (fpWithSign f (decide (fpValue f x + fpValue f y < 0))
        (fpRound f (fpValue f x + fpValue f y).natAbs 1)) := by
  simp [fpAdd, fpIsNaN_of_finite hf hx, fpIsNaN_of_finite hf hy, fpIsInf_of_finite hf hx, fpIsInf_of_finite hf hy]

theorem fpMul_of_finite (hf : f.proper) (hx : fpFinite f x) (hy : fpFinite f y) :
    fpMul f x y = some (fpWithSign f (fpSign f x != fpSign f y)
      (fpRound f (fpMagnitude f x * fpMagnitude f y) f.unitsPerOne)) := by
  simp [fpMul, fpIsNaN_of_finite hf hx, fpIsNaN_of_finite hf hy, fpIsInf_of_finite hf hx, fpIsInf_of_finite hf hy]

theorem fpDiv_of_finite (hf : f.proper) (hx : fpFinite f x) (hy : fpFinite f y) (hne : fpMagnitude f y ≠ 0) :
    fpDiv f x y = some (fpWithSign f (fpSign f x != fpSign f y)
      (fpRound f (fpMagnitude f x * f.unitsPerOne) (fpMagnitude f y))) := by
  simp [fpDiv, fpIsNaN_of_finite hf hx, fpIsNaN_of_finite hf hy, fpIsInf_of_finite hf hx, fpIsInf_of_finite hf hy, hne]

end Operations

/-! ### The default record on bits -/

/-- `fp` is the default record `FP` at the format `f`: its width, and its results, a NaN where there is none. -/
structure IsDefaultRecord {w : Nat} (f : FpFormat) (fp : FpOp → BitVec w → BitVec w → BitVec w) : Prop where
  /-- The format has all its objects. -/
  proper : f.proper
  /-- A register holds a pattern. -/
  width : w = 1 + f.expBits + f.fracBits
  /-- Each result is the operation's, or some NaN. -/
  result : ∀ op a b, ∃ d, fp op a b = BitVec.ofNat w ((fpOperate f op a.toNat b.toNat).getD (fpNaN f d))

theorem isDefaultRecord_single : IsDefaultRecord .single (numerics32 Params.default.fp) :=
  ⟨FpFormat.proper_single, rfl, fun _ _ _ => ⟨_, rfl⟩⟩

theorem isDefaultRecord_double : IsDefaultRecord .double (numerics64 Params.default.fp) :=
  ⟨FpFormat.proper_double, rfl, fun _ _ _ => ⟨_, rfl⟩⟩

section Record

variable {w : Nat} {f : FpFormat} {fp : FpOp → BitVec w → BitVec w → BitVec w} (hfp : IsDefaultRecord f fp)
  {op : FpOp} {a b : BitVec w}
include hfp

theorem IsDefaultRecord.toNat_lt (a : BitVec w) : a.toNat < 2 ^ (1 + f.expBits + f.fracBits) := hfp.width ▸ a.isLt

theorem IsDefaultRecord.fpSign_toNat (a : BitVec w) : fpSign f a.toNat = a.msb := by
  have hlow : w - 1 = f.fracBits + f.expBits := by
    have := hfp.width
    omega
  have hlt := hfp.toNat_lt a
  have hpow : 2 ^ (1 + f.expBits + f.fracBits) = 2 ^ (f.fracBits + f.expBits) * 2 := by
    rw [← Nat.pow_succ]
    congr 1
    omega
  have hdiv : a.toNat / 2 ^ (f.fracBits + f.expBits) < 2 := Nat.div_lt_of_lt_mul (hpow ▸ hlt)
  rw [fpSign, Nat.mod_eq_of_lt hdiv, BitVec.msb_eq_decide, hlow, Bool.beq_eq_decide_eq, decide_eq_decide]
  constructor
  · intro h
    exact (Nat.one_le_div_iff (Nat.two_pow_pos _)).mp h.ge
  · intro h
    exact Nat.le_antisymm (Nat.le_of_lt_succ hdiv) ((Nat.one_le_div_iff (Nat.two_pow_pos _)).mpr h)

/-- A result that the operation gives is the register's pattern. -/
theorem IsDefaultRecord.toNat_of_some {s : Bool} {low : Nat}
    (h : fpOperate f op a.toNat b.toNat = some (fpWithSign f s low)) (hlow : low < 2 ^ (f.fracBits + f.expBits)) :
    (fp op a b).toNat = fpWithSign f s low := by
  obtain ⟨d, hd⟩ := hfp.result op a b
  rw [hd, h, Option.getD_some, BitVec.toNat_ofNat, hfp.width, Nat.mod_eq_of_lt (fpWithSign_lt s hlow)]

theorem IsDefaultRecord.nan_of_none (h : fpOperate f op a.toNat b.toNat = none) :
    fpObject f (fp op a b).toNat = .nan := by
  obtain ⟨d, hd⟩ := hfp.result op a b
  rw [hd, h, Option.getD_none, BitVec.toNat_ofNat, hfp.width, Nat.mod_eq_of_lt (fpNaN_lt hfp.proper d),
    fpObject_fpNaN hfp.proper d]

theorem IsDefaultRecord.msb_of_some {s : Bool} {low : Nat}
    (h : fpOperate f op a.toNat b.toNat = some (fpWithSign f s low)) (hlow : low < 2 ^ (f.fracBits + f.expBits)) :
    (fp op a b).msb = s := by
  rw [← hfp.fpSign_toNat, hfp.toNat_of_some h hlow, fpSign_fpWithSign s hlow]

theorem IsDefaultRecord.isInfinity_of_some {s : Bool} (h : fpOperate f op a.toNat b.toNat = some (fpInf f s)) :
    isInfinity f s (fp op a b) := by
  refine ⟨?_, hfp.msb_of_some h (fpInf_low_lt f)⟩
  rw [hfp.toNat_of_some h (fpInf_low_lt f)]
  exact fpObject_fpInf hfp.proper s

/-- The infinity of the sign of an infinite operand is that operand. -/
theorem IsDefaultRecord.eq_of_infinity {c : BitVec w} (hc : fpObject f c.toNat = .infinity)
    (h : fpOperate f op a.toNat b.toNat = some (fpInf f (fpSign f c.toNat))) : fp op a b = c := by
  apply BitVec.eq_of_toNat_eq
  rw [hfp.toNat_of_some h (fpInf_low_lt f)]
  exact fpInf_fpSign hfp.proper (hfp.toNat_lt c) hc

/-- The zero of a sign is the pattern of that sign alone. -/
theorem IsDefaultRecord.eq_of_zero {s : Bool} (h : fpOperate f op a.toNat b.toNat = some (fpZero f s)) :
    fp op a b = if s then BitVec.intMin w else 0 := by
  apply BitVec.eq_of_toNat_eq
  rw [hfp.toNat_of_some h (Nat.two_pow_pos _)]
  have hlow : w - 1 = f.fracBits + f.expBits := by
    have := hfp.width
    omega
  have hpos : 0 < w := by
    have := hfp.width
    omega
  cases s
  · rfl
  · rw [if_pos rfl, BitVec.toNat_intMin_of_pos hpos, hlow, fpWithSign, if_pos rfl, Nat.add_zero]

/-! ### The three parts of the statement -/

theorem IsDefaultRecord.givesNaN : givesNaN f fp := by
  intro a b obj
  refine ⟨fun op h => hfp.nan_of_none (fpOperate_of_nan op h), fun ha hb => hfp.nan_of_none ?_,
    fun ha hb => ⟨hfp.nan_of_none (fpDiv_of_infinities ha hb), fun hs => hfp.nan_of_none ?_,
      fun hs => hfp.nan_of_none ?_⟩, fun ha hb => ?_⟩
  · exact (fpDiv_of_zero (fpIsNaN_of_object ha (by decide)) (fpIsInf_of_object ha (by decide)) hb).trans (if_pos ha)
  · refine (fpAdd_of_infinities ha ((fpObject_fpNegate _).trans hb)).trans (if_neg ?_)
    rw [fpSign_fpNegate, hfp.fpSign_toNat, hfp.fpSign_toNat, hs]
    exact (Bool.not_ne_self b.msb).symm
  · refine (fpAdd_of_infinities ha hb).trans (if_neg ?_)
    rwa [hfp.fpSign_toNat, hfp.fpSign_toNat]
  · have ha' := ha.trans_ne (by decide : FpObject.zero ≠ .nan)
    have hb' := hb.trans_ne (by decide : FpObject.infinity ≠ .nan)
    exact ⟨hfp.nan_of_none ((fpMul_of_infinity (.inr hb) ha' hb').trans (if_pos (.inl ha))),
      hfp.nan_of_none ((fpMul_of_infinity (.inl hb) hb' ha').trans (if_pos (.inr ha)))⟩

/-- An infinity with a finite operand. -/
theorem IsDefaultRecord.infinity_finite (ha : fpObject f a.toNat = .infinity) (hb : fpFinite f b.toNat) :
    fp .add a b = a ∧ fp .add b a = a ∧ fp .sub a b = a ∧ isInfinity f (!a.msb) (fp .sub b a) ∧
      isInfinity f (a.msb ^^ b.msb) (fp .div a b) ∧ fpObject f (fp .div b a).toNat = .zero ∧
      (fp .div b a).msb = (a.msb ^^ b.msb) := by
  have hnan := fpIsNaN_of_finite hfp.proper hb
  have hinf := fpIsInf_of_finite hfp.proper hb
  have hneg := fpFinite_fpNegate hb
  have hsub : fpOperate f .sub b.toNat a.toNat = some (fpInf f (!a.msb)) := by
    refine (fpAdd_of_infinity_right hnan hinf ((fpObject_fpNegate _).trans ha)).trans ?_
    rw [fpSign_fpNegate, hfp.fpSign_toNat]
  have hdiv : fpOperate f .div a.toNat b.toNat = some (fpInf f (a.msb ^^ b.msb)) := by
    refine (fpDiv_of_infinity_left ha hnan hinf).trans ?_
    rw [hfp.fpSign_toNat, hfp.fpSign_toNat]
  have hzero : fpOperate f .div b.toNat a.toNat = some (fpZero f (a.msb ^^ b.msb)) := by
    refine (fpDiv_of_infinity_right hnan hinf ha).trans ?_
    rw [hfp.fpSign_toNat, hfp.fpSign_toNat, Bool.xor_comm]
  refine ⟨hfp.eq_of_infinity ha (fpAdd_of_infinity_left ha hnan hinf),
    hfp.eq_of_infinity ha (fpAdd_of_infinity_right hnan hinf ha),
    hfp.eq_of_infinity ha (fpAdd_of_infinity_left ha (fpIsNaN_of_finite hfp.proper hneg)
      (fpIsInf_of_finite hfp.proper hneg)),
    hfp.isInfinity_of_some hsub, hfp.isInfinity_of_some hdiv, ?_, hfp.msb_of_some hzero (Nat.two_pow_pos _)⟩
  rw [hfp.toNat_of_some hzero (Nat.two_pow_pos _)]
  exact fpObject_fpZero _

theorem IsDefaultRecord.givesInfinity : givesInfinity f fp := by
  intro a b obj
  refine ⟨hfp.infinity_finite, fun ha hb => ⟨fun hs => hfp.eq_of_infinity ha ?_, fun hs => hfp.eq_of_infinity ha ?_⟩,
    fun ha hnan hzero => ⟨hfp.isInfinity_of_some ?_, hfp.isInfinity_of_some ?_⟩,
    fun ha hb => hfp.isInfinity_of_some ?_⟩
  · refine (fpAdd_of_infinities ha hb).trans (if_pos ?_)
    rwa [hfp.fpSign_toNat, hfp.fpSign_toNat]
  · refine (fpAdd_of_infinities ha ((fpObject_fpNegate _).trans hb)).trans (if_pos ?_)
    rw [fpSign_fpNegate, hfp.fpSign_toNat, hfp.fpSign_toNat]
    exact Bool.eq_not_of_ne hs
  · have ha' := ha.trans_ne (by decide : FpObject.infinity ≠ .nan)
    have hor := not_or_intro (ha.trans_ne (by decide : FpObject.infinity ≠ .zero)) hzero
    refine (fpMul_of_infinity (.inl ha) ha' hnan).trans ((if_neg hor).trans ?_)
    rw [hfp.fpSign_toNat, hfp.fpSign_toNat]
  · have ha' := ha.trans_ne (by decide : FpObject.infinity ≠ .nan)
    have hor := not_or_intro hzero (ha.trans_ne (by decide : FpObject.infinity ≠ .zero))
    refine (fpMul_of_infinity (.inr ha) hnan ha').trans ((if_neg hor).trans ?_)
    rw [hfp.fpSign_toNat, hfp.fpSign_toNat, Bool.xor_comm]
  · have hkinds : fpObject f a.toNat ≠ .nan ∧ fpObject f a.toNat ≠ .infinity ∧ fpObject f a.toNat ≠ .zero := by
      rcases ha with ha | ha <;> exact ⟨ha.trans_ne (by decide), ha.trans_ne (by decide), ha.trans_ne (by decide)⟩
    obtain ⟨hnan, hinf, hzero⟩ := hkinds
    refine (fpDiv_of_zero (fpIsNaN_of_object rfl hnan) (fpIsInf_of_object rfl hinf) hb).trans ((if_neg hzero).trans ?_)
    rw [hfp.fpSign_toNat, hfp.fpSign_toNat]

theorem IsDefaultRecord.givesSigns : givesSigns f fp := by
  intro a b ha hb
  have hf := hfp.proper
  have hneg := fpFinite_fpNegate hb
  refine ⟨fun hsum => hfp.eq_of_zero ?_, fun heq => hfp.eq_of_zero ?_, ?_, fun hne => ?_⟩
  · have hvalue : fpValue f a.toNat + fpValue f b.toNat = 0 := by
      rw [← eq_neg_iff_add_eq_zero, ← fpValue_fpNegate, ← fpRat_eq_iff hf, fpRat_fpNegate hf]
      exact eq_neg_of_add_eq_zero_left hsum
    refine (fpAdd_of_finite hf ha hb).trans ((if_pos hvalue).trans ?_)
    rw [hfp.fpSign_toNat, hfp.fpSign_toNat]
  · have hvalue : fpValue f a.toNat + fpValue f (fpNegate f b.toNat) = 0 := by
      rw [fpValue_fpNegate, (fpRat_eq_iff hf).mp heq, add_neg_cancel]
    refine (fpAdd_of_finite hf ha hneg).trans ((if_pos hvalue).trans ?_)
    rw [fpSign_fpNegate, hfp.fpSign_toNat, hfp.fpSign_toNat]
  · rw [hfp.msb_of_some (op := .mul) (fpMul_of_finite hf ha hb) (fpRound_lt ..), hfp.fpSign_toNat, hfp.fpSign_toNat]
  · have hmag : fpMagnitude f b.toNat ≠ 0 := (fpRat_eq_zero_iff hf b.toNat).not.mp hne
    rw [hfp.msb_of_some (op := .div) (fpDiv_of_finite hf ha hb hmag) (fpRound_lt ..), hfp.fpSign_toNat,
      hfp.fpSign_toNat]

end Record

/-- Settles O31. -/
theorem floatSpecialOperands : Obligations.FloatSpecialOperands := by
  have hsingle := isDefaultRecord_single
  have hdouble := isDefaultRecord_double
  exact ⟨⟨hsingle.givesNaN, hsingle.givesInfinity, hsingle.givesSigns⟩,
    hdouble.givesNaN, hdouble.givesInfinity, hdouble.givesSigns⟩

end Sys2Proof.Machine
end

section
/-! PROOF of O30 (44_arith_float.md R235). The magnitude `num / den` of an exact result, in units of the smallest
denormal, is rounded on the grid of the multiples of `2 ^ k`, where k places it below twice the first significand. The
finite magnitudes are that grid, but for smaller ones that lie below the grid's start; so the nearest of the grid is the
nearest of all. Each operation's exact result is such a fraction. -/

namespace Sys2Proof.Machine

/-! ### Rounding to the nearest number -/

theorem natCast_div_eq_add (num den : Nat) (hden : 0 < den) :
    (num : ℚ) / den = (num / den : Nat) + ((num % den : Nat) : ℚ) / den := by
  have hcast : (num : ℚ) = den * (num / den : Nat) + (num % den : Nat) := by
    exact_mod_cast (Nat.div_add_mod num den).symm
  have hne : (den : ℚ) ≠ 0 := by positivity
  field_simp
  linarith

/-- The answer is at most a half away, and where it is a half away it is even. -/
theorem roundNearestEven_near (num den : Nat) (hden : 0 < den) :
    |(roundNearestEven num den : ℚ) - num / den| ≤ 1 / 2 ∧
    (|(roundNearestEven num den : ℚ) - num / den| = 1 / 2 → roundNearestEven num den % 2 = 0) := by
  have hpos : (0 : ℚ) < den := Nat.cast_pos.mpr hden
  have hrest : (0 : ℚ) ≤ (num % den : Nat) / den := by positivity
  have hone : ((num % den : Nat) : ℚ) / den < 1 := by
    rw [div_lt_one hpos, Nat.cast_lt]
    exact Nat.mod_lt _ hden
  have htie : ((num % den : Nat) : ℚ) / den = 1 / 2 ↔ 2 * (num % den) = den := by
    rw [div_eq_iff hpos.ne', ← Nat.cast_inj (R := ℚ)]
    push_cast
    constructor <;> intro h <;> linarith
  have hbelow : ((num % den : Nat) : ℚ) / den ≤ 1 / 2 ↔ 2 * (num % den) ≤ den := by
    rw [div_le_iff₀ hpos, ← Nat.cast_le (α := ℚ)]
    push_cast
    constructor <;> intro h <;> linarith
  rw [natCast_div_eq_add num den hden, roundNearestEven]
  by_cases hup : 2 * (num % den) > den ∨ 2 * (num % den) = den ∧ num / den % 2 = 1
  · have hhalf : 1 / 2 ≤ ((num % den : Nat) : ℚ) / den := by
      rcases hup with h | h
      · exact le_of_not_ge fun hle => absurd (hbelow.mp hle) (by omega)
      · exact (htie.mpr h.1).ge
    have habs : |((num / den + 1 : Nat) : ℚ) - ((num / den : Nat) + ((num % den : Nat) : ℚ) / den)| =
        1 - ((num % den : Nat) : ℚ) / den := by
      rw [abs_of_nonneg] <;> push_cast <;> linarith
    simp only [if_pos hup, habs]
    refine ⟨by linarith, fun h => ?_⟩
    have := htie.mp (by linarith)
    omega
  · have habs : |((num / den : Nat) : ℚ) - ((num / den : Nat) + ((num % den : Nat) : ℚ) / den)| =
        ((num % den : Nat) : ℚ) / den := by
      rw [sub_add_cancel_left, abs_neg, abs_of_nonneg hrest]
    simp only [if_neg hup, habs]
    refine ⟨hbelow.mpr (by omega), fun h => ?_⟩
    have := htie.mp h
    omega

/-- A number at most a half away is nearest; where another is as near, it is a half away. -/
theorem abs_sub_le_of_near {q n : Nat} {x : ℚ} (h : |(q : ℚ) - x| ≤ 1 / 2) :
    |(q : ℚ) - x| ≤ |(n : ℚ) - x| ∧ (|(n : ℚ) - x| = |(q : ℚ) - x| → n ≠ q → |(q : ℚ) - x| = 1 / 2) := by
  by_cases hnq : n = q
  · subst hnq
    exact ⟨le_refl _, fun _ hne => absurd rfl hne⟩
  · have hapart : (1 : ℚ) ≤ |(n : ℚ) - q| := by
      have hint : (1 : ℤ) ≤ |(n : ℤ) - q| := Int.one_le_abs (by omega)
      exact_mod_cast hint
    have htriangle : |(n : ℚ) - q| ≤ |(n : ℚ) - x| + |(q : ℚ) - x| := by
      rw [abs_sub_comm (q : ℚ) x]
      exact abs_sub_le _ _ _
    exact ⟨by linarith, fun heq _ => by linarith⟩

/-! ### The scale and the significand -/

/-- The significand to which the magnitude `num / den` rounds. -/
def fpSignificand (f : FpFormat) (num den : Nat) : Nat := roundNearestEven num (den * 2 ^ fpScale f num den)

theorem fpRound_eq_min (f : FpFormat) (num den : Nat) :
    fpRound f num den =
      min (fpScale f num den * 2 ^ f.fracBits + fpSignificand f num den) (f.maxExp * 2 ^ f.fracBits) := rfl

/-- The magnitude `num / den` in units of the last place of its significand. -/
def fpScaled (f : FpFormat) (num den : Nat) : ℚ := num / (den * 2 ^ fpScale f num den : Nat)

section Scale

variable {f : FpFormat} {num den : Nat} (hden : 0 < den)
include hden

theorem fpScaled_mul : fpScaled f num den * 2 ^ fpScale f num den = num / den := by
  have hne : (den : ℚ) ≠ 0 := by positivity
  rw [fpScaled]
  push_cast
  field_simp

theorem fpScaled_lt : fpScaled f num den < 2 ^ (f.fracBits + 1) := by
  have hfloor : num / den + 1 ≤ 2 ^ (f.fracBits + 1) * 2 ^ fpScale f num den :=
    calc num / den + 1 ≤ 2 ^ ((num / den).log2 + 1) := Nat.lt_log2_self
      _ ≤ 2 ^ (f.fracBits + 1 + fpScale f num den) :=
        Nat.pow_le_pow_right (by decide) (by rw [fpScale]; omega)
      _ = _ := Nat.pow_add ..
  have hnum : num < den * (2 ^ (f.fracBits + 1) * 2 ^ fpScale f num den) :=
    Nat.lt_of_lt_of_le (Nat.lt_mul_div_succ num hden) (Nat.mul_le_mul_left den hfloor)
  rw [fpScaled, div_lt_iff₀ (Nat.cast_pos.mpr (Nat.mul_pos hden (Nat.two_pow_pos _)))]
  have hcast : (num : ℚ) < (den * (2 ^ (f.fracBits + 1) * 2 ^ fpScale f num den) : Nat) := Nat.cast_lt.mpr hnum
  push_cast at hcast ⊢
  linarith

theorem le_fpScaled (hk : fpScale f num den ≠ 0) : 2 ^ f.fracBits ≤ fpScaled f num den := by
  have hlog : (num / den).log2 = f.fracBits + fpScale f num den := by
    rw [fpScale] at hk ⊢
    omega
  have hne : num / den ≠ 0 := by
    intro hzero
    rw [fpScale, hzero, Nat.log2_zero] at hk
    omega
  have hfloor : 2 ^ (f.fracBits + fpScale f num den) ≤ num / den := hlog ▸ Nat.log2_self_le hne
  have hnum : 2 ^ (f.fracBits + fpScale f num den) * den ≤ num := (Nat.le_div_iff_mul_le hden).mp hfloor
  rw [fpScaled, le_div_iff₀ (Nat.cast_pos.mpr (Nat.mul_pos hden (Nat.two_pow_pos _)))]
  have hcast : ((2 ^ (f.fracBits + fpScale f num den) * den : Nat) : ℚ) ≤ num := Nat.cast_le.mpr hnum
  push_cast [pow_add] at hcast ⊢
  linarith

theorem fpSignificand_near : |(fpSignificand f num den : ℚ) - fpScaled f num den| ≤ 1 / 2 :=
  (roundNearestEven_near num _ (Nat.mul_pos hden (Nat.two_pow_pos _))).1

theorem fpSignificand_even (h : |(fpSignificand f num den : ℚ) - fpScaled f num den| = 1 / 2) :
    fpSignificand f num den % 2 = 0 :=
  (roundNearestEven_near num _ (Nat.mul_pos hden (Nat.two_pow_pos _))).2 h

theorem fpSignificand_le : fpSignificand f num den ≤ 2 ^ (f.fracBits + 1) := by
  obtain ⟨-, hnear⟩ := abs_le.mp (fpSignificand_near (f := f) (num := num) hden)
  have hlt := fpScaled_lt (f := f) (num := num) hden
  have hcast : (fpSignificand f num den : ℚ) < (2 ^ (f.fracBits + 1) + 1 : Nat) := by
    push_cast
    linarith
  exact Nat.le_of_lt_succ (Nat.cast_lt.mp hcast)

theorem le_fpSignificand (hk : fpScale f num den ≠ 0) : 2 ^ f.fracBits ≤ fpSignificand f num den := by
  obtain ⟨hnear, -⟩ := abs_le.mp (fpSignificand_near (f := f) (num := num) hden)
  have hle := le_fpScaled hden hk
  have hcast : ((2 ^ f.fracBits : Nat) : ℚ) < (fpSignificand f num den + 1 : Nat) := by
    push_cast
    linarith
  exact Nat.le_of_lt_succ (Nat.cast_lt.mp hcast)

end Scale

/-! ### The finite magnitudes -/

/-- The magnitude of a scale and a significand, where the fields hold them. -/
theorem fpMagnitude_fpWithSign {f : FpFormat} (s : Bool) {k q : Nat}
    (hlow : k * 2 ^ f.fracBits + q < 2 ^ (f.fracBits + f.expBits)) (hq : q ≤ 2 ^ (f.fracBits + 1))
    (hk : k ≠ 0 → 2 ^ f.fracBits ≤ q) : fpMagnitude f (fpWithSign f s (k * 2 ^ f.fracBits + q)) = q * 2 ^ k := by
  have hpos : 0 < 2 ^ f.fracBits := Nat.two_pow_pos _
  have hfields (e m : Nat) (hm : m < 2 ^ f.fracBits) (heq : k * 2 ^ f.fracBits + q = 2 ^ f.fracBits * e + m) :
      fpMagnitude f (fpWithSign f s (k * 2 ^ f.fracBits + q)) =
        if e = 0 then m else (2 ^ f.fracBits + m) * 2 ^ (e - 1) := by
    rw [fpMagnitude, fpExponent_fpWithSign s hlow, fpFraction_fpWithSign, heq, Nat.mul_add_div hpos,
      Nat.div_eq_of_lt hm, Nat.add_zero, Nat.mul_add_mod, Nat.mod_eq_of_lt hm]
  rw [Nat.pow_succ] at hq
  rcases Nat.lt_or_ge q (2 ^ f.fracBits) with hsmall | hlarge
  · have hzero : k = 0 := by
      by_contra hne
      have := hk hne
      omega
    rw [hfields 0 q hsmall (by rw [hzero]; ring), if_pos rfl, hzero, Nat.pow_zero, Nat.mul_one]
  · obtain ⟨m, rfl⟩ := Nat.exists_eq_add_of_le hlarge
    rcases Nat.lt_or_ge m (2 ^ f.fracBits) with hm | hm
    · rw [hfields (k + 1) m hm (by ring), if_neg (Nat.succ_ne_zero k), Nat.add_sub_cancel]
    · have htop : m = 2 ^ f.fracBits := by omega
      rw [hfields (k + 2) 0 hpos (by rw [htop]; ring), if_neg (Nat.succ_ne_zero _), htop,
        (by omega : k + 2 - 1 = k + 1), Nat.pow_succ]
      ring

/-- A magnitude is on the grid of the multiples of `2 ^ k`, or below the first significand of that grid. -/
theorem fpMagnitude_on_grid (f : FpFormat) (x k : Nat) :
    (∃ n, fpMagnitude f x = n * 2 ^ k) ∨ (k ≠ 0 ∧ fpMagnitude f x < 2 ^ f.fracBits * 2 ^ k) := by
  rcases Nat.eq_zero_or_pos k with hk | hk
  · exact .inl ⟨fpMagnitude f x, by rw [hk, Nat.pow_zero, Nat.mul_one]⟩
  · rcases Nat.lt_or_ge k (fpExponent f x) with he | he
    · refine .inl ⟨(2 ^ f.fracBits + fpFraction f x) * 2 ^ (fpExponent f x - 1 - k), ?_⟩
      rw [fpMagnitude, if_neg (by omega), Nat.mul_assoc, ← Nat.pow_add, Nat.sub_add_cancel (by omega)]
    · exact .inr ⟨hk.ne', Nat.lt_of_lt_of_le (fpMagnitude_lt f x)
        (Nat.mul_le_mul_left _ (Nat.pow_le_pow_right (by decide) he))⟩

section Nearest

variable {f : FpFormat} {num den : Nat} (hden : 0 < den)
include hden

/-- The rounded magnitude is nearest on the grid, and an even significand where another multiple is as near. -/
theorem rounded_nearest_grid (n : Nat) :
    |((fpSignificand f num den * 2 ^ fpScale f num den : Nat) : ℚ) - num / den| ≤
      |((n * 2 ^ fpScale f num den : Nat) : ℚ) - num / den| ∧
    (|((n * 2 ^ fpScale f num den : Nat) : ℚ) - num / den| =
        |((fpSignificand f num den * 2 ^ fpScale f num den : Nat) : ℚ) - num / den| →
      n * 2 ^ fpScale f num den ≠ fpSignificand f num den * 2 ^ fpScale f num den →
      fpSignificand f num den % 2 = 0) := by
  have hpos : (0 : ℚ) < 2 ^ fpScale f num den := by positivity
  have hscaled (n : Nat) : |((n * 2 ^ fpScale f num den : Nat) : ℚ) - num / den| =
      |(n : ℚ) - fpScaled f num den| * 2 ^ fpScale f num den := by
    rw [← fpScaled_mul (f := f) hden, Nat.cast_mul, Nat.cast_pow, Nat.cast_ofNat, ← sub_mul, abs_mul, abs_of_pos hpos]
  obtain ⟨hle, hhalf⟩ := abs_sub_le_of_near (n := n) (fpSignificand_near (f := f) (num := num) hden)
  rw [hscaled, hscaled]
  refine ⟨mul_le_mul_of_nonneg_right hle hpos.le, fun heq hne => fpSignificand_even hden (hhalf ?_ ?_)⟩
  · exact mul_right_cancel₀ hpos.ne' heq
  · rintro rfl
    exact hne rfl

/-- The rounded magnitude is nearest among all magnitudes, and an even significand where another is as near. -/
theorem rounded_nearest (x : Nat) :
    |((fpSignificand f num den * 2 ^ fpScale f num den : Nat) : ℚ) - num / den| ≤ |(fpMagnitude f x : ℚ) - num / den| ∧
    (|(fpMagnitude f x : ℚ) - num / den| =
        |((fpSignificand f num den * 2 ^ fpScale f num den : Nat) : ℚ) - num / den| →
      fpMagnitude f x ≠ fpSignificand f num den * 2 ^ fpScale f num den → fpSignificand f num den % 2 = 0) := by
  rcases fpMagnitude_on_grid f x (fpScale f num den) with ⟨n, hn⟩ | ⟨hk, hlt⟩
  · rw [hn]
    exact rounded_nearest_grid hden n
  · have hpos : (0 : ℚ) < 2 ^ fpScale f num den := by positivity
    have hstart : ((2 ^ f.fracBits * 2 ^ fpScale f num den : Nat) : ℚ) ≤ num / den := by
      rw [← fpScaled_mul (f := f) hden, Nat.cast_mul, Nat.cast_pow, Nat.cast_pow, Nat.cast_ofNat]
      exact mul_le_mul_of_nonneg_right (le_fpScaled hden hk) hpos.le
    have hbelow : (fpMagnitude f x : ℚ) < (2 ^ f.fracBits * 2 ^ fpScale f num den : Nat) := Nat.cast_lt.mpr hlt
    obtain ⟨hle, -⟩ := rounded_nearest_grid (f := f) (num := num) hden (2 ^ f.fracBits)
    rw [abs_of_nonpos (sub_nonpos.mpr hstart)] at hle
    have hstrict : |((fpSignificand f num den * 2 ^ fpScale f num den : Nat) : ℚ) - num / den| <
        |(fpMagnitude f x : ℚ) - num / den| := by
      rw [abs_of_neg (by linarith : (fpMagnitude f x : ℚ) - num / den < 0)]
      linarith
    exact ⟨hstrict.le, fun heq _ => absurd heq hstrict.ne'⟩

end Nearest

end Sys2Proof.Machine
end

section
/-! PROOF of O30, continued: where the rounding overflows, the rounded pattern of a fraction, and the four operations.
-/

namespace Sys2Proof.Machine

/-! ### Overflow -/

section Overflow

variable {f : FpFormat} {num den : Nat}

/-- The threshold of `roundsTo` in units: half a unit in the last place above the largest significand of the largest
scale. -/
theorem threshold_mul_unitsPerOne (hf : f.proper) :
    (2 - 1 / 2 ^ (f.fracBits + 1)) * 2 ^ f.bias * (f.unitsPerOne : ℚ) =
      (2 ^ (f.fracBits + 1) - 1 / 2) * 2 ^ (f.maxExp - 2) := by
  obtain ⟨b, hb⟩ := Nat.exists_eq_add_one_of_ne_zero (f.bias_pos hf).ne'
  obtain ⟨n, hn⟩ : ∃ n, f.fracBits = n + 1 := Nat.exists_eq_add_one_of_ne_zero (by have := hf.2; omega)
  have hmax : f.maxExp - 2 = 2 * b + 1 := by
    rw [f.maxExp_eq hf, hb]
    omega
  rw [hmax, FpFormat.unitsPerOne, hb, hn, (by omega : b + 1 + (n + 1) - 1 = b + 1 + n)]
  push_cast
  field_simp
  ring

/-- Below the largest scale a rounded magnitude and an exact one lie below the threshold. -/
theorem below_threshold_of_scale_lt (hden : 0 < den) {K : Nat} (hk : fpScale f num den < K) :
    fpScale f num den * 2 ^ f.fracBits + fpSignificand f num den < (K + 2) * 2 ^ f.fracBits ∧
      fpScaled f num den * 2 ^ fpScale f num den < (2 ^ (f.fracBits + 1) - 1 / 2) * 2 ^ K := by
  constructor
  · have hq := fpSignificand_le (f := f) (num := num) hden
    calc fpScale f num den * 2 ^ f.fracBits + fpSignificand f num den
        ≤ fpScale f num den * 2 ^ f.fracBits + 2 ^ (f.fracBits + 1) := Nat.add_le_add_left hq _
      _ = (fpScale f num den + 2) * 2 ^ f.fracBits := by ring
      _ < (K + 2) * 2 ^ f.fracBits := Nat.mul_lt_mul_of_pos_right (by omega) (Nat.two_pow_pos _)
  · have hone : (1 : ℚ) ≤ 2 ^ f.fracBits := one_le_pow₀ one_le_two
    have hstep : (2 : ℚ) ^ (fpScale f num den + 1) ≤ 2 ^ K := pow_le_pow_right₀ one_le_two hk
    calc fpScaled f num den * 2 ^ fpScale f num den
        < 2 ^ (f.fracBits + 1) * 2 ^ fpScale f num den :=
          mul_lt_mul_of_pos_right (fpScaled_lt hden) (by positivity)
      _ ≤ (2 ^ (f.fracBits + 1) - 1 / 2) * 2 ^ (fpScale f num den + 1) := by
          have hpos : (0 : ℚ) ≤ 2 ^ fpScale f num den * (2 * 2 ^ f.fracBits - 1) :=
            mul_nonneg (by positivity) (by linarith)
          rw [pow_succ, pow_succ]
          linarith
      _ ≤ (2 ^ (f.fracBits + 1) - 1 / 2) * 2 ^ K := by
          refine mul_le_mul_of_nonneg_left hstep ?_
          rw [pow_succ]
          linarith

/-- Above the largest scale a rounded magnitude and an exact one have reached the threshold. -/
theorem threshold_le_of_lt_scale (hden : 0 < den) {K : Nat} (hk : K < fpScale f num den) :
    (K + 2) * 2 ^ f.fracBits ≤ fpScale f num den * 2 ^ f.fracBits + fpSignificand f num den ∧
      (2 ^ (f.fracBits + 1) - 1 / 2) * 2 ^ K ≤ fpScaled f num den * 2 ^ fpScale f num den := by
  have hne : fpScale f num den ≠ 0 := by omega
  constructor
  · calc (K + 2) * 2 ^ f.fracBits ≤ (fpScale f num den + 1) * 2 ^ f.fracBits := Nat.mul_le_mul_right _ (by omega)
      _ = fpScale f num den * 2 ^ f.fracBits + 2 ^ f.fracBits := by ring
      _ ≤ _ := Nat.add_le_add_left (le_fpSignificand hden hne) _
  · have hstep : (2 : ℚ) ^ (K + 1) ≤ 2 ^ fpScale f num den := pow_le_pow_right₀ one_le_two hk
    calc (2 ^ (f.fracBits + 1) - 1 / 2) * 2 ^ K ≤ (2 : ℚ) ^ f.fracBits * 2 ^ (K + 1) := by
          have hpos : (0 : ℚ) < 2 ^ K := by positivity
          rw [pow_succ, pow_succ]
          linarith
      _ ≤ 2 ^ f.fracBits * 2 ^ fpScale f num den := mul_le_mul_of_nonneg_left hstep (by positivity)
      _ ≤ _ := mul_le_mul_of_nonneg_right (le_fpScaled hden hne) (by positivity)

/-- A significand rounds below twice the first one exactly below the half unit under it: the tie rounds to even. -/
theorem fpSignificand_lt_iff (hden : 0 < den) :
    fpSignificand f num den < 2 ^ (f.fracBits + 1) ↔ fpScaled f num den < 2 ^ (f.fracBits + 1) - 1 / 2 := by
  obtain ⟨hlow, hhigh⟩ := abs_le.mp (fpSignificand_near (f := f) (num := num) hden)
  constructor
  · intro hlt
    by_contra hge
    have hcast : (fpSignificand f num den : ℚ) + 1 ≤ 2 ^ (f.fracBits + 1) := by
      exact_mod_cast hlt
    have hhalf : |(fpSignificand f num den : ℚ) - fpScaled f num den| = 1 / 2 := by
      rw [abs_of_nonpos] <;> linarith
    have heven := fpSignificand_even hden hhalf
    have htop : fpSignificand f num den + 1 = 2 ^ (f.fracBits + 1) := by
      have : (fpSignificand f num den : ℚ) + 1 = 2 ^ (f.fracBits + 1) := by linarith
      exact_mod_cast this
    rw [Nat.pow_succ] at htop
    omega
  · intro hlt
    have hcast : (fpSignificand f num den : ℚ) < (2 ^ (f.fracBits + 1) : Nat) := by
      push_cast
      linarith
    exact Nat.cast_lt.mp hcast

/-- The rounded magnitude is that of a finite pattern exactly below the threshold. -/
theorem fpRound_finite_iff (hf : f.proper) (hden : 0 < den) :
    fpScale f num den * 2 ^ f.fracBits + fpSignificand f num den < f.maxExp * 2 ^ f.fracBits ↔
      (num : ℚ) / den < (2 ^ (f.fracBits + 1) - 1 / 2) * 2 ^ (f.maxExp - 2) := by
  obtain ⟨K, hK⟩ : ∃ K, f.maxExp = K + 2 := ⟨f.maxExp - 2, by have := f.maxExp_eq hf; have := f.bias_pos hf; omega⟩
  rw [hK, Nat.add_sub_cancel, ← fpScaled_mul (f := f) hden]
  rcases Nat.lt_trichotomy (fpScale f num den) K with hk | hk | hk
  · obtain ⟨hrounded, hexact⟩ := below_threshold_of_scale_lt hden hk
    exact iff_of_true hrounded hexact
  · have hsum : (K + 2) * 2 ^ f.fracBits = K * 2 ^ f.fracBits + 2 ^ (f.fracBits + 1) := by ring
    rw [hk, hsum, Nat.add_lt_add_iff_left, mul_lt_mul_iff_left₀ (by positivity), fpSignificand_lt_iff hden]
  · obtain ⟨hrounded, hexact⟩ := threshold_le_of_lt_scale hden hk
    exact iff_of_false hrounded.not_gt hexact.not_gt

end Overflow

/-! ### The rounded pattern -/

theorem abs_signFactor_mul (s : Bool) (a : ℚ) : |signFactor s * a| = |a| := by
  rw [abs_mul, abs_signFactor, one_mul]

/-- A signed number other than zero has its sign. -/
theorem decide_signFactor_mul_lt (s : Bool) {a : ℚ} (ha : 0 < a) : decide (signFactor s * a < 0) = s := by
  cases s
  · simp [signFactor, ha.le]
  · simp [signFactor, ha]

theorem signFactor_mul_pos_of_ne_zero {s : Bool} {a : ℚ} (ha : 0 ≤ a) (h : signFactor s * a ≠ 0) : 0 < a :=
  lt_of_le_of_ne ha (right_ne_zero_of_mul h).symm

section Rounded

variable {f : FpFormat} (hf : f.proper) (s : Bool) {num den : Nat} (hden : 0 < den)

/-- The exact value of a sign and a magnitude `num / den` in units. -/
def fpExact (f : FpFormat) (s : Bool) (num den : Nat) : ℚ := signFactor s * (num / den / f.unitsPerOne)

theorem abs_fpExact : |fpExact f s num den| = num / den / f.unitsPerOne := by
  rw [fpExact, abs_signFactor_mul, abs_of_nonneg (by positivity)]

/-- The pattern of the rounded magnitude, where it does not overflow. -/
def fpRounded (f : FpFormat) (s : Bool) (num den : Nat) : Nat :=
  fpWithSign f s (fpScale f num den * 2 ^ f.fracBits + fpSignificand f num den)

include hf in
/-- The distance of a pattern from the exact value is at least that of the magnitudes. -/
theorem abs_fpMagnitude_sub_le (y : Nat) :
    |(fpMagnitude f y : ℚ) - num / den| / f.unitsPerOne ≤ |fpRat f y - fpExact f s num den| := by
  have hunits := f.unitsPerOne_pos
  have hy : |fpRat f y| = fpMagnitude f y / f.unitsPerOne := by
    rw [fpRat_eq_signFactor hf, abs_signFactor_mul, abs_of_nonneg (by positivity)]
  have htriangle := abs_abs_sub_abs_le_abs_sub (fpRat f y) (fpExact f s num den)
  rwa [hy, abs_fpExact, ← sub_div, abs_div, abs_of_pos hunits] at htriangle

section Finite

variable (hfin : fpScale f num den * 2 ^ f.fracBits + fpSignificand f num den < f.maxExp * 2 ^ f.fracBits)
include hfin

theorem fpRounded_low_lt :
    fpScale f num den * 2 ^ f.fracBits + fpSignificand f num den < 2 ^ (f.fracBits + f.expBits) :=
  Nat.lt_trans hfin (fpInf_low_lt f)

theorem fpFinite_fpRounded : fpFinite f (fpRounded f s num den) := by
  have hlow := fpRounded_low_lt hfin
  refine ⟨fpWithSign_lt s hlow, ?_⟩
  rw [fpRounded, fpExponent_fpWithSign s hlow]
  exact ((Nat.div_lt_iff_lt_mul (Nat.two_pow_pos _)).mpr hfin).ne

include hden in
theorem fpMagnitude_fpRounded :
    fpMagnitude f (fpRounded f s num den) = fpSignificand f num den * 2 ^ fpScale f num den :=
  fpMagnitude_fpWithSign s (fpRounded_low_lt hfin) (fpSignificand_le hden) (le_fpSignificand hden)

include hf in
/-- The rounded pattern has the sign of the exact value, so its distance is that of the magnitudes. -/
theorem abs_fpRounded_sub :
    |fpRat f (fpRounded f s num den) - fpExact f s num den| =
      |(fpMagnitude f (fpRounded f s num den) : ℚ) - num / den| / f.unitsPerOne := by
  have hsign : fpSign f (fpRounded f s num den) = s := fpSign_fpWithSign s (fpRounded_low_lt hfin)
  rw [fpRat_eq_signFactor hf, hsign, fpExact, ← mul_sub, abs_signFactor_mul, ← sub_div, abs_div,
    abs_of_pos f.unitsPerOne_pos]

include hf hden in
theorem fpRounded_nearest (y : Nat) :
    |fpRat f (fpRounded f s num den) - fpExact f s num den| ≤ |fpRat f y - fpExact f s num den| := by
  have hle := (rounded_nearest (f := f) (num := num) hden y).1
  rw [← fpMagnitude_fpRounded s hden hfin] at hle
  calc |fpRat f (fpRounded f s num den) - fpExact f s num den|
      = |(fpMagnitude f (fpRounded f s num den) : ℚ) - num / den| / f.unitsPerOne := abs_fpRounded_sub hf s hfin
    _ ≤ |(fpMagnitude f y : ℚ) - num / den| / f.unitsPerOne := by gcongr
    _ ≤ _ := abs_fpMagnitude_sub_le hf s y

include hf hden in
/-- Two values of one magnitude are not both nearest: the other would have the other sign. -/
theorem fpRounded_unique_of_magnitude {y : Nat}
    (heq : |fpRat f y - fpExact f s num den| = |fpRat f (fpRounded f s num den) - fpExact f s num den|)
    (hmag : fpMagnitude f y = fpMagnitude f (fpRounded f s num den)) :
    fpRat f y = fpRat f (fpRounded f s num den) := by
  have habs : |fpRat f y| = |fpRat f (fpRounded f s num den)| := by
    rw [fpRat_eq_signFactor hf, fpRat_eq_signFactor hf, abs_signFactor_mul, abs_signFactor_mul, hmag]
  rcases abs_eq_abs.mp habs with hsame | hopposite
  · exact hsame
  · rw [hopposite] at heq ⊢
    rcases abs_eq_abs.mp heq with h | h
    · linarith
    · have hexact : fpExact f s num den = 0 := by linarith
      have hnear := fpRounded_nearest hf s hden hfin 0
      have hzero : fpRat f 0 = 0 :=
        (fpRat_eq_zero_iff hf 0).mpr ((fpMagnitude_eq_zero_iff 0).mpr (fpObject_fpZero false))
      rw [hexact, hzero, sub_zero, sub_zero, abs_zero] at hnear
      have hrounded := abs_nonpos_iff.mp hnear
      rw [hrounded, neg_zero]

include hf hden in
/-- Where another value is as near, the fraction is even. -/
theorem fpRounded_even {y : Nat}
    (heq : |fpRat f y - fpExact f s num den| = |fpRat f (fpRounded f s num den) - fpExact f s num den|)
    (hne : fpRat f y ≠ fpRat f (fpRounded f s num den)) : fpRounded f s num den % 2 = 0 := by
  have hunits := f.unitsPerOne_pos
  have hmag : fpMagnitude f y ≠ fpMagnitude f (fpRounded f s num den) :=
    fun h => hne (fpRounded_unique_of_magnitude hf s hden hfin heq h)
  obtain ⟨hle, heven⟩ := rounded_nearest (f := f) (num := num) hden y
  rw [← fpMagnitude_fpRounded s hden hfin] at hle heven
  have hge : |(fpMagnitude f y : ℚ) - num / den| ≤ |(fpMagnitude f (fpRounded f s num den) : ℚ) - num / den| := by
    have hdist := abs_fpMagnitude_sub_le hf s (num := num) (den := den) y
    rw [heq, abs_fpRounded_sub hf s hfin] at hdist
    exact (div_le_div_iff_of_pos_right hunits).mp hdist
  have hsignificand := heven (le_antisymm hge hle) hmag
  obtain ⟨n, hn⟩ : ∃ n, f.fracBits = n + 1 := Nat.exists_eq_add_one_of_ne_zero (by have := hf.2; omega)
  have hscale : fpScale f num den * 2 ^ f.fracBits % 2 = 0 := by
    rw [hn, Nat.pow_succ, ← Nat.mul_assoc, Nat.mul_mod_left]
  have hsign : 2 ^ (f.fracBits + f.expBits) % 2 = 0 := by
    rw [hn, Nat.add_right_comm, Nat.pow_succ, Nat.mul_mod_left]
  rw [fpRounded, fpWithSign]
  split <;> omega

end Finite

include hf hden in
/-- The rounded magnitude with its sign is the exact value rounded. -/
theorem roundsTo_fpRound : roundsTo f (fpExact f s num den) (fpWithSign f s (fpRound f num den)) := by
  have hunits := f.unitsPerOne_pos
  have hsign (h : fpExact f s num den ≠ 0) : s = decide (fpExact f s num den < 0) :=
    (decide_signFactor_mul_lt s (signFactor_mul_pos_of_ne_zero (by positivity) h)).symm
  have hthreshold : |fpExact f s num den| < (2 - 1 / 2 ^ (f.fracBits + 1)) * 2 ^ f.bias ↔
      fpScale f num den * 2 ^ f.fracBits + fpSignificand f num den < f.maxExp * 2 ^ f.fracBits := by
    rw [abs_fpExact, div_lt_iff₀ hunits, threshold_mul_unitsPerOne hf, fpRound_finite_iff hf hden]
  refine ⟨fun h => (fpSign_fpWithSign s (fpRound_lt ..)).trans (hsign h), ?_⟩
  by_cases hfin : fpScale f num den * 2 ^ f.fracBits + fpSignificand f num den < f.maxExp * 2 ^ f.fracBits
  · rw [if_pos (hthreshold.mpr hfin), fpRound_eq_min, Nat.min_eq_left hfin.le]
    exact ⟨fpFinite_fpRounded s hfin, fun y _ => fpRounded_nearest hf s hden hfin y,
      fun y _ heq hne => fpRounded_even hf s hden hfin heq hne⟩
  · have hpos : (0 : ℚ) < (2 - 1 / 2 ^ (f.fracBits + 1)) * 2 ^ f.bias := by
      have hhalf : (1 : ℚ) / 2 ^ (f.fracBits + 1) ≤ 1 := by
        rw [div_le_one (by positivity)]
        exact one_le_pow₀ one_le_two
      exact mul_pos (by linarith) (by positivity)
    have hne : fpExact f s num den ≠ 0 := by
      intro hzero
      rw [hzero, abs_zero] at hthreshold
      exact hfin (hthreshold.mp hpos)
    rw [if_neg (hthreshold.not.mpr hfin), fpRound_eq_min, Nat.min_eq_right (Nat.not_lt.mp hfin), ← hsign hne]
    rfl

end Rounded

/-! ### The operations -/

theorem fpRound_zero_one (f : FpFormat) : fpRound f 0 1 = 0 := by
  simp [fpRound, fpScale, roundNearestEven]

/-- The exact sum of two values is a whole number of units. -/
theorem fpExact_natAbs (f : FpFormat) (v : Int) :
    fpExact f (decide (v < 0)) v.natAbs 1 = v / f.unitsPerOne := by
  rw [fpExact, Nat.cast_natAbs, Nat.cast_one, div_one, ← mul_div_assoc, signFactor, Int.cast_abs]
  by_cases hv : v < 0
  · simp [hv, abs_of_neg (Int.cast_lt_zero.mpr hv : (v : ℚ) < 0)]
  · simp [hv, abs_of_nonneg (Int.cast_nonneg (not_lt.mp hv) : (0 : ℚ) ≤ v)]

/-- An answer is a fraction rounded, whose exact value is the operation's result. -/
def roundsExactly (f : FpFormat) (answer : Option Nat) (e : ℚ) : Prop :=
  ∃ s num den, 0 < den ∧ answer = some (fpWithSign f s (fpRound f num den)) ∧ e = fpExact f s num den

section Operations

variable {f : FpFormat} (hf : f.proper) {x y : Nat} (hx : fpFinite f x) (hy : fpFinite f y)
include hf hx hy

theorem fpAdd_roundsExactly : roundsExactly f (fpAdd f x y) (fpRat f x + fpRat f y) := by
  have hexact : fpRat f x + fpRat f y = ((fpValue f x + fpValue f y : Int) : ℚ) / f.unitsPerOne := by
    rw [fpRat_eq_fpValue_div hf, fpRat_eq_fpValue_div hf, Int.cast_add, add_div]
  rw [fpAdd_of_finite hf hx hy, hexact]
  by_cases hzero : fpValue f x + fpValue f y = 0
  · refine ⟨fpSign f x && fpSign f y, 0, 1, Nat.one_pos, ?_, ?_⟩
    · rw [if_pos hzero, fpRound_zero_one, fpZero]
    · rw [hzero, fpExact]
      simp
  · exact ⟨_, _, 1, Nat.one_pos, if_neg hzero, (fpExact_natAbs f _).symm⟩

theorem fpMul_roundsExactly : roundsExactly f (fpMul f x y) (fpRat f x * fpRat f y) := by
  refine ⟨_, _, f.unitsPerOne, Nat.two_pow_pos _, fpMul_of_finite hf hx hy, ?_⟩
  rw [fpRat_eq_signFactor hf, fpRat_eq_signFactor hf, fpExact, signFactor_bne, Nat.cast_mul]
  ring

theorem fpDiv_roundsExactly (hne : fpRat f y ≠ 0) : roundsExactly f (fpDiv f x y) (fpRat f x / fpRat f y) := by
  have hmag : fpMagnitude f y ≠ 0 := (fpRat_eq_zero_iff hf y).not.mp hne
  refine ⟨_, _, _, Nat.pos_of_ne_zero hmag, fpDiv_of_finite hf hx hy hmag, ?_⟩
  have hunits := f.unitsPerOne_pos.ne'
  have hsign : (signFactor (fpSign f y))⁻¹ = signFactor (fpSign f y) := by
    cases fpSign f y <;> norm_num [signFactor]
  rw [fpRat_eq_signFactor hf, fpRat_eq_signFactor hf, fpExact, signFactor_bne, Nat.cast_mul, mul_div_mul_comm,
    div_eq_mul_inv (signFactor _), hsign]
  field_simp

theorem fpOperate_roundsExactly (op : FpOp) (hne : op = .div → fpRat f y ≠ 0) :
    roundsExactly f (fpOperate f op x y) (exactResult op (fpRat f x) (fpRat f y)) := by
  cases op with
  | add => exact fpAdd_roundsExactly hf hx hy
  | sub =>
    have hsub := fpAdd_roundsExactly hf hx (fpFinite_fpNegate hy)
    rwa [fpRat_fpNegate hf, ← sub_eq_add_neg] at hsub
  | mul => exact fpMul_roundsExactly hf hx hy
  | div => exact fpDiv_roundsExactly hf hx hy (hne rfl)

end Operations

theorem IsDefaultRecord.roundsCorrectly {w : Nat} {f : FpFormat} {fp : FpOp → BitVec w → BitVec w → BitVec w}
    (hfp : IsDefaultRecord f fp) : roundsCorrectly f fp := by
  intro op a b ha hb hne
  obtain ⟨s, num, den, hden, hanswer, hexact⟩ := fpOperate_roundsExactly hfp.proper ha hb op hne
  rw [hexact, hfp.toNat_of_some hanswer (fpRound_lt f num den)]
  exact roundsTo_fpRound hfp.proper s hden

/-- Settles O30. -/
theorem floatArithmeticIsCorrectlyRounded : Obligations.FloatArithmeticIsCorrectlyRounded :=
  ⟨isDefaultRecord_single.roundsCorrectly, isDefaultRecord_double.roundsCorrectly⟩

end Sys2Proof.Machine
end
